-- ==== Sys2Proof/Word.lean ====
section
/-! DEFINITION. The word types of LBG-SOLQ: what the spec treats as bits. -/

namespace Sys2Proof

/-- A command word or a response word (30_encoding R70, 20_memory R56). -/
abbrev Word := BitVec 16

/-- A byte: a bar pattern, or half a word on a byte transport (R23, R53). -/
abbrev Byte := BitVec 8

/-- A conversion result, in [0, 1023] (R21, R110). -/
abbrev Code := BitVec 10

end Sys2Proof
end

