-- ==== Sys2Proof/Syntax.lean ====
section
/-! DEFINITION. The commands of LBG-CMD16: one constructor per row of spec/opcode_table.json, with the operands the
formats of 30_encoding R71 carry. -/

namespace Sys2Proof

/-- The three output lines (10_state R25); their ids are in `Machine.Operands`. -/
inductive Line where
  | ser
  | srclk
  | rclk
  deriving DecidableEq, Repr

/-- A decoded command (30_encoding R73). The line operand is the two-bit field CW[2:1] as it stands: id 3 is reserved
(R72), and `Instr.wf` refuses it. -/
inductive Instr where
  | init
  | setl (line : BitVec 2) (v : Bool)
  | getl (line : BitVec 2)
  | delay (t : BitVec 12)
  | adstart
  | adpoll
  | adread
  | sample
  | ldraw (imm10 : Code)
  | map
  | ldpat (imm8 : Byte)
  | shiftout
  | step
  | run
  deriving DecidableEq, Repr

end Sys2Proof
end

