-- ==== Sys2Proof/WellFormed.lean ====
section
/-! DEFINITION. Which terms of `Instr` are commands: those a legal word stands for. -/

namespace Sys2Proof

/-- A command is well-formed when its line operand is not the reserved id 3 (30_encoding R72, R74 (c)). Every other
operand field admits every value of its width (R72). -/
def Instr.wf : Instr → Bool
  | .setl line _ => line != 3#2
  | .getl line => line != 3#2
  | .init => true
  | .delay _ => true
  | .adstart => true
  | .adpoll => true
  | .adread => true
  | .sample => true
  | .ldraw _ => true
  | .map => true
  | .ldpat _ => true
  | .shiftout => true
  | .step => true
  | .run => true

end Sys2Proof
end

