-- ==== Sys2Proof/Decode.lean ====
section
/-! DEFINITION. Decoding command words (30_encoding R70 to R75), the byte transport (20_memory R53, R55), and the
encoder. -/

namespace Sys2Proof

/-- Why a word is illegal: the four cases of 30_encoding R74. The spec has one ILLEGAL; that the decoder names the case, and
which one it names for a word that falls under several, is the model's, and reaches no field of State (DESIGN CHOICE,
log 19). -/
inductive Reject where
  /-- (a) op is 0x0 or 0xF. -/
  | reservedOpcode
  /-- (b) a must-be-zero field is not zero. -/
  | mustBeZero
  /-- (c) SETL or GETL with line = 3. -/
  | reservedLine
  /-- (d) GETL with CW[0] = 1. -/
  | getlLevel
  deriving DecidableEq, Repr

/-- The result of decoding a word: a command, or ILLEGAL with a case of R74 it falls under (log 19). -/
inductive Decoded where
  | cmd (i : Instr)
  | illegal (r : Reject)
  deriving DecidableEq, Repr

/-- CW[15:12] (R70). -/
def opField (cw : Word) : BitVec 4 := cw.extractLsb' 12 4

/-- CW[2:1] (R72). -/
def lineField (cw : Word) : BitVec 2 := cw.extractLsb' 1 2

/-- Format N (R71): CW[11:0] = 0. -/
def decodeN (i : Instr) (cw : Word) : Decoded :=
  if cw.extractLsb' 0 12 = 0#12 then .cmd i else .illegal .mustBeZero

/-- SETL, format L (R71): CW[11:3] = 0, line ≠ 3. Of the cases of R74 that an illegal word falls under, (b) is reported
before (c) (DESIGN CHOICE, log 19). -/
def decodeSetl (cw : Word) : Decoded :=
  if cw.extractLsb' 3 9 ≠ 0#9 then .illegal .mustBeZero
  else if lineField cw = 3#2 then .illegal .reservedLine
  else .cmd (.setl (lineField cw) (cw.getLsbD 0))

/-- GETL, format L with v = 0 (R71). Of the cases of R74 that an illegal word falls under, (b) is reported before (c), and (c)
before (d) (DESIGN CHOICE, log 19). -/
def decodeGetl (cw : Word) : Decoded :=
  if cw.extractLsb' 3 9 ≠ 0#9 then .illegal .mustBeZero
  else if lineField cw = 3#2 then .illegal .reservedLine
  else if cw.getLsbD 0 then .illegal .getlLevel
  else .cmd (.getl (lineField cw))

/-- Format R (R71): CW[11:10] = 0. -/
def decodeLdraw (cw : Word) : Decoded :=
  if cw.extractLsb' 10 2 = 0#2 then .cmd (.ldraw (cw.extractLsb' 0 10)) else .illegal .mustBeZero

/-- Format B (R71): CW[11:8] = 0. -/
def decodeLdpat (cw : Word) : Decoded :=
  if cw.extractLsb' 8 4 = 0#4 then .cmd (.ldpat (cw.extractLsb' 0 8)) else .illegal .mustBeZero

/-- Decode (R75): total, and reading the word alone (R78). -/
def decode (cw : Word) : Decoded :=
  match opField cw with
  | 0x1#4 => decodeN .init cw
  | 0x2#4 => decodeSetl cw
  | 0x3#4 => decodeGetl cw
  | 0x4#4 => .cmd (.delay (cw.extractLsb' 0 12))
  | 0x5#4 => decodeN .adstart cw
  | 0x6#4 => decodeN .adpoll cw
  | 0x7#4 => decodeN .adread cw
  | 0x8#4 => decodeN .sample cw
  | 0x9#4 => decodeLdraw cw
  | 0xA#4 => decodeN .map cw
  | 0xB#4 => decodeLdpat cw
  | 0xC#4 => decodeN .shiftout cw
  | 0xD#4 => decodeN .step cw
  | 0xE#4 => decodeN .run cw
  | _ => .illegal .reservedOpcode

/-- One whole word off a byte transport, the low byte first (20_memory R53). Half a word delivers no command (R55). -/
def takeWord : List Byte → Option (Word × List Byte)
  | lo :: hi :: rest => some (hi ++ lo, rest)
  | _ => none

/-- Decoding on any bytes: the next command and the bytes after it, or none while a whole word is missing (R55). -/
def decodeBytes (bs : List Byte) : Option (Decoded × List Byte) :=
  match takeWord bs with
  | some (cw, rest) => some (decode cw, rest)
  | none => none

/-- The words a byte transport delivers; an incomplete word at the end is waited for (R55). -/
def wordsOfBytes : List Byte → List Word
  | lo :: hi :: rest => (hi ++ lo) :: wordsOfBytes rest
  | _ => []

/-- A word as a byte transport carries it, the low byte first (R53). -/
def bytesOfWord (w : Word) : List Byte := [w.extractLsb' 0 8, w.extractLsb' 8 8]

/-- The word of a command (R71, R73). The word of an ill-formed SETL or GETL is the illegal word with line = 3. -/
def encode : Instr → Word
  | .init => 0x1000#16
  | .setl line v => 0x2#4 ++ 0#9 ++ line ++ BitVec.ofBool v
  | .getl line => 0x3#4 ++ 0#9 ++ line ++ 0#1
  | .delay t => 0x4#4 ++ t
  | .adstart => 0x5000#16
  | .adpoll => 0x6000#16
  | .adread => 0x7000#16
  | .sample => 0x8000#16
  | .ldraw imm10 => 0x9#4 ++ 0#2 ++ imm10
  | .map => 0xA000#16
  | .ldpat imm8 => 0xB#4 ++ 0#4 ++ imm8
  | .shiftout => 0xC000#16
  | .step => 0xD000#16
  | .run => 0xE000#16

/-- The word that the opcode table's first `nbits` bits spell, every bit above them 0. -/
def tableWord (nbits w : Nat) : Word := BitVec.ofNat 16 (w % 2 ^ nbits)

/-- What this decoder reads from an opcode-table row's bits: the word laid out as a byte transport carries it (R53),
then decoded. -/
def decodeTableWord (nbits w : Nat) : Option Instr :=
  match decodeBytes (bytesOfWord (tableWord nbits w)) with
  | some (.cmd i, _) => some i
  | _ => none

end Sys2Proof
end

