-- ==== Sys2Proof/Config.lean ====
section
/-! DEFINITION. The fixed parameters of 00_scope R6, the open parameters of R7, and the environment's moves with its open
schedule (70_reset R230). -/

namespace Sys2Proof.Machine

/-- The two resets (R36, R231). -/
inductive ResetKind where
  | powerOn
  | input
  deriving DecidableEq, Repr

/-- One move of the environment's schedule (R230): who takes the next micro-step. DESIGN CHOICE (log 2). -/
inductive Turn where
  /-- The controller takes its next micro-step, or holds. -/
  | controller
  /-- The converter completes the conversion in flight with the draw `v` (R110). -/
  | converter (v : Code)
  /-- A reset is asserted (R231). -/
  | reset (kind : ResetKind)
  deriving DecidableEq, Repr

end Sys2Proof.Machine

namespace Sys2Proof.Config

/-- DIVISOR (R6, R136): 127, not 128. -/
abbrev divisor : Nat := 127

/-- POWER_MAX (R6). -/
abbrev powerMax : Nat := 8

/-- PATTERN_BITS (R6): segments, and bits shifted out. -/
abbrev patternBits : Nat := 8

/-- T_CLK_HIGH in microseconds, a minimum (R6). -/
abbrev tClkHigh : Nat := 10

/-- T_CLK_LOW in microseconds, a minimum (R6). -/
abbrev tClkLow : Nat := 2

/-- T_LATCH_HIGH in microseconds, a minimum (R6). -/
abbrev tLatchHigh : Nat := 50

/-- ADC_PRESCALER (R6). -/
abbrev adcPrescaler : Nat := 64

/-- F_CPU (R7): open; no rule depends on it, and no step reads it. The spec gives it no unit and no number domain; that it
is a natural number is the model's (DESIGN CHOICE, log 13). -/
opaque fCpu : Nat

/-- The ADC clock, F_CPU / 64 (R7). On natural numbers, so rounded down, which the spec does not say (DESIGN CHOICE,
log 13). -/
def adcClock : Nat := fCpu / adcPrescaler

/-- adc_transfer (R7, R110): the map from the analog input to a code. Open; every completion draws its code freely
(R110), so no step reads it. The spec gives the analog input no unit and no number domain; the natural numbers are the
model's (DESIGN CHOICE, log 13). -/
opaque adcTransfer : Nat → Code

/-- PIN_MAP (R7): which port pin carries which line. Open; no rule depends on it, and no step reads it. That a
pin is a natural number is the model's (DESIGN CHOICE, log 13). -/
opaque pinMap : Line → Nat

/-- The environment's open schedule (R230): the moves other agents make before the controller's n-th turn of it. A free
value: the draws, the completions and the resets of a whole endless run, none of them chosen (DESIGN CHOICE, log 2). -/
opaque environment : Nat → List Machine.Turn

end Sys2Proof.Config
end

