-- ==== Sys2Proof/Machine/State.lean ====
section
/-! DEFINITION. The state record of 10_state R20, the stops of the model, and the state after power-on (R36). -/

namespace Sys2Proof.Machine

/-- A line's direction (R25). -/
inductive Dir where
  | input
  | output
  deriving DecidableEq, Repr

/-- A line's level: 0, 1 or not driven (R25). -/
inductive Level where
  | low
  | high
  | z
  deriving DecidableEq, Repr

/-- A receiver bit: 0, 1 or unknown, where an unknown bit stands for either (R11). -/
inductive Tri where
  | zero
  | one
  | unknown
  deriving DecidableEq, Repr

/-- An 8-bit receiver register, SHIFT[7:0] or LATCH[7:0], each bit 0, 1 or unknown (R31). -/
structure Tri8 where
  b7 : Tri
  b6 : Tri
  b5 : Tri
  b4 : Tri
  b3 : Tri
  b2 : Tri
  b1 : Tri
  b0 : Tri
  deriving DecidableEq, Repr

/-- ADC_CH's one legal value (R29). -/
inductive AdcChannel where
  | channel0
  deriving DecidableEq, Repr

/-- ADC_REF's one legal value (R29). -/
inductive AdcRef where
  | supply
  deriving DecidableEq, Repr

/-- ADC_MODE's one legal value (R29). -/
inductive AdcMode where
  | singleEnded
  deriving DecidableEq, Repr

/-- ADC_PRESC's one legal value (R29). -/
inductive AdcPrescaler where
  | div64
  deriving DecidableEq, Repr

/-- The converter's state (R30). -/
inductive AdcState where
  | off
  | idle
  | busy
  | done
  deriving DecidableEq, Repr

/-- The events of HISTORY (R33). A level is `true` for high. -/
inductive Event where
  | init
  | line (l : Line) (v : Bool)
  | delay (t : Nat)
  | adcStart
  | adcDone (v : Code)
  | adcRead (v : Code)
  | fault (code : BitVec 3) (cw : Word)
  | reset (kind : ResetKind)
  deriving DecidableEq, Repr

/-- The names of the faults of 60_exceptions R201. -/
inductive FaultName where
  | illegalCommand
  | notInitialised
  | reinitialise
  | adcBusy
  | adcNotReady
  | unwritten
  deriving DecidableEq, Repr

/-- The endless rest of the environment's schedule (R230), in passes: the moves of a pass, and then one turn of the
controller. DESIGN CHOICE (log 2). -/
inductive Beyond where
  /-- The same pass for ever. The empty pass leaves every micro-step to the controller: no completion and no reset. -/
  | cycle (pass : List Turn)
  /-- The passes of the open schedule, from its n-th on (`Config.environment`). -/
  | free (n : Nat)
  deriving DecidableEq, Repr

/-- The environment's schedule (R230): the moves listed, next move first, and the endless rest after them. DESIGN CHOICE
(log 2). -/
structure Schedule where
  listed : List Turn
  beyond : Beyond
  deriving DecidableEq, Repr

/-- The schedule in which the environment never moves: no completion (41_sampler R111) and no reset. -/
def Schedule.silent : Schedule := { listed := [], beyond := .cycle [] }

/-- The state record (R20), each field under its name there, and three fields of the model's own at the end. -/
@[ext]
structure State where
  /-- RAW (R21); `none` is unwritten. -/
  raw : Option Code
  /-- POWER (R22); `none` is unwritten. -/
  power : Option (BitVec 4)
  /-- PATTERN (R23); `none` is unwritten. -/
  pattern : Option Byte
  /-- DIR_SER (R25). -/
  dirSer : Dir
  /-- DIR_SRCLK (R25). -/
  dirSrclk : Dir
  /-- DIR_RCLK (R25). -/
  dirRclk : Dir
  /-- LVL_SER (R25). -/
  lvlSer : Level
  /-- LVL_SRCLK (R25). -/
  lvlSrclk : Level
  /-- LVL_RCLK (R25). -/
  lvlRclk : Level
  /-- INITED (R29). -/
  inited : Bool
  /-- ADC_EN (R29). -/
  adcEn : Bool
  /-- ADC_CH (R29); `none` is unspecified. -/
  adcCh : Option AdcChannel
  /-- ADC_REF (R29); `none` is unspecified. -/
  adcRef : Option AdcRef
  /-- ADC_MODE (R29); `none` is unspecified. -/
  adcMode : Option AdcMode
  /-- ADC_PRESC (R29); `none` is unspecified. -/
  adcPresc : Option AdcPrescaler
  /-- ADC_STATE (R30). -/
  adcState : AdcState
  /-- ADC_RES (R30); `none` is unwritten. -/
  adcRes : Option Code
  /-- SHIFT, the receiver's shift stage (R31). -/
  shift : Tri8
  /-- LATCH, the receiver's output latch (R31). -/
  latch : Tri8
  /-- CPC, the command pointer (R26). -/
  cpc : Nat
  /-- CUR, the command in progress (R27). -/
  cur : Option Instr
  /-- MS, the micro-step index (R27). -/
  ms : Nat
  /-- FAULT_CODE (R32); 0 is no fault. -/
  faultCode : BitVec 3
  /-- FAULT_CW (R32). -/
  faultCw : Word
  /-- HISTORY, oldest event first (R33). -/
  history : List Event
  /-- RESPONSES, oldest first: pairs of CPC and response word (R34). -/
  responses : List (Nat × Word)
  /-- The model's own: the response word a body has computed and completion has yet to send (DEDUCED, log 5). -/
  pending : Option Word
  /-- The model's own: PROG, which the environment supplies and nothing in the block writes (R26, R230; log 1). -/
  prog : List Word
  /-- The model's own: the environment's schedule (R230; log 2). -/
  turns : Schedule
  deriving DecidableEq, Repr

/-- The model's own stops (log 9). Each names a state no run from reset reaches, where the spec's precondition of a
micro-step is broken; all are safe. The faults of R201 are no stops: they are next states with FAULT_CODE set. -/
inductive Fault where
  /-- Raised by a body micro-step that reads RAW, PATTERN or ADC_RES while it is unwritten; the checks of R203 rule
  this out at fetch. Safe. -/
  | unwrittenRead
  /-- Raised by GETL's body on a line at level Z while INITED = 1, which R25 and R92 rule out. Safe. -/
  | undrivenRead
  /-- Raised by `exec` asked to run a command while a different one is in progress, which the sequencer never does
  (R27). Safe. -/
  | commandInProgress
  deriving DecidableEq, Repr

/-- The model's refusals. -/
inductive Refusal where
  /-- Raised by `exec`'s arm of a command that has no meaning yet; no arm is in that case. Safe. -/
  | notModelled (mnemonic : String)
  deriving DecidableEq, Repr

/-- What one controller micro-step does (00_scope R9): it moves, it holds, or the model stops. Raising a fault of R201
is a move (R200). -/
inductive Micro where
  | moved (s : State)
  | held
  | stopped (r : Fault)
  deriving DecidableEq, Repr

/-- Whether the controller's turn came, or a reset came first (R204 (b)). -/
inductive Ready where
  | go (s : State)
  | aborted (s : State)
  deriving DecidableEq, Repr

/-- What the receiver can read off HISTORY since the last Init (R156): the levels of the two clocks, and the gaps gF, gR
and gL; `none` is a gap of +∞. -/
structure Timing where
  srclk : Bool
  rclk : Bool
  gF : Option Nat
  gR : Option Nat
  gL : Option Nat
  deriving DecidableEq, Repr

/-- All eight bits unknown (R36). -/
def Tri8.allUnknown : Tri8 :=
  { b7 := .unknown, b6 := .unknown, b5 := .unknown, b4 := .unknown,
    b3 := .unknown, b2 := .unknown, b1 := .unknown, b0 := .unknown }

/-- The state right after power-on (R36, R232; log 17). PROG and the schedule are not placed here: the environment
supplies them (log 11). -/
def State.reset : State :=
  { raw := none, power := none, pattern := none,
    dirSer := .input, dirSrclk := .input, dirRclk := .input,
    lvlSer := .z, lvlSrclk := .z, lvlRclk := .z,
    inited := false, adcEn := false,
    adcCh := none, adcRef := none, adcMode := none, adcPresc := none,
    adcState := .off, adcRes := none,
    shift := .allUnknown, latch := .allUnknown,
    cpc := 0, cur := none, ms := 0,
    faultCode := 0#3, faultCw := 0x0000#16,
    history := [], responses := [],
    pending := none, prog := [], turns := .silent }

end Sys2Proof.Machine
end

