-- ==== Sys2Proof/Machine/Operands.lean ====
section
/-! DEFINITION. Operand forms and response words (30_encoding R72, 10_state R34), and the accessors of the lines and of
the receiver's registers. -/

namespace Sys2Proof.Machine

/-- The line a two-bit id names; id 3 is reserved (30_encoding R72). -/
def lineOfId (id : BitVec 2) : Option Line :=
  match id with
  | 0#2 => some .ser
  | 1#2 => some .srclk
  | 2#2 => some .rclk
  | _ => none

/-- The id of a line (10_state R25). -/
def lineId : Line → BitVec 2
  | .ser => 0#2
  | .srclk => 1#2
  | .rclk => 2#2

/-- The level a Boolean operand names: 1 is high, 0 is low (30_encoding R72). -/
def levelOfBool (v : Bool) : Level := if v then .high else .low

/-- The Boolean a driven level reads as; an undriven line has none (10_state R25). -/
def boolOfLevel : Level → Option Bool
  | .low => some false
  | .high => some true
  | .z => none

/-- The receiver's view of a level: an undriven input is unknown to it (DEDUCED, log 10). -/
def triOfLevel : Level → Tri
  | .low => .zero
  | .high => .one
  | .z => .unknown

/-- LVL of a line (10_state R25). -/
def State.lvl (s : State) : Line → Level
  | .ser => s.lvlSer
  | .srclk => s.lvlSrclk
  | .rclk => s.lvlRclk

/-- DIR of a line (10_state R25). -/
def State.dir (s : State) : Line → Dir
  | .ser => s.dirSer
  | .srclk => s.dirSrclk
  | .rclk => s.dirRclk

/-- `LVL_l <- v` (10_state R25). -/
def State.setLvl (s : State) (l : Line) (v : Level) : State :=
  match l with
  | .ser => { s with lvlSer := v }
  | .srclk => { s with lvlSrclk := v }
  | .rclk => { s with lvlRclk := v }

/-- DELAY's operand, zero-extended: a count of microseconds in [0, 4095] (30_encoding R72). -/
def delayTime (t : BitVec 12) : Nat := t.toNat

/-- The response word of a Boolean: 0x0000 or 0x0001 (D7, R94, R116). -/
def boolWord (b : Bool) : Word := (BitVec.ofBool b).zeroExtend 16

/-- The response word of a conversion result: bits 15:10 are 0 (20_memory R54). -/
def codeWord (v : Code) : Word := v.zeroExtend 16

/-- MAP's response: POWER in bits 11:8, PATTERN in bits 7:0, bits 15:12 zero (42_mapper R132). -/
def mapWord (p : BitVec 4) (pat : Byte) : Word := (p ++ pat).zeroExtend 16

/-- Bit `i` of a receiver register. -/
def Tri8.bit (r : Tri8) (i : Fin 8) : Tri :=
  match i with
  | 0 => r.b0
  | 1 => r.b1
  | 2 => r.b2
  | 3 => r.b3
  | 4 => r.b4
  | 5 => r.b5
  | 6 => r.b6
  | 7 => r.b7

/-- A known bit. -/
def triOfBool (b : Bool) : Tri := if b then .one else .zero

/-- A byte as a register whose bits are all known. -/
def Tri8.ofByte (b : Byte) : Tri8 :=
  { b7 := triOfBool (b.getLsbD 7), b6 := triOfBool (b.getLsbD 6), b5 := triOfBool (b.getLsbD 5),
    b4 := triOfBool (b.getLsbD 4), b3 := triOfBool (b.getLsbD 3), b2 := triOfBool (b.getLsbD 2),
    b1 := triOfBool (b.getLsbD 1), b0 := triOfBool (b.getLsbD 0) }

/-- bitrev8 (10_state R31): bit i of the result is bit 7 - i. -/
def Tri8.bitrev (r : Tri8) : Tri8 :=
  { b7 := r.b0, b6 := r.b1, b5 := r.b2, b4 := r.b3, b3 := r.b4, b2 := r.b5, b1 := r.b6, b0 := r.b7 }

/-- Whether a bit may have the value `v`: an unknown bit admits both (00_scope R11). -/
def Tri.admits (t : Tri) (v : Bool) : Bool :=
  match t with
  | .zero => !v
  | .one => v
  | .unknown => true

/-- Whether a receiver register may hold the byte `b` (00_scope R11). -/
def Tri8.admits (r : Tri8) (b : Byte) : Bool :=
  r.b7.admits (b.getLsbD 7) && r.b6.admits (b.getLsbD 6) && r.b5.admits (b.getLsbD 5) && r.b4.admits (b.getLsbD 4)
    && r.b3.admits (b.getLsbD 3) && r.b2.admits (b.getLsbD 2) && r.b1.admits (b.getLsbD 1) && r.b0.admits (b.getLsbD 0)

/-- The parallel outputs: Q[k] = LATCH[k] (10_state R31). -/
def State.q (s : State) : Tri8 := s.latch

/-- The display: SEG[i] = LATCH[7-i] (10_state R31, 43_output_driver R155). -/
def State.seg (s : State) : Tri8 := s.latch.bitrev

end Sys2Proof.Machine
end

