-- ==== Sys2Proof/Machine/Flags.lean ====
section
/-! DEFINITION. The status flags of 10_state R28 (the block has no condition codes and no arithmetic flags), and the
conditions the sequencer and the end of a run read. -/

namespace Sys2Proof.Machine

/-- The conversion-ready condition: ADC_STATE = DONE (R28). -/
def State.conversionReady (s : State) : Bool := s.adcState == .done

/-- FAULTED: FAULT_CODE ≠ 0 (R28). -/
def State.faulted (s : State) : Bool := s.faultCode != 0#3

/-- The code of a fault (60_exceptions R201). -/
def faultCodeOf : FaultName → BitVec 3
  | .illegalCommand => 1#3
  | .notInitialised => 2#3
  | .reinitialise => 3#3
  | .adcBusy => 4#3
  | .adcNotReady => 5#3
  | .unwritten => 6#3

/-- The commands that need INIT (60_exceptions R203). -/
def needsInit : Instr → Bool
  | .init => false
  | .setl _ _ => true
  | .getl _ => true
  | .delay _ => false
  | .adstart => true
  | .adpoll => true
  | .adread => true
  | .sample => true
  | .ldraw _ => false
  | .map => false
  | .ldpat _ => false
  | .shiftout => true
  | .step => true
  | .run => true

/-- The commands that start a conversion, and so are illegal while one is BUSY (60_exceptions R203). -/
def startsConversion : Instr → Bool
  | .init => false
  | .setl _ _ => false
  | .getl _ => false
  | .delay _ => false
  | .adstart => true
  | .adpoll => false
  | .adread => false
  | .sample => true
  | .ldraw _ => false
  | .map => false
  | .ldpat _ => false
  | .shiftout => false
  | .step => true
  | .run => true

/-- The commands that respond (10_state R34). -/
def responds : Instr → Bool
  | .init => false
  | .setl _ _ => false
  | .getl _ => true
  | .delay _ => false
  | .adstart => false
  | .adpoll => true
  | .adread => true
  | .sample => true
  | .ldraw _ => false
  | .map => true
  | .ldpat _ => false
  | .shiftout => false
  | .step => false
  | .run => false

/-- The end of a run (44_loop R185): no fault, no command in progress, the stream used up, no conversion in flight. -/
def State.finished (s : State) : Bool :=
  !s.faulted && s.cur.isNone && s.cpc == s.prog.length && s.adcState != .busy

end Sys2Proof.Machine
end

