-- ==== Sys2Proof/Machine/Receiver.lean ====
section
/-! DEFINITION. The 74HC595-style receiver (43_output_driver R150 to R156) and the gaps it reads off HISTORY
(40_port R91). -/

namespace Sys2Proof.Machine

/-- The sum of the Delay events of a stretch of HISTORY (40_port R91). -/
def delaySum : List Event → Nat
  | [] => 0
  | .delay t :: rest => t + delaySum rest
  | _ :: rest => delaySum rest

/-- MinGap of the events at positions `a` and `b` of a history: the delays strictly between them (40_port R91). The
position `h.length` is "now", the end of HISTORY (43_output_driver R156). -/
def minGap (h : List Event) (a b : Nat) : Nat := delaySum ((h.take b).drop (a + 1))

/-- Right after `Init`: the clocks are low and no edge has occurred, so every gap is +∞ (40_port R92, R156). The same before any
`Init`, where no line can be written (DEDUCED, log 8). -/
def timingStart : Timing := { srclk := false, rclk := false, gF := none, gR := none, gL := none }

/-- What one more event of HISTORY changes of the receiver's view. An edge starts its gap at 0, a Delay adds to every
gap, `Init` starts afresh (R156). Only a write that changes the level is an edge (R153), against the level HISTORY itself gives
the clock (DEDUCED, log 8). -/
def timingAfter (t : Timing) : Event → Timing
  | .init => timingStart
  | .line .ser _ => t
  | .line .srclk true => if t.srclk then t else { t with srclk := true, gR := some 0 }
  | .line .srclk false => if t.srclk then { t with srclk := false, gF := some 0 } else t
  | .line .rclk true => if t.rclk then t else { t with rclk := true, gL := some 0 }
  | .line .rclk false => { t with rclk := false }
  | .delay d => { t with gF := t.gF.map (· + d), gR := t.gR.map (· + d), gL := t.gL.map (· + d) }
  | .adcStart => t
  | .adcDone _ => t
  | .adcRead _ => t
  | .fault _ _ => t
  | .reset _ => t

/-- The receiver's view of a history: gF, gR and gL as MinGap to now, over the events after the last `Init` (R156). -/
def timingOf (h : List Event) : Timing := h.foldl timingAfter timingStart

/-- The receiver's view in a state. -/
def State.timing (s : State) : Timing := timingOf s.history

/-- A gap that breaks a minimum: +∞ never does (R156). -/
def shorter (gap : Option Nat) (bound : Nat) : Bool :=
  match gap with
  | none => false
  | some g => decide (g < bound)

/-- SHIFT <- SHIFT[6:0] ++ bit (R151). -/
def Tri8.shiftIn (r : Tri8) (bit : Tri) : Tri8 :=
  { b7 := r.b6, b6 := r.b5, b5 := r.b4, b4 := r.b3, b3 := r.b2, b2 := r.b1, b1 := r.b0, b0 := bit }

/-- ShiftEdge (R151): SER's level enters at SHIFT[0], old SHIFT[7] is lost. -/
def shiftEdge (s : State) : State := { s with shift := s.shift.shiftIn (triOfLevel s.lvlSer) }

/-- LatchEdge (R152): all eight bits in one event. -/
def latchEdge (s : State) : State := { s with latch := s.shift }

/-- SHIFT <- ???????? (R156). -/
def loseShift (s : State) : State := { s with shift := .allUnknown }

/-- LATCH <- ???????? (R156). -/
def loseLatch (s : State) : State := { s with latch := .allUnknown }

/-- ReceiverReact for SER (R156): a data change inside a hold window. -/
def reactSer (old new : Level) (s : State) : State :=
  if old ≠ new ∧ ((s.lvlSrclk = .high ∧ shorter s.timing.gR Config.tClkHigh)
      ∨ (s.lvlSrclk = .low ∧ shorter s.timing.gF Config.tClkLow)) then loseShift s
  else s

/-- ReceiverReact for SRCLK (R156): the shift edge and the shift-clock fall. -/
def reactSrclk (old new : Level) (s : State) : State :=
  if old = .low ∧ new = .high then
    if shorter s.timing.gF Config.tClkLow then loseShift s else shiftEdge s
  else if old = .high ∧ new = .low then
    if shorter s.timing.gR Config.tClkHigh then loseShift s else s
  else s

/-- ReceiverReact for RCLK (R156): the latch edge and the latch fall. -/
def reactRclk (old new : Level) (s : State) : State :=
  if old = .low ∧ new = .high then
    if s.lvlSrclk = .high ∨ shorter s.timing.gF Config.tClkLow then loseLatch s else latchEdge s
  else if old = .high ∧ new = .low then
    if shorter s.timing.gL Config.tLatchHigh then loseLatch s else s
  else s

/-- ReceiverReact(l, old, v) (R156), before the write's own event is recorded. -/
def receiverReact (l : Line) (old new : Level) (s : State) : State :=
  match l with
  | .ser => reactSer old new s
  | .srclk => reactSrclk old new s
  | .rclk => reactRclk old new s

end Sys2Proof.Machine
end

