-- ==== Sys2Proof/Machine/Ops.lean ====
section
/-! DEFINITION. The shared operations: the micro-step primitives of 00_scope R12, the converter's and the reset's
steps, raising a fault, and the sequencer of 10_state R27. -/

namespace Sys2Proof.Machine

/-- A micro-step: one indivisible action of a command (00_scope R13). -/
abbrev MicroStep := State → Micro

/-! ### The micro-step primitives (00_scope R12) -/

/-- Record(e) (10_state R33). -/
def State.record (s : State) (e : Event) : State := { s with history := s.history ++ [e] }

/-- The schedule after a move: `ts` is left of it (log 2). -/
def State.setTurns (s : State) (ts : Schedule) : State := { s with turns := ts }

/-- MS <- MS + 1 (10_state R27 (b)). -/
def State.nextMicro (s : State) : State := { s with ms := s.ms + 1 }

/-- RAW <- v (10_state R21). -/
def State.setRaw (s : State) (v : Code) : State := { s with raw := some v }

/-- ADC_STATE <- BUSY; ADC_RES <- ⊥ (41_sampler R112). -/
def State.adcToBusy (s : State) : State := { s with adcState := .busy, adcRes := none }

/-- ADC_RES <- v; ADC_STATE <- DONE (41_sampler R110). -/
def State.adcToDone (s : State) (v : Code) : State := { s with adcState := .done, adcRes := some v }

/-- LineWrite(l, v) (40_port R90): the receiver reacts first, then the line takes the level, then the event.
Total on undriven lines, which no reachable state writes (DESIGN CHOICE, log 15). -/
def writeLine (l : Line) (v : Bool) (s : State) : State :=
  ((receiverReact l (s.lvl l) (levelOfBool v) s).setLvl l (levelOfBool v)).record (.line l v)

/-- LineWrite as a micro-step (40_port R90). -/
def lineWrite (l : Line) (v : Bool) : MicroStep := fun s => .moved (writeLine l v s)

/-- Delay(t) as a micro-step (40_port R91): an event, and a lower bound on time. -/
def delayFor (t : Nat) : MicroStep := fun s => .moved (s.record (.delay t))

/-- AdcStart() (41_sampler R112). -/
def adcStart : MicroStep := fun s =>
  .moved (s.adcToBusy.record .adcStart)

/-- AwaitAdc() (41_sampler R114): enabled only in DONE, a hold otherwise. -/
def awaitAdc : MicroStep := fun s => if s.adcState = .done then .moved s else .held

/-- AdcTake() (41_sampler R113): RAW takes the result, which stays readable. -/
def adcTake : MicroStep := fun s =>
  match s.adcRes with
  | some v => .moved ((s.setRaw v).record (.adcRead v))
  | none => .stopped .unwrittenRead

/-- The response word is computed and kept for the completion micro-step (R94, R116, R117, R132; log 5). -/
def State.respondLater (s : State) (w : Word) : State := { s with pending := some w }

/-! ### The schedule (70_reset R230, log 2) -/

/-- The pass that comes next of the endless rest. -/
def Beyond.pass : Beyond → List Turn
  | .cycle p => p
  | .free n => Config.environment n

/-- The endless rest after that pass. -/
def Beyond.later : Beyond → Beyond
  | .cycle p => .cycle p
  | .free n => .free (n + 1)

/-- The next move, and the schedule after it. A pass ends with a turn of the controller. -/
def Schedule.next (ts : Schedule) : Turn × Schedule :=
  match ts.listed with
  | t :: rest => (t, { ts with listed := rest })
  | [] =>
    match ts.beyond.pass with
    | t :: rest => (t, { listed := rest ++ [.controller], beyond := ts.beyond.later })
    | [] => (.controller, { listed := [], beyond := ts.beyond.later })

/-! ### The other agents -/

/-- The converter's completion step (41_sampler R110), enabled only in BUSY; a turn given to it in another state has no
effect (log 2). -/
def converterStep (v : Code) (s : State) : State :=
  match s.adcState with
  | .busy => (s.adcToDone v).record (.adcDone v)
  | .off => s
  | .idle => s
  | .done => s

/-- What every reset leaves (10_state R36, 70_reset R231), HISTORY and RESPONSES apart. PROG and the rest of the schedule
are the environment's and stay. -/
def clearForReset (s : State) : State :=
  { State.reset with history := s.history, responses := s.responses, prog := s.prog, turns := s.turns }

/-- A reset (10_state R36): power-on empties the record, the reset input adds its event and keeps RESPONSES.
Either kind may come in the middle of a run (DEDUCED, log 18). -/
def resetStep (kind : ResetKind) (s : State) : State :=
  match kind with
  | .powerOn => { clearForReset s with history := [], responses := [] }
  | .input => (clearForReset s).record (.reset .input)

/-! ### Faults -/

/-- raise F(cw) (60_exceptions R200): the whole effect of a fault. CPC still indexes the faulting word. -/
def raise (f : FaultName) (cw : Word) (s : State) : State :=
  { s with faultCode := faultCodeOf f, faultCw := cw, cur := none, ms := 0, pending := none }.record
    (.fault (faultCodeOf f) cw)

/-- Check(cmd, state) (60_exceptions R203): the first condition that holds, in that order. A term that is no
command, which decoding never gives, counts as ILLEGAL with the word it encodes to (DEDUCED, log 12). -/
def check (i : Instr) (s : State) : Option FaultName :=
  if !i.wf then some .illegalCommand
  else if needsInit i && !s.inited then some .notInitialised
  else if i == .init && s.inited then some .reinitialise
  else if startsConversion i && s.adcState == .busy then some .adcBusy
  else if i == .adread && s.adcState != .done then some .adcNotReady
  else if i == .map && s.raw.isNone then some .unwritten
  else if i == .shiftout && s.pattern.isNone then some .unwritten
  else none

/-! ### The sequencer (10_state R27) -/

/-- The other agents make the moves of `moves` until the controller's turn comes, or a reset does; `atEnd` says what
follows when neither is among them. `beyond` is what the schedule goes on with. -/
def awaitListed (beyond : Beyond) (atEnd : State → Ready) : List Turn → State → Ready
  | [], s => atEnd s
  | .controller :: rest, s => .go (s.setTurns { listed := rest, beyond := beyond })
  | .converter v :: rest, s => awaitListed beyond atEnd rest (converterStep v s)
  | .reset kind :: rest, s => .aborted (resetStep kind (s.setTurns { listed := rest, beyond := beyond }))

/-- The other agents move until the controller's turn comes, or a reset does (20_memory R62, R204): through the moves
listed, and then through the next pass, which ends with the controller's turn. -/
def awaitTurn (ts : Schedule) (s : State) : Ready :=
  awaitListed ts.beyond
    (awaitListed ts.beyond.later (fun u => .go (u.setTurns { listed := [], beyond := ts.beyond.later }))
      (ts.beyond.pass ++ [.controller]))
    ts.listed s

/-- CUR <- cmd; MS <- 0 (R27 (a)), once the check has passed. -/
def begin (i : Instr) (s : State) : State := { s with cur := some i, ms := 0, pending := none }

/-- Respond(w), if the command responds (R27 (c), R34). -/
def respond (i : Instr) (s : State) : State :=
  match responds i, s.pending with
  | true, some w => { s with responses := s.responses ++ [(s.cpc, w)] }
  | _, _ => s

/-- The completion micro-step (R27 (c)). -/
def finish (i : Instr) (s : State) : State :=
  { respond i s with cpc := s.cpc + 1, cur := none, ms := 0, pending := none }

/-- Running micro-steps: all of them done, or the command's step over early (a hold, a reset, a stop). -/
inductive Ran where
  | done (s : State)
  | over (o : Host.Outcome State Fault Refusal)

/-- The body micro-steps in order (R27 (b)), the other agents moving between them. A hold ends the model's step; the
command stays in progress (log 3, log 4). -/
def runMicros : List MicroStep → State → Ran
  | [], s => .done s
  | m :: rest, s =>
    match awaitTurn s.turns s with
    | .aborted t => .over (.next t)
    | .go t =>
      match m t with
      | .moved u => runMicros rest u.nextMicro
      | .held => .over (.next t)
      | .stopped r => .over (.fault r)

/-- What follows the body, when all of it was run. -/
def afterBody (done : State → Host.Outcome State Fault Refusal) : Ran → Host.Outcome State Fault Refusal
  | .done s => done s
  | .over o => o

/-- The completion of a command, at the controller's turn (R27 (c)). -/
def complete (i : Instr) (s : State) : Host.Outcome State Fault Refusal :=
  match awaitTurn s.turns s with
  | .aborted t => .next t
  | .go t => .next (finish i t)

/-- No controller micro-step is enabled: one move of the environment (R185, R200; log 4). -/
def idle (s : State) : State :=
  match s.turns.next with
  | (.controller, rest) => s.setTurns rest
  | (.converter v, rest) => converterStep v (s.setTurns rest)
  | (.reset kind, rest) => resetStep kind (s.setTurns rest)

/-- One command, from its fetch and check or from where it holds, as far as it goes (R27, R200). `rest ms` is what is
left of the body at micro-step `ms`, `done` what follows the body. -/
def runCommand (i : Instr) (rest : Nat → List MicroStep) (done : State → Host.Outcome State Fault Refusal)
    (s : State) : Host.Outcome State Fault Refusal :=
  if s.faulted then .next (idle s)
  else
    match s.cur with
    | none =>
      match awaitTurn s.turns s with
      | .aborted t => .next t
      | .go t =>
        match check i t with
        | some f => .next (raise f (encode i) t)
        | none => afterBody done (runMicros (rest 0) (begin i t))
    | some j =>
      if j = i then afterBody done (runMicros (rest s.ms) s) else .fault .commandInProgress

/-- A command with a finite body, run to its completion (R27). -/
def runBody (i : Instr) (body : List MicroStep) (s : State) : Host.Outcome State Fault Refusal :=
  runCommand i (fun ms => body.drop ms) (complete i) s

/-- A command whose body repeats for ever (44_loop R181): one pass over it, and no completion. MS counts on, so the place
in the body is MS mod its length (DEDUCED, log 7). -/
def runForever (i : Instr) (body : List MicroStep) (s : State) : Host.Outcome State Fault Refusal :=
  runCommand i (fun ms => body.drop (ms % body.length)) .next s

/-! ### Fetching -/

/-- The word the fetch micro-step reads, when it is enabled: no fault, and CPC < len(PROG) (R27 (a)). -/
def fetchWord (s : State) : Option Word := if s.faulted then none else s.prog[s.cpc]?

/-- An illegal word at its fetch (30_encoding R74, 60_exceptions R203): IllegalCommand. -/
def fetchIllegal (cw : Word) (s : State) : State :=
  match awaitTurn s.turns s with
  | .aborted t => t
  | .go t => raise .illegalCommand cw t

/-- PROG with `w` at index `n`, padded with the illegal word 0x0000 where it was shorter. -/
def placeWord (prog : List Word) (n : Nat) (w : Word) : List Word :=
  if n < prog.length then prog.set n w else prog ++ List.replicate (n - prog.length) 0x0000#16 ++ [w]

/-- The state with `w` where the next step fetches, and that step the controller's fetch: the command pointer's slot of
PROG holds `w`, no fault, no command in progress, no other agent's move before it (log 11). -/
def placeAtFetch (w : Word) (s : State) : State :=
  { s with
    prog := placeWord s.prog s.cpc w, turns := .silent, cur := none, ms := 0, pending := none, faultCode := 0#3 }

end Sys2Proof.Machine
end

