-- ==== Sys2Proof/Machine/Driver.lean ====
section
/-! DEFINITION. LDPAT and SHIFTOUT (43_output_driver R157, R158). -/

namespace Sys2Proof.Machine

/-- PATTERN <- b (10_state R23). -/
def State.setPattern (s : State) (b : Byte) : State := { s with pattern := some b }

/-- PATTERN <- imm8 (R157). -/
def loadPattern (imm8 : Byte) : MicroStep := fun s => .moved (s.setPattern imm8)

/-- LineWrite(SER, b[i]) (R158). The copy b of PATTERN is PATTERN itself, which no micro-step of SHIFTOUT writes
(DEDUCED, log 6). -/
def writeBit (i : Nat) : MicroStep := fun s =>
  match s.pattern with
  | some b => lineWrite .ser (b.getLsbD i) s
  | none => .stopped .unwrittenRead

/-- The five micro-steps of bit `i` (R158): MS 5i to 5i + 4. -/
def bitSteps (i : Nat) : List MicroStep :=
  [writeBit i, lineWrite .srclk true, delayFor Config.tClkHigh, lineWrite .srclk false, delayFor Config.tClkLow]

/-- The latch pulse (R158): MS 40 to 42. -/
def latchSteps : List MicroStep := [lineWrite .rclk true, delayFor Config.tLatchHigh, lineWrite .rclk false]

/-- LDPAT's body (R157). -/
def ldpatBody (imm8 : Byte) : List MicroStep := [loadPattern imm8]

/-- SHIFTOUT's 43 body micro-steps (R158), bit 0 first. -/
def shiftoutBody : List MicroStep := [0, 1, 2, 3, 4, 5, 6, 7].flatMap bitSteps ++ latchSteps

/-- The five events of one bit (R159). -/
def bitEvents (v : Bool) : List Event :=
  [.line .ser v, .line .srclk true, .delay Config.tClkHigh, .line .srclk false, .delay Config.tClkLow]

/-- The three events of the latch pulse (R159). -/
def latchEvents : List Event := [.line .rclk true, .delay Config.tLatchHigh, .line .rclk false]

/-- SHIFTOUT's HISTORY contribution for the pattern `b` (R159): what the body above is meant to record. -/
def shiftoutEvents (b : Byte) : List Event :=
  [0, 1, 2, 3, 4, 5, 6, 7].flatMap (fun i => bitEvents (b.getLsbD i)) ++ latchEvents

/-- LDPAT imm8 (R157). -/
def execLdpat (imm8 : Byte) (s : State) : Host.Outcome State Fault Refusal :=
  runBody (.ldpat imm8) (ldpatBody imm8) s

/-- SHIFTOUT (R158). -/
def execShiftout (s : State) : Host.Outcome State Fault Refusal := runBody .shiftout shiftoutBody s

end Sys2Proof.Machine
end

