-- ==== Sys2Proof/Machine/Mapper.lean ====
section
/-! DEFINITION. The division-by-127 quantizer, LDRAW and MAP (42_mapper R130 to R132). -/

namespace Sys2Proof.Machine

/-- `raw div 127`, unsigned and rounding down (R130, R134 (a)). -/
def quantPower (raw : Code) : Nat := raw.toNat / Config.divisor

/-- `(2^p - 1) mod 256`, then bit 0 forced on when it is not zero (R130). -/
def quantPattern (p : Nat) : Byte :=
  let pat := BitVec.ofNat 8 ((2 ^ p - 1) % 256)
  if pat ≠ 0#8 then pat ||| 0x01#8 else pat

/-- Quant(raw) (R130): the power and the pattern. -/
def quant (raw : Code) : BitVec 4 × Byte :=
  (BitVec.ofNat 4 (quantPower raw), quantPattern (quantPower raw))

/-- POWER <- p; PATTERN <- pat, for (p, pat) = Quant(v) (R132). -/
def State.setMapped (s : State) (v : Code) : State :=
  { s with power := some (quant v).1, pattern := some (quant v).2 }

/-- (p, pat) <- Quant(RAW); POWER <- p; PATTERN <- pat (R132, R180). -/
def mapRaw : MicroStep := fun s =>
  match s.raw with
  | some v => .moved (s.setMapped v)
  | none => .stopped .unwrittenRead

/-- The same, with the response of MAP kept for completion (R132). -/
def mapAndRespond : MicroStep := fun s =>
  match s.raw with
  | some v => .moved ((s.setMapped v).respondLater (mapWord (quant v).1 (quant v).2))
  | none => .stopped .unwrittenRead

/-- RAW <- imm10 (R131). -/
def loadRaw (imm10 : Code) : MicroStep := fun s => .moved (s.setRaw imm10)

/-- LDRAW's body (R131). -/
def ldrawBody (imm10 : Code) : List MicroStep := [loadRaw imm10]

/-- MAP's body (R132). -/
def mapBody : List MicroStep := [mapAndRespond]

/-- LDRAW imm10 (R131). -/
def execLdraw (imm10 : Code) (s : State) : Host.Outcome State Fault Refusal :=
  runBody (.ldraw imm10) (ldrawBody imm10) s

/-- MAP (R132). -/
def execMap (s : State) : Host.Outcome State Fault Refusal := runBody .map mapBody s

end Sys2Proof.Machine
end

