-- ==== Sys2Proof/Machine/Sampler.lean ====
section
/-! DEFINITION. ADSTART, ADPOLL, ADREAD and SAMPLE (41_sampler R115 to R118). -/

namespace Sys2Proof.Machine

/-- ADPOLL's read of the conversion-ready condition (R116): the condition as it is at this micro-step. -/
def pollReady : MicroStep := fun s => .moved (s.respondLater (boolWord s.conversionReady))

/-- v <- AdcTake(), kept as the response (R117, R118). -/
def takeAndRespond : MicroStep := fun s =>
  match adcTake s with
  | .moved t =>
    match t.raw with
    | some v => .moved (t.respondLater (codeWord v))
    | none => .stopped .unwrittenRead
  | .held => .held
  | .stopped r => .stopped r

/-- ADSTART's body (R115). -/
def adstartBody : List MicroStep := [adcStart]

/-- ADPOLL's body (R116). -/
def adpollBody : List MicroStep := [pollReady]

/-- ADREAD's body (R117). -/
def adreadBody : List MicroStep := [takeAndRespond]

/-- SAMPLE's body (R118): start, wait, read. -/
def sampleBody : List MicroStep := [adcStart, awaitAdc, takeAndRespond]

/-- ADSTART (R115). -/
def execAdstart (s : State) : Host.Outcome State Fault Refusal := runBody .adstart adstartBody s

/-- ADPOLL (R116). -/
def execAdpoll (s : State) : Host.Outcome State Fault Refusal := runBody .adpoll adpollBody s

/-- ADREAD (R117). -/
def execAdread (s : State) : Host.Outcome State Fault Refusal := runBody .adread adreadBody s

/-- SAMPLE (R118). -/
def execSample (s : State) : Host.Outcome State Fault Refusal := runBody .sample sampleBody s

end Sys2Proof.Machine
end

