-- ==== Sys2Proof/Machine/Loop.lean ====
section
/-! DEFINITION. STEP and RUN (44_loop R180, R181). -/

namespace Sys2Proof.Machine

/-- The 47 body micro-steps of one loop iteration (R180): sample, map, shift out. -/
def stepBody : List MicroStep := [adcStart, awaitAdc, adcTake, mapRaw] ++ shiftoutBody

/-- STEP (R180). -/
def execStep (s : State) : Host.Outcome State Fault Refusal := runBody .step stepBody s

/-- RUN (R181): STEP's body for ever. One call runs one iteration, or the rest of the one in progress; RUN stays in
progress and CPC stays at its index. -/
def execRun (s : State) : Host.Outcome State Fault Refusal := runForever .run stepBody s

end Sys2Proof.Machine
end

