-- ==== Sys2Proof/Machine/Port.lean ====
section
/-! DEFINITION. INIT, SETL, GETL and DELAY (40_port R92 to R95). -/

namespace Sys2Proof.Machine

/-- The fields INIT writes (R92). The lines go from Z to 0 with no edge (R96). -/
def State.configured (s : State) : State :=
  { s with
    dirSer := .output, dirSrclk := .output, dirRclk := .output,
    lvlSer := .low, lvlSrclk := .low, lvlRclk := .low,
    adcCh := some .channel0, adcRef := some .supply, adcMode := some .singleEnded, adcPresc := some .div64,
    adcEn := true, adcState := .idle, adcRes := none,
    inited := true }

/-- INIT's one indivisible micro-step (R92). -/
def initialise : MicroStep := fun s => .moved (s.configured.record .init)

/-- GETL's read of a line: w <- zext_16(LVL_line) (R94). -/
def readLine (l : Line) : MicroStep := fun s =>
  match boolOfLevel (s.lvl l) with
  | some b => .moved (s.respondLater (boolWord b))
  | none => .stopped .undrivenRead

/-- INIT's body (R92). -/
def initBody : List MicroStep := [initialise]

/-- SETL's body (R93). The reserved id never gets past the check (R74 (c)). -/
def setlBody (line : BitVec 2) (v : Bool) : List MicroStep :=
  match lineOfId line with
  | some l => [lineWrite l v]
  | none => []

/-- GETL's body (R94). The reserved id never gets past the check (R74 (c)). -/
def getlBody (line : BitVec 2) : List MicroStep :=
  match lineOfId line with
  | some l => [readLine l]
  | none => []

/-- DELAY's body (R95). -/
def delayBody (t : BitVec 12) : List MicroStep := [delayFor (delayTime t)]

/-- INIT (R92). -/
def execInit (s : State) : Host.Outcome State Fault Refusal := runBody .init initBody s

/-- SETL line, v (R93). -/
def execSetl (line : BitVec 2) (v : Bool) (s : State) : Host.Outcome State Fault Refusal :=
  runBody (.setl line v) (setlBody line v) s

/-- GETL line (R94). -/
def execGetl (line : BitVec 2) (s : State) : Host.Outcome State Fault Refusal :=
  runBody (.getl line) (getlBody line) s

/-- DELAY t (R95). -/
def execDelay (t : BitVec 12) (s : State) : Host.Outcome State Fault Refusal :=
  runBody (.delay t) (delayBody t) s

end Sys2Proof.Machine
end

