-- ==== Sys2Proof/Machine/Dispatch.lean ====
section
/-! DEFINITION. The meaning of each command, one arm per constructor of Instr. -/

namespace Sys2Proof.Machine

def exec (i : Instr) (s : State) : Host.Outcome State Fault Refusal :=
  match i with
  | .init => Sys2Proof.Machine.execInit s
  | .setl line v => Sys2Proof.Machine.execSetl line v s
  | .getl line => Sys2Proof.Machine.execGetl line s
  | .delay t => Sys2Proof.Machine.execDelay t s
  | .adstart => Sys2Proof.Machine.execAdstart s
  | .adpoll => Sys2Proof.Machine.execAdpoll s
  | .adread => Sys2Proof.Machine.execAdread s
  | .sample => Sys2Proof.Machine.execSample s
  | .ldraw imm10 => Sys2Proof.Machine.execLdraw imm10 s
  | .map => Sys2Proof.Machine.execMap s
  | .ldpat imm8 => Sys2Proof.Machine.execLdpat imm8 s
  | .shiftout => Sys2Proof.Machine.execShiftout s
  | .step => Sys2Proof.Machine.execStep s
  | .run => Sys2Proof.Machine.execRun s

end Sys2Proof.Machine
end

