-- ==== Sys2Proof/Machine/Step.lean ====
section
/-! DEFINITION. One step of the machine (00_scope R8, 10_state R27). -/

namespace Sys2Proof.Machine

/-- One step: the command in progress goes on; or the word at CPC is fetched, decoded and run as far as it goes; or, with
no controller micro-step enabled, the environment makes one move (log 3, log 4). -/
def step (s : State) : Host.Outcome State Fault Refusal :=
  match s.cur with
  | some i => exec i s
  | none =>
    match fetchWord s with
    | none => .next (idle s)
    | some cw =>
      match decode cw with
      | .cmd i => exec i s
      | .illegal _ => .next (fetchIllegal cw s)

/-- `s` with an opcode-table row's bits where step fetches next (log 11). -/
def State.withFetchWord (s : State) (nbits w : Nat) : State := placeAtFetch (tableWord nbits w) s

end Sys2Proof.Machine
end

