-- ==== Sys2Proof/Machine/Assembler.lean ====
section
/-! DEFINITION. The pseudo-instructions and the assembler of 30_encoding R76 and R77. A line of text is a list of
characters. -/

namespace Sys2Proof.Machine

/-! ### Pseudo-instructions (R77) -/

/-- NOP (R77). -/
def pseudoNop : List Instr := [.delay 0#12]

/-- PULSE line, t (R77). -/
def pseudoPulse (l : Line) (t : BitVec 12) : List Instr :=
  [.setl (lineId l) true, .delay t, .setl (lineId l) false]

/-- SHIFTBIT b (R77). -/
def pseudoShiftbit (b : Bool) : List Instr :=
  [.setl (lineId .ser) b, .setl (lineId .srclk) true, .delay 10#12, .setl (lineId .srclk) false, .delay 2#12]

/-- LATCHPULSE (R77). -/
def pseudoLatchpulse : List Instr := [.setl (lineId .rclk) true, .delay 50#12, .setl (lineId .rclk) false]

/-- SHIFTOUTI imm8 (R77): 43 words. -/
def pseudoShiftouti (imm8 : Byte) : List Instr :=
  [0, 1, 2, 3, 4, 5, 6, 7].flatMap (fun i => pseudoShiftbit (imm8.getLsbD i)) ++ pseudoLatchpulse

/-! ### Text -/

/-- Why the assembler refuses a line (R76). -/
inductive AsmError where
  /-- No mnemonic of R76 or R77. -/
  | unknownMnemonic
  /-- A wrong number of operands, or text that is no operand of that kind. -/
  | badOperand
  /-- An operand that does not fit its field; it is not truncated (R76). -/
  | doesNotFit
  deriving DecidableEq, Repr

/-- What the assembler makes of a line: commands, or a refusal. -/
inductive Assembled where
  | code (is : List Instr)
  | refused (e : AsmError)
  deriving DecidableEq, Repr

/-- The mnemonics of R76 and R77. -/
inductive Mnemonic where
  | init | setl | getl | delay | adstart | adpoll | adread | sample | ldraw | map | ldpat | shiftout | step | run
  | nop | pulse | shiftbit | latchpulse | shiftouti
  deriving DecidableEq, Repr

/-- The spellings of R76 and R77, in upper case. -/
def mnemonicTable : List (List Char × Mnemonic) :=
  [(['I', 'N', 'I', 'T'], .init),
   (['S', 'E', 'T', 'L'], .setl),
   (['G', 'E', 'T', 'L'], .getl),
   (['D', 'E', 'L', 'A', 'Y'], .delay),
   (['A', 'D', 'S', 'T', 'A', 'R', 'T'], .adstart),
   (['A', 'D', 'P', 'O', 'L', 'L'], .adpoll),
   (['A', 'D', 'R', 'E', 'A', 'D'], .adread),
   (['S', 'A', 'M', 'P', 'L', 'E'], .sample),
   (['L', 'D', 'R', 'A', 'W'], .ldraw),
   (['M', 'A', 'P'], .map)] ++
  [(['L', 'D', 'P', 'A', 'T'], .ldpat),
   (['S', 'H', 'I', 'F', 'T', 'O', 'U', 'T'], .shiftout),
   (['S', 'T', 'E', 'P'], .step),
   (['R', 'U', 'N'], .run),
   (['N', 'O', 'P'], .nop),
   (['P', 'U', 'L', 'S', 'E'], .pulse),
   (['S', 'H', 'I', 'F', 'T', 'B', 'I', 'T'], .shiftbit),
   (['L', 'A', 'T', 'C', 'H', 'P', 'U', 'L', 'S', 'E'], .latchpulse),
   (['S', 'H', 'I', 'F', 'T', 'O', 'U', 'T', 'I'], .shiftouti)]

/-- Space and tab separate (DESIGN CHOICE, log 14). -/
def isBlank (c : Char) : Bool := c == ' ' || c == '\t'

/-- The text without blanks at its ends. -/
def trim (cs : List Char) : List Char := (((cs.dropWhile isBlank).reverse).dropWhile isBlank).reverse

/-- The text cut at every comma (R76). -/
def splitCommas : List Char → List (List Char)
  | [] => [[]]
  | c :: cs =>
    if c == ',' then [] :: splitCommas cs
    else
      match splitCommas cs with
      | [] => [[c]]
      | p :: ps => (c :: p) :: ps

/-- A decimal digit's value. -/
def decDigit (c : Char) : Option Nat :=
  if '0'.toNat ≤ c.toNat ∧ c.toNat ≤ '9'.toNat then some (c.toNat - '0'.toNat) else none

/-- A hexadecimal digit's value, in either case (DESIGN CHOICE, log 14). -/
def hexDigit (c : Char) : Option Nat :=
  if 'a'.toNat ≤ c.toNat ∧ c.toNat ≤ 'f'.toNat then some (c.toNat - 'a'.toNat + 10)
  else if 'A'.toNat ≤ c.toNat ∧ c.toNat ≤ 'F'.toNat then some (c.toNat - 'A'.toNat + 10)
  else decDigit c

/-- Digits read in a base, the most significant first. -/
def readDigits (base : Nat) (digit : Char → Option Nat) : Nat → List Char → Option Nat
  | acc, [] => some acc
  | acc, c :: cs =>
    match digit c with
    | some d => readDigits base digit (acc * base + d) cs
    | none => none

/-- A number: decimal, or hexadecimal with a 0x prefix (R76). -/
def readNumber (cs : List Char) : Option Nat :=
  match cs with
  | [] => none
  | ['0', 'x'] => none
  | '0' :: 'x' :: hex => readDigits 16 hexDigit 0 hex
  | dec => readDigits 10 decDigit 0 dec

/-- A line operand: SER, SRCLK or RCLK, or 0, 1 or 2 (R76). -/
def readLineName (cs : List Char) : Option Line :=
  if cs = ['S', 'E', 'R'] ∨ cs = ['0'] then some .ser
  else if cs = ['S', 'R', 'C', 'L', 'K'] ∨ cs = ['1'] then some .srclk
  else if cs = ['R', 'C', 'L', 'K'] ∨ cs = ['2'] then some .rclk
  else none

/-- Commands from a line operand. -/
def withLine (cs : List Char) (k : Line → Assembled) : Assembled :=
  match readLineName cs with
  | some l => k l
  | none => .refused .badOperand

/-- Commands from a number below `bound`; a larger one does not fit its field (R76). -/
def withNumber (bound : Nat) (cs : List Char) (k : Nat → Assembled) : Assembled :=
  match readNumber cs with
  | some n => if n < bound then k n else .refused .doesNotFit
  | none => .refused .badOperand

/-- Commands from a level: 0 or 1 (R76). Any spelling of those two numbers is read, so `01`, `0x0` and `0x1` too, which
R76 leaves open (DESIGN CHOICE, log 14). -/
def withLevel (cs : List Char) (k : Bool → Assembled) : Assembled :=
  withNumber 2 cs fun n => k (n == 1)

/-- The commands of a mnemonic and its operands (R76, R77). Of several refusals, the first one from left to right is reported
(DESIGN CHOICE, log 14). -/
def assembleOperands (m : Mnemonic) (ops : List (List Char)) : Assembled :=
  match m, ops with
  | .init, [] => .code [.init]
  | .setl, [l, v] => withLine l fun l => withLevel v fun v => .code [.setl (lineId l) v]
  | .getl, [l] => withLine l fun l => .code [.getl (lineId l)]
  | .delay, [t] => withNumber 4096 t fun t => .code [.delay (BitVec.ofNat 12 t)]
  | .adstart, [] => .code [.adstart]
  | .adpoll, [] => .code [.adpoll]
  | .adread, [] => .code [.adread]
  | .sample, [] => .code [.sample]
  | .ldraw, [n] => withNumber 1024 n fun n => .code [.ldraw (BitVec.ofNat 10 n)]
  | .map, [] => .code [.map]
  | .ldpat, [n] => withNumber 256 n fun n => .code [.ldpat (BitVec.ofNat 8 n)]
  | .shiftout, [] => .code [.shiftout]
  | .step, [] => .code [.step]
  | .run, [] => .code [.run]
  | .nop, [] => .code pseudoNop
  | .pulse, [l, t] => withLine l fun l => withNumber 4096 t fun t => .code (pseudoPulse l (BitVec.ofNat 12 t))
  | .shiftbit, [b] => withLevel b fun b => .code (pseudoShiftbit b)
  | .latchpulse, [] => .code pseudoLatchpulse
  | .shiftouti, [n] => withNumber 256 n fun n => .code (pseudoShiftouti (BitVec.ofNat 8 n))
  | _, _ => .refused .badOperand

/-- The mnemonic a word spells. -/
def readMnemonic (cs : List Char) : Option Mnemonic := (mnemonicTable.find? (·.1 == cs)).map (·.2)

/-- The operands after the mnemonic: none, or separated by commas (R76). -/
def readOperands (cs : List Char) : List (List Char) :=
  match trim cs with
  | [] => []
  | text => (splitCommas text).map trim

/-- One line (R76): a comment starts with ';', and a line that holds nothing else is no command. -/
def assembleLine (text : List Char) : Assembled :=
  match trim (text.takeWhile (· != ';')) with
  | [] => .code []
  | body =>
    match readMnemonic (body.takeWhile (!isBlank ·)) with
    | none => .refused .unknownMnemonic
    | some m => assembleOperands m (readOperands (body.dropWhile (!isBlank ·)))

/-- A text, one command per line (R76): the commands of all its lines, or the first refusal. R76 has an operand refused and
does not say what becomes of the rest of the text; that the whole text is refused, and that only the first refusal is reported,
is the model's (DESIGN CHOICE, log 14). -/
def assemble : List (List Char) → Assembled
  | [] => .code []
  | line :: rest =>
    match assembleLine line with
    | .refused e => .refused e
    | .code is =>
      match assemble rest with
      | .refused e => .refused e
      | .code js => .code (is ++ js)

end Sys2Proof.Machine
end

