-- ==== Sys2Proof/Machine/MicroStep.lean ====
section
/-! DEFINITION. The machine at the grain of 10_state R27 and 00_scope R8: one micro-step of one agent at a time. Every
state an observer may see (70_reset R230), those inside a command included, is one `tick` passes through; `step` is a
run of ticks. -/

namespace Sys2Proof.Machine

/-- The body of each command, as its meaning runs it. -/
def bodyOf : Instr → List MicroStep
  | .init => initBody
  | .setl line v => setlBody line v
  | .getl line => getlBody line
  | .delay t => delayBody t
  | .adstart => adstartBody
  | .adpoll => adpollBody
  | .adread => adreadBody
  | .sample => sampleBody
  | .ldraw imm10 => ldrawBody imm10
  | .map => mapBody
  | .ldpat imm8 => ldpatBody imm8
  | .shiftout => shiftoutBody
  | .step => stepBody
  | .run => stepBody

/-- The body micro-step of a command at index `ms`, none when only completion is left (R27). RUN's body repeats
(R181). -/
def microAt (i : Instr) (ms : Nat) : Option MicroStep :=
  if i = .run then stepBody[ms % stepBody.length]? else (bodyOf i)[ms]?

/-- The fetch micro-step (R27 (a)). -/
def fetchMicro (s : State) : State :=
  match fetchWord s with
  | none => s
  | some cw =>
    match decode cw with
    | .illegal _ => raise .illegalCommand cw s
    | .cmd i =>
      match check i s with
      | some f => raise f (encode i) s
      | none => begin i s

/-- A micro-step of the command in progress: the next of its body, or its completion (R27 (b), (c)). -/
def commandMicro (i : Instr) (s : State) : Host.Outcome State Fault Refusal :=
  match microAt i s.ms with
  | none => .next (finish i s)
  | some m =>
    match m s with
    | .moved t => .next t.nextMicro
    | .held => .next s
    | .stopped r => .fault r

/-- The controller's micro-step, or nothing where none is enabled (R27, R200). -/
def controllerMicro (s : State) : Host.Outcome State Fault Refusal :=
  if s.faulted then .next s
  else
    match s.cur with
    | none => .next (fetchMicro s)
    | some i => commandMicro i s

/-- One micro-step of the agent whose turn it is (00_scope R8). -/
def tick (s : State) : Host.Outcome State Fault Refusal :=
  match s.turns.next with
  | (.controller, rest) => controllerMicro (s.setTurns rest)
  | (.converter v, rest) => .next (converterStep v (s.setTurns rest))
  | (.reset kind, rest) => .next (resetStep kind (s.setTurns rest))

/-- `n` ticks, stopping at the first stop. -/
def ticks : Nat → State → Host.Outcome State Fault Refusal
  | 0, s => .next s
  | n + 1, s =>
    match tick s with
    | .next t => ticks n t
    | .fault r => .fault r
    | .refused r => .refused r

end Sys2Proof.Machine
end

