-- ==== Sys2Proof/Safety.lean ====
section
/-! DEFINITION. The terms statements are made in: schedules, entry conditions, the invariant of the machine, and what the
spec says of runs. -/

namespace Sys2Proof.Machine

/-! ### Schedules -/

/-- The schedule `rest` with the moves `ts` before it. -/
def Schedule.after (rest : Schedule) (ts : List Turn) : Schedule := { rest with listed := ts ++ rest.listed }

/-- The next moves of the schedule are `moves`, in that order, and `rest` is what comes after them. -/
def Schedule.begins (ts : Schedule) : List Turn → Schedule → Prop
  | [], rest => ts = rest
  | t :: moves, rest => ts.next.1 = t ∧ ts.next.2.begins moves rest

/-- The schedule after its next `n` moves. -/
def Schedule.drop (ts : Schedule) : Nat → Schedule
  | 0 => ts
  | n + 1 => ts.next.2.drop n

/-- The environment leaves the next `n` micro-steps to the controller: no completion and no reset lands before them. -/
def quiet : Nat → Schedule → Bool
  | 0, _ => true
  | n + 1, ts => ts.next.1 == .controller && quiet n ts.next.2

/-- Every move of the endless rest of a schedule is one of `p`. -/
def Beyond.all (p : Turn → Prop) : Beyond → Prop
  | .cycle pass => ∀ t ∈ pass, p t
  | .free n => ∀ m, n ≤ m → ∀ t ∈ Config.environment m, p t

/-- Every move of a schedule is one of `p`. -/
def Schedule.all (p : Turn → Prop) (ts : Schedule) : Prop := (∀ t ∈ ts.listed, p t) ∧ ts.beyond.all p

/-- The schedule asserts no reset; completions may land anywhere (20_memory R62). -/
def noReset (ts : Schedule) : Prop := ts.all fun t => ∀ k, t ≠ .reset k

/-- The schedule holds no power-on, the one move that empties HISTORY and RESPONSES (10_state R36). -/
def noPowerOn (ts : Schedule) : Prop := ts.all (· ≠ .reset .powerOn)

/-- The schedule gives the converter a turn again and again, for ever: the fairness 41_sampler R111 leaves to the
environment. -/
def keepsCompleting (ts : Schedule) : Prop :=
  match ts.beyond with
  | .cycle pass => ∃ v, .converter v ∈ pass
  | .free n => ∀ m, n ≤ m → ∃ k, m ≤ k ∧ ∃ v, .converter v ∈ Config.environment k

/-- An endless run of the machine. -/
def IsRun (run : Nat → State) : Prop := ∀ n, step (run n) = .next (run (n + 1))

/-- ADC_COMPLETES (41_sampler R111) of an infinite run: every conversion that is BUSY leaves BUSY. -/
def AdcCompletes (run : Nat → State) : Prop :=
  ∀ n, (run n).adcState = .busy → ∃ m, n ≤ m ∧ (run m).adcState ≠ .busy

/-! ### Entry conditions -/

/-- The sequencer may fetch: no fault, no command in progress (10_state R27 (a)). -/
def State.ready (s : State) : Bool := !s.faulted && s.cur.isNone

/-- The settled entry condition of SHIFTOUT and STEP (43_output_driver R160): both clocks low, and no SRCLK fall within
the last T_CLK_LOW of MinGap. -/
def State.settled (s : State) : Bool :=
  s.lvlSrclk == .low && s.lvlRclk == .low && !shorter s.timing.gF Config.tClkLow

/-- The block is configured and its lines are driven (40_port R92, 10_state R25). -/
def State.driven (s : State) : Bool :=
  s.inited && s.lvlSer != .z && s.lvlSrclk != .z && s.lvlRclk != .z

/-- What a completed command leaves of the sequencer, after `n` controller micro-steps (10_state R27 (c)). -/
def State.completed (s : State) (n : Nat) : State :=
  { s with cpc := s.cpc + 1, cur := none, ms := 0, pending := none, turns := s.turns.drop n }

/-! ### What a shift-out of a byte leaves in the receiver -/

/-- SHIFT after SHIFTOUT of `b`, entered in `s` with the lines driven (43_output_driver R156, R158, R164): bits 1 to 7 of `b`
in SHIFT[6:0], and in SHIFT[7] what became of the first pulse. With SRCLK high at entry there is no first edge, and the old
SHIFT[0] stands there, unknown where the first data write changes SER inside the high hold; else bit 0 of `b`, unknown where
the low settle was not met. -/
def shiftedOut (s : State) (b : Byte) : Tri8 :=
  { Tri8.bitrev (Tri8.ofByte b) with
    b7 :=
      if s.lvlSrclk = .high then
        if s.lvlSer ≠ levelOfBool (b.getLsbD 0) ∧ shorter s.timing.gR Config.tClkHigh then .unknown else s.shift.b0
      else if shorter s.timing.gF Config.tClkLow then .unknown else triOfBool (b.getLsbD 0) }

/-- LATCH after it: SHIFT, where RCLK was low and so rises; else the old LATCH, for there is no latch edge (R164). -/
def latchedOut (s : State) (b : Byte) : Tri8 := if s.lvlRclk = .low then shiftedOut s b else s.latch

/-! ### Edges in HISTORY -/

/-- The level HISTORY gives a line: that of its last write since the last Init, 0 right after Init (10_state R33,
40_port R92). -/
def lineLevel (l : Line) (h : List Event) : Bool :=
  h.foldl (fun level e =>
    match e with
    | .init => false
    | .line m v => if m = l then v else level
    | .delay _ => level
    | .adcStart => level
    | .adcDone _ => level
    | .adcRead _ => level
    | .fault _ _ => level
    | .reset _ => level) false

/-- The event at position `a` is a write of 1 to line `l` from level 0. -/
def riseAt (l : Line) (h : List Event) (a : Nat) : Prop :=
  h[a]? = some (.line l true) ∧ lineLevel l (h.take a) = false

/-- The event at position `a` is a write of 0 to line `l` from level 1. -/
def fallAt (l : Line) (h : List Event) (a : Nat) : Prop :=
  h[a]? = some (.line l false) ∧ lineLevel l (h.take a) = true

/-- `a` is the last position where `edge` holds, and no Init comes after it (43_output_driver R156). -/
def lastSinceInit (edge : Nat → Prop) (h : List Event) (a : Nat) : Prop :=
  edge a ∧ ∀ b, a < b → b < h.length → ¬ edge b ∧ h[b]? ≠ some .init

/-! ### Aborts -/

/-- What a reset of kind `k` leaves of the state `s` in which its command ran (10_state R36, 70_reset R231): every field at
its reset value and no response of that command. `rest` is the schedule after the reset. -/
def abortedBy (k : ResetKind) (s t : State) (rest : Schedule) : Prop :=
  t = { State.reset with history := t.history, responses := t.responses, prog := s.prog, turns := rest } ∧
    match k with
    | .powerOn => t.history = [] ∧ t.responses = []
    | .input => (∃ h, t.history = s.history ++ h ++ [.reset .input]) ∧ t.responses = s.responses

/-! ### The invariants -/

/-- What the micro-step of index `k` of a command needs of the state (R203's checks, and what the earlier micro-steps of
the command left). -/
def Needs : Instr → Nat → State → Prop
  | .init, k, a => k = 0 → a.inited = false
  | .setl _ _, _, a => a.inited = true
  | .getl _, _, a => a.inited = true
  | .delay _, _, _ => True
  | .adstart, k, a => a.inited = true ∧ (k = 0 → a.adcState ≠ .busy)
  | .adpoll, _, a => a.inited = true
  | .adread, _, a => a.inited = true ∧ a.adcState = .done
  | .sample, k, a => a.inited = true ∧ (k = 0 → a.adcState ≠ .busy)
      ∧ (1 ≤ k → a.adcState = .busy ∨ a.adcState = .done) ∧ (2 ≤ k → a.adcState = .done)
  | .ldraw _, _, _ => True
  | .map, _, a => a.raw.isSome = true
  | .ldpat _, _, _ => True
  | .shiftout, _, a => a.inited = true ∧ a.pattern.isSome = true
  | .step, k, a => a.inited = true ∧ (k = 0 → a.adcState ≠ .busy)
      ∧ (1 ≤ k → a.adcState = .busy ∨ a.adcState = .done) ∧ (2 ≤ k → a.adcState = .done)
      ∧ (3 ≤ k → a.raw.isSome = true) ∧ (4 ≤ k → a.pattern.isSome = true)
  | .run, k, a => a.inited = true ∧ (k = 0 → a.adcState ≠ .busy)
      ∧ (1 ≤ k → a.adcState = .busy ∨ a.adcState = .done) ∧ (2 ≤ k → a.adcState = .done)
      ∧ (3 ≤ k → a.raw.isSome = true) ∧ (4 ≤ k → a.pattern.isSome = true)

/-- The place in a command's body at micro-step index `ms`: RUN's body repeats (44_loop R181; log 7). -/
def placeOf (i : Instr) (ms : Nat) : Nat := if i = .run then ms % stepBody.length else ms

/-- The domains and relations 10_state R20 to R36 give the fields, which every micro-step keeps. -/
structure Domains (s : State) : Prop where
  /-- LVL = Z exactly when DIR = IN (R25). -/
  undriven_iff_input : ∀ l, s.lvl l = .z ↔ s.dir l = .input
  /-- DIR changes only at INIT and at reset (R25, R29). -/
  output_iff_inited : ∀ l, s.dir l = .output ↔ s.inited = true
  /-- Each control field has its one configured value once INITED = 1, and its reset value before (R29). -/
  config : s.adcEn = s.inited
    ∧ s.adcCh = (if s.inited then some .channel0 else none)
    ∧ s.adcRef = (if s.inited then some .supply else none)
    ∧ s.adcMode = (if s.inited then some .singleEnded else none)
    ∧ s.adcPresc = (if s.inited then some .div64 else none)
  /-- OFF holds from reset until INIT (R30). -/
  off_iff_uninitialised : s.adcState = .off ↔ s.inited = false
  /-- ADC_RES is unwritten except in DONE (R30). -/
  result_iff_done : s.adcRes.isSome = true ↔ s.adcState = .done
  /-- POWER is in [0, 8] (R22). -/
  power_le : ∀ p, s.power = some p → p.toNat ≤ Config.powerMax
  /-- POWER is only ever written from RAW, together with PATTERN (R22). -/
  power_written : s.power.isSome = true → s.raw.isSome = true ∧ s.pattern.isSome = true
  /-- HISTORY tells the clocks' levels (R33, 43_output_driver R156). -/
  clocks : s.inited = true →
    s.timing.srclk = (s.lvlSrclk == .high) ∧ s.timing.rclk = (s.lvlRclk == .high)
  /-- Code 7 is never raised, and FAULT_CW is 0 while no fault stands (R32, R36, 60_exceptions R201). -/
  fault_record : s.faultCode ≠ 7#3 ∧ (s.faultCode = 0#3 → s.faultCw = 0#16)
  /-- CPC never passes the end of PROG (R26); this is what PROG's being fixed and whole gives. -/
  cpc_le : s.cpc ≤ s.prog.length

/-- The invariant of `tick`: the domains, and in the middle of a command what its next micro-step needs (R27, R203). -/
structure MicroInvariant (s : State) : Prop extends Domains s where
  /-- The command in progress is the word at CPC, unfaulted, and its next micro-step has what it needs. -/
  within : ∀ i, s.cur = some i → s.faultCode = 0#3
    ∧ (∃ cw, s.prog[s.cpc]? = some cw ∧ decode cw = .cmd i) ∧ Needs i (placeOf i s.ms) s

/-- A command that stands in progress between two steps: SAMPLE or STEP at its hold, RUN at its hold or between two
iterations (41_sampler R114, 44_loop R181). -/
def inProgress (i : Instr) (s : State) : Prop :=
  ((i = .sample ∨ i = .step) ∧ s.ms = 1 ∧ s.adcState = .busy) ∨
  (i = .run ∧ s.ms % stepBody.length = 1 ∧ s.adcState = .busy) ∨
  (i = .run ∧ s.ms % stepBody.length = 0 ∧ s.adcState = .done)

/-- The invariant of `step`: the domains, and how the sequencer may stand between two steps. -/
structure Invariant (s : State) : Prop extends Domains s where
  /-- With no command in progress the micro-step index is 0 and no response is waiting (R27, R36). -/
  between : s.cur = none → s.ms = 0 ∧ s.pending = none
  /-- What stands in progress between two steps is the word at CPC, initialised and unfaulted (R26, R27). -/
  running : ∀ i, s.cur = some i → s.faultCode = 0#3 ∧ s.inited = true ∧ s.pending = none
    ∧ (∃ cw, s.prog[s.cpc]? = some cw ∧ decode cw = .cmd i) ∧ inProgress i s

end Sys2Proof.Machine
end

