-- ==== Sys2Proof/Certificates/Slice0/Obligations.lean ====
section
/-! DEFINITION. The statements for the provers. Each docstring names the rules of spec/ it comes from. -/

open Sys2Proof
open Sys2Proof.Machine

/-! ### Encoding -/

/-- 30_encoding R73 and R75, on words of 95_test_vectors L2.1: each decodes as the table there says. -/
def Obligations.DecodeReadsTheSpecsWords : Prop :=
  decode 0x0000#16 = .illegal .reservedOpcode ∧ decode 0x1000#16 = .cmd .init
    ∧ decode 0x1001#16 = .illegal .mustBeZero ∧ decode 0x2005#16 = .cmd (.setl 2#2 true)
    ∧ decode 0x2006#16 = .illegal .reservedLine ∧ decode 0x3004#16 = .cmd (.getl 2#2)
    ∧ decode 0x3001#16 = .illegal .getlLevel ∧ decode 0x4FFF#16 = .cmd (.delay 4095#12)
    ∧ decode 0x5000#16 = .cmd .adstart ∧ decode 0x93FF#16 = .cmd (.ldraw 1023#10)
    ∧ decode 0xB0FF#16 = .cmd (.ldpat 0xFF#8) ∧ decode 0xC000#16 = .cmd .shiftout
    ∧ decode 0xE000#16 = .cmd .run ∧ decode 0xFFFF#16 = .illegal .reservedOpcode

/-- 30_encoding R71, R73, R75: decoding the word of a well-formed command gives the command back, for every command and
every value of its operands. -/
def Obligations.DecodeOfEncode : Prop :=
  ∀ i : Instr, i.wf = true → decode (encode i) = .cmd i

/-- 30_encoding R74, R75: a legal word is the word of exactly one command, and that command is well-formed. -/
def Obligations.EncodeOfDecode : Prop :=
  ∀ (cw : Word) (i : Instr), decode cw = .cmd i → i.wf = true ∧ encode i = cw

/-- 30_encoding R74: the illegal words are those of its cases (a) to (d), written over the word's bits, and fetching one
raises IllegalCommand with that word. -/
def Obligations.IllegalWordsRaiseIllegalCommand : Prop :=
  (∀ cw : Word, (∃ r, decode cw = .illegal r) ↔
    let op := cw.extractLsb' 12 4
    (op = 0x0#4 ∨ op = 0xF#4)
    ∨ (op ∈ [0x1#4, 0x5#4, 0x6#4, 0x7#4, 0x8#4, 0xA#4, 0xC#4, 0xD#4, 0xE#4] ∧ cw.extractLsb' 0 12 ≠ 0#12)
    ∨ ((op = 0x2#4 ∨ op = 0x3#4) ∧ cw.extractLsb' 3 9 ≠ 0#9)
    ∨ (op = 0x9#4 ∧ cw.extractLsb' 10 2 ≠ 0#2)
    ∨ (op = 0xB#4 ∧ cw.extractLsb' 8 4 ≠ 0#4)
    ∨ ((op = 0x2#4 ∨ op = 0x3#4) ∧ cw.extractLsb' 1 2 = 3#2)
    ∨ (op = 0x3#4 ∧ cw.getLsbD 0 = true))
  ∧ ∀ (s : State) (cw : Word) (r : Reject), s.ready = true → quiet 1 s.turns = true → s.prog[s.cpc]? = some cw →
      decode cw = .illegal r →
      step s = .next { s with
        faultCode := 1#3, faultCw := cw, history := s.history ++ [.fault 1#3 cw],
        cur := none, ms := 0, pending := none, turns := s.turns.drop 1 }

/-- 20_memory R53, R55: a byte transport gives back every word it carries, the low byte first, and half a word delivers
no command. -/
def Obligations.ByteTransportGivesWholeWords : Prop :=
  (∀ (ws : List Word) (b : Byte), wordsOfBytes (ws.flatMap bytesOfWord) = ws
    ∧ wordsOfBytes (ws.flatMap bytesOfWord ++ [b]) = ws)
  ∧ (∀ (hi lo : Byte) (rest : List Byte),
      decodeBytes (lo :: hi :: rest) = some (decode (BitVec.ofNat 16 (hi.toNat * 256 + lo.toNat)), rest))
  ∧ (∀ b : Byte, decodeBytes [b] = none) ∧ decodeBytes [] = none

/-- 30_encoding R76, R77: what the assembler produces from any text is well-formed commands, and for every operand that is a
number or a level, one that fits its field is taken as it is and one that does not is refused, not truncated. How a number is
spelled, that a level is any spelling of 0 or 1, and that a text with a refused line is refused whole, is the model's own
(log 14). -/
def Obligations.AssemblerProducesLegalCommands : Prop :=
  (∀ (lines : List (List Char)) (is : List Instr), assemble lines = .code is → ∀ i ∈ is, i.wf = true)
  ∧ ∀ (text : List Char) (n : Nat), readNumber text = some n →
      let fits := fun (max : Nat) (is : List Instr) => if n ≤ max then Assembled.code is else .refused .doesNotFit
      assembleOperands .delay [text] = fits 4095 [.delay (BitVec.ofNat 12 n)]
      ∧ assembleOperands .ldraw [text] = fits 1023 [.ldraw (BitVec.ofNat 10 n)]
      ∧ assembleOperands .ldpat [text] = fits 255 [.ldpat (BitVec.ofNat 8 n)]
      ∧ assembleOperands .shiftouti [text] = fits 255 (pseudoShiftouti (BitVec.ofNat 8 n))
      ∧ assembleOperands .shiftbit [text] = fits 1 (pseudoShiftbit (n == 1))
      ∧ ∀ (name : List Char) (l : Line), readLineName name = some l →
          assembleOperands .setl [name, text] = fits 1 [.setl (lineId l) (n == 1)]
          ∧ assembleOperands .pulse [name, text] = fits 4095 (pseudoPulse l (BitVec.ofNat 12 n))

/-- 30_encoding R77, a statement the spec marks as derived: SHIFTOUTI x expands to 43 commands whose body micro-steps,
run in order, record the events LDPAT x; SHIFTOUT records and leave SHIFT, LATCH and the lines as it does. -/
def Obligations.ShiftoutiRunsLikeShiftout : Prop :=
  ∀ (x : Byte) (s t : State), noReset s.turns →
    runMicros shiftoutBody (s.setPattern x) = .done t →
    (pseudoShiftouti x).length = 43 ∧
    ∃ u, runMicros ((pseudoShiftouti x).flatMap bodyOf) s = .done u ∧ u.history = t.history ∧ u.shift = t.shift
      ∧ u.latch = t.latch ∧ u.lvlSer = t.lvlSer ∧ u.lvlSrclk = t.lvlSrclk ∧ u.lvlRclk = t.lvlRclk
      ∧ u.pattern = s.pattern

/-! ### The step -/

/-- 10_state R27: with no fault, the command in progress goes on; with none in progress the word at CPC is fetched and the
command it decodes to runs; with no word there, only the environment moves. That a step is a whole command is the model's own
(log 3), and so is what a step does where the controller has none, the third clause (log 4). -/
def Obligations.StepRunsTheDecodedCommand : Prop :=
  (∀ (s : State) (cw : Word) (i : Instr), s.faulted = false → s.cur = none → s.prog[s.cpc]? = some cw →
    decode cw = .cmd i → step s = exec i s)
  ∧ (∀ (s : State) (i : Instr), s.cur = some i → step s = exec i s)
  ∧ (∀ s : State, s.cur = none → s.prog[s.cpc]? = none → step s = .next (idle s))

/-- 00_scope R8, 10_state R27: a step is a run of micro-steps of the agents, one at a time, in the order of the schedule;
the micro-step machine `tick` passes through every state in between. That a step is a whole command is the model's own
(log 3). -/
def Obligations.StepIsARunOfTicks : Prop :=
  ∀ s t : State, step s = .next t → ∃ n, ticks n s = .next t

/-- 44_loop R185: in a finished run the block does nothing more; a move of the schedule other than a reset passes with no
effect, since no conversion is in flight. That the step stutters is the model's own (log 4). -/
def Obligations.FinishedRunStays : Prop :=
  ∀ s : State, s.finished = true → noReset s.turns → step s = .next { s with turns := s.turns.drop 1 }

/-- 60_exceptions R200: while FAULT_CODE ≠ 0 no controller micro-step is enabled. The block is halted; a BUSY conversion
may still complete, and a reset clears the fault. That the step stutters is the model's own (log 4). -/
def Obligations.FaultedBlockIsHalted : Prop :=
  ∀ s : State, s.faulted = true → s.finished = false ∧ (s.turns = .silent → step s = .next s) ∧
    match s.turns.next with
    | (.controller, rest) => step s = .next { s with turns := rest }
    | (.converter v, rest) =>
      if s.adcState = .busy then
        step s = .next { s with adcState := .done, adcRes := some v, history := s.history ++ [.adcDone v], turns := rest }
      else step s = .next { s with turns := rest }
    | (.reset _, _) => ∃ t, step s = .next t ∧ t.faultCode = 0#3 ∧ t.faultCw = 0x0000#16 ∧ t.cpc = 0 ∧ t.cur = none

/-- 60_exceptions R203: the checks in their order, each as the outcome of the fetch: the first condition that
holds raises its fault, with the command's word, and where none holds the command faults nowhere. -/
def Obligations.CheckRaisesTheFirstFault : Prop :=
  ∀ (i : Instr) (s : State), s.ready = true → quiet 1 s.turns = true →
    let raisedWith := fun (code : BitVec 3) (cw : Word) => Host.Outcome.next (φ := Fault) (ρ := Refusal) { s with
      faultCode := code, faultCw := cw, history := s.history ++ [.fault code cw],
      cur := none, ms := 0, pending := none, turns := s.turns.drop 1 }
    let raised := fun (code : BitVec 3) => raisedWith code (encode i)
    let needs := (∃ l v, i = .setl l v) ∨ (∃ l, i = .getl l) ∨ i = .adstart ∨ i = .adpoll ∨ i = .adread ∨ i = .sample
      ∨ i = .shiftout ∨ i = .step ∨ i = .run
    let starts := i = .adstart ∨ i = .sample ∨ i = .step ∨ i = .run
    (∀ (cw : Word) (r : Reject), s.prog[s.cpc]? = some cw → decode cw = .illegal r → step s = raisedWith 1#3 cw)
    ∧ (i.wf = true →
      (needs ∧ s.inited = false → exec i s = raised 2#3)
      ∧ (i = .init ∧ s.inited = true → exec i s = raised 3#3)
      ∧ (¬ (needs ∧ s.inited = false) →
        (starts ∧ s.adcState = .busy → exec i s = raised 4#3)
        ∧ (i = .adread ∧ s.adcState ≠ .done → exec i s = raised 5#3)
        ∧ (i = .map ∧ s.raw = none → exec i s = raised 6#3)
        ∧ (i = .shiftout ∧ s.pattern = none → exec i s = raised 6#3))
      ∧ (¬ (needs ∧ s.inited = false) → ¬ (i = .init ∧ s.inited = true) → ¬ (starts ∧ s.adcState = .busy) →
        ¬ (i = .adread ∧ s.adcState ≠ .done) → ¬ (i = .map ∧ s.raw = none) → ¬ (i = .shiftout ∧ s.pattern = none) →
        ∀ t, exec i s = .next t → t.faultCode = 0#3))

/-- 60_exceptions R202, a table the spec marks as derived from R201: which faults each command can raise. A well-formed
command raises no IllegalCommand: only an illegal word does. -/
def Obligations.FaultsEachCommandCanRaise : Prop :=
  ∀ (i : Instr) (s t : State), i.wf = true → s.ready = true → noReset s.turns → exec i s = .next t →
    t.faultCode = 0#3
    ∨ (t.faultCode = 2#3 ∧ i ≠ .init ∧ (∀ d, i ≠ .delay d) ∧ (∀ n, i ≠ .ldraw n) ∧ i ≠ .map ∧ (∀ b, i ≠ .ldpat b))
    ∨ (t.faultCode = 3#3 ∧ i = .init)
    ∨ (t.faultCode = 4#3 ∧ (i = .adstart ∨ i = .sample ∨ i = .step ∨ i = .run))
    ∨ (t.faultCode = 5#3 ∧ i = .adread)
    ∨ (t.faultCode = 6#3 ∧ (i = .map ∨ i = .shiftout))

/-- 60_exceptions R200, 10_state R26: a fault is precise. The faulting command has no other effect; FAULT_CW is the word
at CPC, and CPC still indexes it. ADC_STATE and ADC_RES are unchanged too, unless a conversion that was BUSY completed before
the check: then its code is the result, and its event stands before the fault's. -/
def Obligations.FaultHasNoOtherEffect : Prop :=
  ∀ s t : State, s.faulted = false → step s = .next t → t.faulted = true →
    s.cur = none ∧ s.prog[s.cpc]? = some t.faultCw
    ∧ t = { s with
        faultCode := t.faultCode, faultCw := t.faultCw, history := t.history, cur := none, ms := 0, pending := none,
        adcState := t.adcState, adcRes := t.adcRes, turns := t.turns }
    ∧ ((t.adcState = s.adcState ∧ t.adcRes = s.adcRes ∧ t.history = s.history ++ [.fault t.faultCode t.faultCw])
      ∨ (s.adcState = .busy ∧ t.adcState = .done ∧ ∃ v, t.adcRes = some v
          ∧ t.history = s.history ++ [.adcDone v, .fault t.faultCode t.faultCw]))

/-! ### The whole machine -/

/-- 10_state R36, 70_reset R232: the state after power-on meets the invariant. -/
def Obligations.ResetMeetsTheInvariant : Prop := Invariant State.reset

/-- 10_state R20 to R36: every step keeps the domains of the fields and the relations between them. -/
def Obligations.StepKeepsTheInvariant : Prop :=
  ∀ s t : State, Invariant s → step s = .next t → Invariant t

/-- 00_scope R9, 60_exceptions R200: in every state of the invariant the machine goes on: no step ends in one of the
model's own stops (log 9), whatever command stands at CPC and whatever the schedule. That a step runs a whole command (log 3),
and that it answers a next state where the controller has no step of its own (a hold, a fault, the end of PROG: log 4), is the
model's own. -/
def Obligations.StepNeverStops : Prop :=
  ∀ s : State, Invariant s → ∃ t, step s = .next t

/-- 10_state R20 to R36, 00_scope R8: the micro-step machine keeps the domains, and what each command's next micro-step
needs; it never stops, and every state of the step invariant is one it may start from. That a micro-step where nothing is
enabled answers the same state is the model's own (log 4), and so are the stops it never ends in (log 9). -/
def Obligations.TickKeepsTheMicroInvariant : Prop :=
  (∀ s : State, Invariant s → MicroInvariant s)
  ∧ ∀ s : State, MicroInvariant s → ∃ t, tick s = .next t ∧ MicroInvariant t

/-- 10_state R36, 70_reset R231, R232: what each of the two resets leaves. PROG, the schedule and the waiting response
are the model's own fields (logs 1, 2, 5). -/
def Obligations.ResetsLeaveTheResetState : Prop :=
  ∀ (s : State) (rest : Schedule) (k : ResetKind), s.turns.next = (.reset k, rest) →
    tick s = .next
      { raw := none, power := none, pattern := none, dirSer := .input, dirSrclk := .input, dirRclk := .input,
        lvlSer := .z, lvlSrclk := .z, lvlRclk := .z, inited := false, adcEn := false, adcCh := none, adcRef := none,
        adcMode := none, adcPresc := none, adcState := .off, adcRes := none, shift := .allUnknown, latch := .allUnknown,
        cpc := 0, cur := none, ms := 0, faultCode := 0#3, faultCw := 0x0000#16,
        history := match k with | .powerOn => [] | .input => s.history ++ [.reset .input],
        responses := match k with | .powerOn => [] | .input => s.responses,
        pending := none, prog := s.prog, turns := rest }

/-- 70_reset R231: a reset of either kind aborts the command in progress wherever it falls among its micro-steps, and
abandons a conversion in flight. For every command, from its fetch or from where it stands in progress, and with completions of
the converter among the moves before the reset: if the reset comes before the command can complete, the step ends in the reset
state with no response of that command. SAMPLE, STEP and RUN get past their hold only where a completion lands after their
AdcStart, which `start` controller turns reach; without one the reset lands at the hold or before it. RUN has no completion
micro-step, and its step ends with its iteration (log 3). -/
def Obligations.ResetAbortsTheCommand : Prop :=
  ∀ (s : State) (i : Instr) (k : ResetKind) (pre : List Turn) (rest : Schedule) (start : Nat), Invariant s →
    s.faulted = false →
    (s.cur = none ∧ check i s = none ∧ start = 2
      ∨ s.cur = some i ∧ start = (if s.adcState = .busy then 0 else 1)) →
    (∀ r, Turn.reset r ∉ pre) → s.turns.begins (pre ++ [.reset k]) rest →
    (if i = .sample ∨ i = .step ∨ i = .run then
      pre.count .controller ≤ start
      ∨ ((∃ p v q, pre = p ++ .converter v :: q ∧ p.count .controller = start)
        ∧ pre.count .controller + 2 ≤ start + (bodyOf i).length + (if i = .run then 0 else 1))
    else pre.count .controller ≤ 1 + (bodyOf i).length) →
    ∃ t, exec i s = .next t ∧ abortedBy k s t rest

/-- 10_state R27, 41_sampler R111, 60_exceptions R200: under any schedule with no reset, a well-formed command other than
SAMPLE, STEP and RUN either faults at its check, with CPC still at its word, or completes: these commands never hold. -/
def Obligations.HoldFreeCommandsCompleteOrFault : Prop :=
  ∀ (i : Instr) (s : State), Invariant s → s.ready = true → noReset s.turns → i ≠ .sample → i ≠ .step → i ≠ .run →
    ∃ t, exec i s = .next t ∧ t.cur = none ∧ t.ms = 0
      ∧ ((t.faulted = true ∧ t.cpc = s.cpc) ∨ (t.faulted = false ∧ t.cpc = s.cpc + 1))

/-- 10_state R20 (the column "written by"), R24: a command writes only the fields the table lists it for. The converter's
fields, which its own completion may also write, are left to `TickMovesTheConverter`. -/
def Obligations.FieldsAreWrittenOnlyByTheirCommands : Prop :=
  ∀ (i : Instr) (s t : State), noReset s.turns → exec i s = .next t →
    (i ≠ .adread → i ≠ .sample → (∀ n, i ≠ .ldraw n) → i ≠ .step → i ≠ .run → t.raw = s.raw)
    ∧ (i ≠ .map → i ≠ .step → i ≠ .run → t.power = s.power)
    ∧ (i ≠ .map → (∀ b, i ≠ .ldpat b) → i ≠ .step → i ≠ .run → t.pattern = s.pattern)
    ∧ (i ≠ .init → (∀ l, t.dir l = s.dir l) ∧ t.inited = s.inited ∧ t.adcEn = s.adcEn ∧ t.adcCh = s.adcCh
        ∧ t.adcRef = s.adcRef ∧ t.adcMode = s.adcMode ∧ t.adcPresc = s.adcPresc)
    ∧ (i ≠ .init → (∀ l v, i ≠ .setl l v) → i ≠ .shiftout → i ≠ .step → i ≠ .run → ∀ l, t.lvl l = s.lvl l)
    ∧ ((∀ l v, i ≠ .setl l v) → i ≠ .shiftout → i ≠ .step → i ≠ .run → t.shift = s.shift ∧ t.latch = s.latch)
    ∧ ((∀ l, i ≠ .getl l) → i ≠ .adpoll → i ≠ .adread → i ≠ .sample → i ≠ .map → t.responses = s.responses)
    ∧ (t.cpc = s.cpc ∨ t.cpc = s.cpc + 1)
    ∧ t.prog = s.prog

/-- 10_state R30: the converter's transitions, micro-step by micro-step, each from its own source state, and no other: OFF
to IDLE by INIT, IDLE or DONE to BUSY by a start, BUSY to DONE by a completion, and any state to OFF by a reset. -/
def Obligations.TickMovesTheConverter : Prop :=
  ∀ s t : State, MicroInvariant s → tick s = .next t →
    (t.adcState = s.adcState ∧ t.adcRes = s.adcRes)
    ∨ (s.turns.next.1 = .controller ∧ s.cur = some .init
        ∧ s.adcState = .off ∧ t.adcState = .idle ∧ t.adcRes = none)
    ∨ (s.turns.next.1 = .controller
        ∧ (s.cur = some .adstart ∨ s.cur = some .sample ∨ s.cur = some .step ∨ s.cur = some .run)
        ∧ (s.adcState = .idle ∨ s.adcState = .done) ∧ t.adcState = .busy ∧ t.adcRes = none)
    ∨ (∃ v, s.turns.next.1 = .converter v ∧ s.adcState = .busy ∧ t.adcState = .done ∧ t.adcRes = some v)
    ∨ (∃ k, s.turns.next.1 = .reset k ∧ t.adcState = .off ∧ t.adcRes = none)

/-- 10_state R33, R34: HISTORY and RESPONSES only grow, at power-on excepted, and nothing writes PROG (20_memory R65). -/
def Obligations.RecordOnlyGrows : Prop :=
  ∀ s t : State, step s = .next t →
    t.prog = s.prog ∧ (noPowerOn s.turns → s.history <+: t.history ∧ s.responses <+: t.responses)

/-! ### Port commands -/

/-- 40_port R92. -/
def Obligations.InitFollowsItsRule : Prop :=
  decode 0x1000#16 = .cmd .init ∧
  (∀ s : State, s.ready = true → quiet 3 s.turns = true → s.inited = false →
    exec .init s = .next { s with
      dirSer := .output, dirSrclk := .output, dirRclk := .output, lvlSer := .low, lvlSrclk := .low, lvlRclk := .low,
      adcCh := some .channel0, adcRef := some .supply, adcMode := some .singleEnded, adcPresc := some .div64,
      adcEn := true, adcState := .idle, adcRes := none, inited := true, history := s.history ++ [.init],
      cpc := s.cpc + 1, cur := none, ms := 0, pending := none, turns := s.turns.drop 3 }) ∧
  (∀ s : State, s.ready = true → quiet 1 s.turns = true → s.inited = true →
    exec .init s = .next { s with
      faultCode := 3#3, faultCw := 0x1000#16, history := s.history ++ [.fault 3#3 0x1000#16],
      cur := none, ms := 0, pending := none, turns := s.turns.drop 1 })

/-- 40_port R90, R93, 43_output_driver R151 to R153, R156: SETL's effect on the line, on HISTORY and on the receiver, for
every line, level and state of the gaps; every other field keeps its value. -/
def Obligations.SetlDrivesLineAndReceiver : Prop :=
  ∀ (line : BitVec 2) (l : Line) (v : Bool) (s : State), lineOfId line = some l → s.ready = true →
    quiet 3 s.turns = true → s.inited = true →
    ∃ t, exec (.setl line v) s = .next t
      ∧ (∀ m, t.lvl m = if m = l then levelOfBool v else s.lvl m)
      ∧ t.shift = (match l with
          | .ser =>
            if s.lvlSer ≠ levelOfBool v ∧ ((s.lvlSrclk = .high ∧ shorter s.timing.gR 10)
                ∨ (s.lvlSrclk = .low ∧ shorter s.timing.gF 2)) then .allUnknown
            else s.shift
          | .srclk =>
            if s.lvlSrclk = .low ∧ v = true then
              if shorter s.timing.gF 2 then .allUnknown
              else { b7 := s.shift.b6, b6 := s.shift.b5, b5 := s.shift.b4, b4 := s.shift.b3,
                     b3 := s.shift.b2, b2 := s.shift.b1, b1 := s.shift.b0, b0 := triOfLevel s.lvlSer }
            else if s.lvlSrclk = .high ∧ v = false ∧ shorter s.timing.gR 10 then .allUnknown
            else s.shift
          | .rclk => s.shift)
      ∧ t.latch = (match l with
          | .ser => s.latch
          | .srclk => s.latch
          | .rclk =>
            if s.lvlRclk = .low ∧ v = true then
              if s.lvlSrclk = .high ∨ shorter s.timing.gF 2 then .allUnknown else s.shift
            else if s.lvlRclk = .high ∧ v = false ∧ shorter s.timing.gL 50 then .allUnknown
            else s.latch)
      ∧ t = { s with
          lvlSer := t.lvlSer, lvlSrclk := t.lvlSrclk, lvlRclk := t.lvlRclk, shift := t.shift, latch := t.latch,
          history := s.history ++ [.line l v], cpc := s.cpc + 1, cur := none, ms := 0, pending := none,
          turns := s.turns.drop 3 }

/-- 43_output_driver R156, 40_port R91: the gaps the receiver reads are MinGap values over HISTORY, from the last edge
since the last Init to now; with no such edge there is no gap. Reading the clocks' levels off HISTORY is the model's own
(log 8). -/
def Obligations.GapsAreMinGaps : Prop :=
  ∀ (h : List Event) (g : Nat),
    ((timingOf h).gF = some g ↔
      ∃ a, lastSinceInit (fallAt .srclk h) h a ∧ g = minGap h a h.length)
    ∧ ((timingOf h).gR = some g ↔
      ∃ a, lastSinceInit (riseAt .srclk h) h a ∧ g = minGap h a h.length)
    ∧ ((timingOf h).gL = some g ↔
      ∃ a, lastSinceInit (riseAt .rclk h) h a ∧ g = minGap h a h.length)

/-- 40_port R94: GETL responds with the level of the line and changes nothing else; it needs INIT; its three words, and
no other word with its opcode. -/
def Obligations.GetlReadsTheLineBack : Prop :=
  decode 0x3000#16 = .cmd (.getl 0#2) ∧ decode 0x3002#16 = .cmd (.getl 1#2) ∧ decode 0x3004#16 = .cmd (.getl 2#2) ∧
  (∀ cw : Word, cw.extractLsb' 12 4 = 0x3#4 → cw ∉ [0x3000#16, 0x3002#16, 0x3004#16] → ∃ r, decode cw = .illegal r) ∧
  lineOfId 0#2 = some .ser ∧ lineOfId 1#2 = some .srclk ∧ lineOfId 2#2 = some .rclk ∧
  (∀ (line : BitVec 2) (l : Line) (b : Bool) (s : State), lineOfId line = some l → s.lvl l = levelOfBool b →
    s.ready = true → quiet 3 s.turns = true → s.inited = true →
    exec (.getl line) s = .next { s with
      responses := s.responses ++ [(s.cpc, if b then 0x0001#16 else 0x0000#16)],
      cpc := s.cpc + 1, cur := none, ms := 0, pending := none, turns := s.turns.drop 3 }) ∧
  (∀ (line : BitVec 2) (s : State), line ≠ 3#2 → s.ready = true → quiet 1 s.turns = true → s.inited = false →
    exec (.getl line) s = .next { s with
      faultCode := 2#3, faultCw := encode (.getl line), history := s.history ++ [.fault 2#3 (encode (.getl line))],
      cur := none, ms := 0, pending := none, turns := s.turns.drop 1 })

/-- 40_port R91, R95: DELAY records its event and nothing else, in every mode of the block; it never faults. -/
def Obligations.DelayFollowsItsRule : Prop :=
  (∀ t : BitVec 12, decode (0x4000#16 ||| t.zeroExtend 16) = .cmd (.delay t)) ∧
  ∀ (t : BitVec 12) (s : State), s.ready = true → quiet 3 s.turns = true →
    exec (.delay t) s = .next { s with
      history := s.history ++ [.delay t.toNat], cpc := s.cpc + 1, cur := none, ms := 0, pending := none,
      turns := s.turns.drop 3 }

/-! ### Sampler -/

/-- 41_sampler R112, R115. -/
def Obligations.AdstartFollowsItsRule : Prop :=
  decode 0x5000#16 = .cmd .adstart ∧
  (∀ cw : Word, cw.extractLsb' 12 4 = 0x5#4 → cw ≠ 0x5000#16 → ∃ r, decode cw = .illegal r) ∧
  (∀ s : State, s.ready = true → quiet 3 s.turns = true → s.inited = true → s.adcState ≠ .busy →
    exec .adstart s = .next { s with
      adcState := .busy, adcRes := none, history := s.history ++ [.adcStart],
      cpc := s.cpc + 1, cur := none, ms := 0, pending := none, turns := s.turns.drop 3 }) ∧
  (∀ s : State, s.ready = true → quiet 1 s.turns = true → (s.inited = false ∨ s.adcState = .busy) →
    exec .adstart s = .next { s with
      faultCode := if s.inited then 4#3 else 2#3, faultCw := 0x5000#16,
      history := s.history ++ [.fault (if s.inited then 4#3 else 2#3) 0x5000#16],
      cur := none, ms := 0, pending := none, turns := s.turns.drop 1 })

/-- 41_sampler R116, 20_memory R62: ADPOLL responds with the ready condition at its body micro-step. A completion that
lands before it counts, one that lands after it does not. -/
def Obligations.AdpollFollowsItsRule : Prop :=
  decode 0x6000#16 = .cmd .adpoll ∧
  (∀ cw : Word, cw.extractLsb' 12 4 = 0x6#4 → cw ≠ 0x6000#16 → ∃ r, decode cw = .illegal r) ∧
  (∀ s : State, s.ready = true → quiet 3 s.turns = true → s.inited = true →
    exec .adpoll s = .next { s with
      responses := s.responses ++ [(s.cpc, if s.adcState = .done then 0x0001#16 else 0x0000#16)],
      cpc := s.cpc + 1, cur := none, ms := 0, pending := none, turns := s.turns.drop 3 }) ∧
  (∀ (s : State) (v : Code) (rest : Schedule), s.ready = true → s.inited = true → s.adcState = .busy →
    (s.turns.begins [.controller, .converter v, .controller, .controller] rest →
      ∃ t, exec .adpoll s = .next t ∧ t.adcState = .done ∧ t.adcRes = some v
        ∧ t.responses = s.responses ++ [(s.cpc, 0x0001#16)]) ∧
    (s.turns.begins [.controller, .controller, .converter v, .controller] rest →
      ∃ t, exec .adpoll s = .next t ∧ t.adcState = .done ∧ t.adcRes = some v
        ∧ t.responses = s.responses ++ [(s.cpc, 0x0000#16)])) ∧
  (∀ s : State, s.ready = true → quiet 1 s.turns = true → s.inited = false →
    exec .adpoll s = .next { s with
      faultCode := 2#3, faultCw := 0x6000#16, history := s.history ++ [.fault 2#3 0x6000#16],
      cur := none, ms := 0, pending := none, turns := s.turns.drop 1 })

/-- 41_sampler R117: ADREAD takes the result into RAW and the response, and may repeat, since the converter stays in
DONE; before INIT it raises NotInitialised, in IDLE and BUSY AdcNotReady. -/
def Obligations.AdreadTakesTheResult : Prop :=
  decode 0x7000#16 = .cmd .adread ∧
  (∀ cw : Word, cw.extractLsb' 12 4 = 0x7#4 → cw ≠ 0x7000#16 → ∃ r, decode cw = .illegal r) ∧
  (∀ (s : State) (v : Code), s.ready = true → quiet 3 s.turns = true → s.inited = true → s.adcState = .done →
    s.adcRes = some v →
    exec .adread s = .next { s with
      raw := some v, history := s.history ++ [.adcRead v],
      responses := s.responses ++ [(s.cpc, BitVec.ofNat 16 v.toNat)],
      cpc := s.cpc + 1, cur := none, ms := 0, pending := none, turns := s.turns.drop 3 }) ∧
  (∀ s : State, s.ready = true → quiet 1 s.turns = true → (s.inited = false ∨ s.adcState ≠ .done) →
    exec .adread s = .next { s with
      faultCode := if s.inited then 5#3 else 2#3, faultCw := 0x7000#16,
      history := s.history ++ [.fault (if s.inited then 5#3 else 2#3) 0x7000#16],
      cur := none, ms := 0, pending := none, turns := s.turns.drop 1 })

/-- 41_sampler R110: the converter's completion is enabled only in BUSY; it takes any code. A turn given to the
converter in another state is the model's own, and passes (log 2). -/
def Obligations.ConverterCompletesOnlyFromBusy : Prop :=
  ∀ (s : State) (v : Code) (rest : Schedule), s.turns.next = (.converter v, rest) →
    tick s = if s.adcState = .busy then
        .next { s with adcState := .done, adcRes := some v, history := s.history ++ [.adcDone v], turns := rest }
      else .next { s with turns := rest }

/-- 41_sampler R118: a conversion that completes with `v` inside the hold gives RAW = v and the response v. -/
def Obligations.SampleTakesAFreshResult : Prop :=
  ∀ (s : State) (v : Code) (rest : Schedule), s.ready = true → s.inited = true → s.adcState ≠ .busy →
    s.turns.begins [.controller, .controller, .converter v] rest → quiet 3 rest = true →
    exec .sample s = .next { s with
      raw := some v, adcState := .done, adcRes := some v,
      history := s.history ++ [.adcStart, .adcDone v, .adcRead v],
      responses := s.responses ++ [(s.cpc, BitVec.ofNat 16 v.toNat)],
      cpc := s.cpc + 1, cur := none, ms := 0, pending := none, turns := rest.drop 3 }

/-- 41_sampler R111, R114, 60_exceptions R208: with no completion before its AwaitAdc SAMPLE holds: BUSY, CPC kept, and no
fault. At every controller turn that no completion precedes it goes on holding, with nothing changed but the schedule, so it
holds for ever where none ever comes; a completion, at any later step, lifts the hold. That the held step stutters is the
model's own (log 4). -/
def Obligations.SampleHoldsUntilCompletion : Prop :=
  ∀ (s : State), s.ready = true → s.inited = true → s.adcState ≠ .busy →
    let held := fun ts : Schedule => { s with
      adcState := .busy, adcRes := none, history := s.history ++ [.adcStart], cur := some .sample, ms := 1,
      pending := none, turns := ts }
    (quiet 3 s.turns = true → exec .sample s = .next (held (s.turns.drop 3)))
    ∧ (∀ ts : Schedule, quiet 1 ts = true → step (held ts) = .next (held (ts.drop 1)))
    ∧ ∀ (ts rest : Schedule) (v : Code), ts.begins [.converter v] rest → quiet 3 rest = true →
        step (held ts) = .next { s with
          raw := some v, adcState := .done, adcRes := some v,
          history := s.history ++ [.adcStart, .adcDone v, .adcRead v],
          responses := s.responses ++ [(s.cpc, BitVec.ofNat 16 v.toNat)],
          cpc := s.cpc + 1, cur := none, ms := 0, pending := none, turns := rest.drop 3 }

/-- 41_sampler R119, which the spec marks as derived: SAMPLE gives the events, the RAW and the response of ADSTART, a
completion, and ADREAD. -/
def Obligations.SampleMatchesThePortSequence : Prop :=
  ∀ (s a b t : State) (v : Code) (rest us : Schedule), s.ready = true → s.inited = true → s.adcState ≠ .busy →
    s.turns.begins [.controller, .controller, .controller, .converter v] rest → quiet 3 rest = true →
    exec .adstart s = .next a → tick a = .next b → exec .adread b = .next t →
    us.begins [.controller, .controller, .converter v, .controller, .controller, .controller] (rest.drop 3) →
    ∃ u, exec .sample { s with turns := us } = .next u
      ∧ u.history = t.history ∧ u.raw = t.raw ∧ u.adcState = t.adcState ∧ u.adcRes = t.adcRes ∧ u.turns = t.turns
      ∧ u.responses.map (·.2) = t.responses.map (·.2)

/-! ### Mapper -/

/-- 42_mapper R131. -/
def Obligations.LdrawFollowsItsRule : Prop :=
  (∀ n : Code, decode (0x9000#16 ||| n.zeroExtend 16) = .cmd (.ldraw n)) ∧
  (∀ cw : Word, cw.extractLsb' 12 4 = 0x9#4 → cw.extractLsb' 10 2 ≠ 0#2 → ∃ r, decode cw = .illegal r) ∧
  ∀ (n : Code) (s : State), s.ready = true → quiet 3 s.turns = true →
    exec (.ldraw n) s = .next { s with
      raw := some n, cpc := s.cpc + 1, cur := none, ms := 0, pending := none, turns := s.turns.drop 3 }

/-- 42_mapper R133, a table the spec marks as derived from R130: the nine rows of Quant. -/
def Obligations.QuantIsTheTable : Prop :=
  ∀ raw : Code, quant raw =
    if raw.toNat ≤ 126 then (0#4, 0x00#8) else if raw.toNat ≤ 253 then (1#4, 0x01#8)
    else if raw.toNat ≤ 380 then (2#4, 0x03#8) else if raw.toNat ≤ 507 then (3#4, 0x07#8)
    else if raw.toNat ≤ 634 then (4#4, 0x0F#8) else if raw.toNat ≤ 761 then (5#4, 0x1F#8)
    else if raw.toNat ≤ 888 then (6#4, 0x3F#8) else if raw.toNat ≤ 1015 then (7#4, 0x7F#8)
    else (8#4, 0xFF#8)

/-- 42_mapper R130: the division by 127 rounds down, the pattern is 2^p - 1 in 8 bits with bit 0 forced when it is not
zero. -/
def Obligations.QuantDividesBy127 : Prop :=
  ∀ raw : Code,
    (quant raw).1.toNat = raw.toNat / 127 ∧ (quant raw).1.toNat ≤ 8
    ∧ (quant raw).2.toNat = (2 ^ (raw.toNat / 127) - 1) % 256
    ∧ ((quant raw).2 ≠ 0#8 → (quant raw).2 = (quant raw).2 ||| 0x01#8)

/-- 42_mapper R135, laws the spec marks as derived from R130: thermometer code, bit 0, and monotonicity bit by bit. -/
def Obligations.QuantIsAMonotoneThermometer : Prop :=
  ∀ r1 r2 : Code,
    (∀ k < 8, (quant r1).2.getLsbD k = decide (k < (quant r1).1.toNat))
    ∧ ((quant r1).2 ≠ 0#8 → (quant r1).2.getLsbD 0 = true)
    ∧ (r1.toNat ≤ r2.toNat → (quant r1).1.toNat ≤ (quant r2).1.toNat ∧ (quant r1).2 &&& ~~~(quant r2).2 = 0#8)

/-- 42_mapper R132: MAP writes POWER and PATTERN from RAW and responds with both; with RAW unwritten it raises Unwritten.
It needs no INIT. -/
def Obligations.MapFollowsItsRule : Prop :=
  decode 0xA000#16 = .cmd .map ∧
  (∀ cw : Word, cw.extractLsb' 12 4 = 0xA#4 → cw ≠ 0xA000#16 → ∃ r, decode cw = .illegal r) ∧
  (∀ (s : State) (v : Code), s.ready = true → quiet 3 s.turns = true → s.raw = some v →
    exec .map s = .next { s with
      power := some (BitVec.ofNat 4 (v.toNat / 127)), pattern := some (BitVec.ofNat 8 (2 ^ (v.toNat / 127) - 1)),
      responses := s.responses
        ++ [(s.cpc, BitVec.ofNat 16 (v.toNat / 127 * 256 + (2 ^ (v.toNat / 127) - 1)))],
      cpc := s.cpc + 1, cur := none, ms := 0, pending := none, turns := s.turns.drop 3 }) ∧
  (∀ s : State, s.ready = true → quiet 1 s.turns = true → s.raw = none →
    exec .map s = .next { s with
      faultCode := 6#3, faultCw := 0xA000#16, history := s.history ++ [.fault 6#3 0xA000#16],
      cur := none, ms := 0, pending := none, turns := s.turns.drop 1 })

/-! ### Output driver -/

/-- 43_output_driver R157. -/
def Obligations.LdpatFollowsItsRule : Prop :=
  (∀ b : Byte, decode (0xB000#16 ||| b.zeroExtend 16) = .cmd (.ldpat b)) ∧
  (∀ cw : Word, cw.extractLsb' 12 4 = 0xB#4 → cw.extractLsb' 8 4 ≠ 0#4 → ∃ r, decode cw = .illegal r) ∧
  ∀ (b : Byte) (s : State), s.ready = true → quiet 3 s.turns = true →
    exec (.ldpat b) s = .next { s with
      pattern := some b, cpc := s.cpc + 1, cur := none, ms := 0, pending := none, turns := s.turns.drop 3 }

/-- 43_output_driver R158, R159: SHIFTOUT completes from every initialised state with PATTERN written, settled or not. It
records its 43 events, leaves the lines as its last writes do, and changes nothing else but SHIFT and LATCH. -/
def Obligations.ShiftoutCompletes : Prop :=
  ∀ (s : State) (b : Byte), s.ready = true → s.inited = true → s.pattern = some b → quiet 45 s.turns = true →
    ∃ t, exec .shiftout s = .next t ∧ t = { s with
      lvlSer := levelOfBool (b.getLsbD 7), lvlSrclk := .low, lvlRclk := .low, shift := t.shift, latch := t.latch,
      history := s.history ++ shiftoutEvents b, cpc := s.cpc + 1, cur := none, ms := 0, pending := none,
      turns := s.turns.drop 45 }

/-- 43_output_driver R160, which the spec marks as derived: from a settled entry, whatever SHIFT and LATCH held and
wherever the converter's completion lands, SHIFTOUT ends with SHIFT = LATCH = bitrev8(PATTERN), so SEG shows PATTERN, and
settled again. -/
def Obligations.SettledShiftoutShowsThePattern : Prop :=
  ∀ (s : State) (b : Byte), s.ready = true → s.inited = true → s.pattern = some b → s.settled = true →
    noReset s.turns →
    ∃ t, exec .shiftout s = .next t
      ∧ t.shift = (Tri8.ofByte b).bitrev ∧ t.latch = (Tri8.ofByte b).bitrev ∧ t.seg = Tri8.ofByte b
      ∧ t.lvlSer = levelOfBool (b.getLsbD 7) ∧ t.lvlSrclk = .low ∧ t.lvlRclk = .low ∧ t.settled = true
      ∧ t.raw = s.raw ∧ t.power = s.power ∧ t.pattern = some b ∧ t.cpc = s.cpc + 1 ∧ t.cur = none
      ∧ t.responses = s.responses ∧ t.faultCode = 0#3

/-- 43_output_driver R161, which the spec marks as derived: run where HISTORY leaves both clocks low, SHIFTOUT makes exactly
eight shift-clock rises in HISTORY, the k-th with SER at PATTERN bit k - 1, then exactly one latch rise. -/
def Obligations.ShiftoutMakesEightPulsesAndALatch : Prop :=
  ∀ (s : State) (b : Byte), s.ready = true → s.inited = true → s.pattern = some b → quiet 45 s.turns = true →
    lineLevel .srclk s.history = false → lineLevel .rclk s.history = false →
    let n := s.history.length
    ∃ t, exec .shiftout s = .next t ∧ s.history <+: t.history
      ∧ (∀ a, n ≤ a → (riseAt .srclk t.history a ↔ ∃ k < 8, a = n + (5 * k + 1)))
      ∧ (∀ k < 8, lineLevel .ser (t.history.take (n + (5 * k + 1))) = b.getLsbD k)
      ∧ (∀ a, n ≤ a → (riseAt .rclk t.history a ↔ a = n + 40))

/-- 43_output_driver R162, which the spec marks as derived: the MinGap bounds of the events SHIFTOUT leaves in HISTORY,
whatever HISTORY held before. -/
def Obligations.ShiftoutMeetsTheHoldTimes : Prop :=
  ∀ (s : State) (b : Byte), s.ready = true → s.inited = true → s.pattern = some b → quiet 45 s.turns = true →
    let n := s.history.length
    ∃ t, exec .shiftout s = .next t
      ∧ (∀ k < 8, minGap t.history (n + (5 * k + 1)) (n + (5 * k + 3)) = 10
        ∧ minGap t.history (n + (5 * k + 3)) (n + (5 * k + 5)) = 2
        ∧ minGap t.history (n + (5 * k + 1)) (n + (5 * k + 5)) = 12
        ∧ minGap t.history (n + 5 * k) (n + (5 * k + 1)) = 0)
      ∧ minGap t.history (n + 40) (n + 42) = 50
      ∧ minGap t.history n (n + 42) = 146

/-- 43_output_driver R163, which the spec marks as derived: up to MS 39 the outputs keep the previous pattern. -/
def Obligations.OutputsHoldUntilTheLatchRise : Prop :=
  ∀ (n : Nat) (s t : State), n ≤ 40 → runMicros (shiftoutBody.take n) s = .done t → t.q = s.q

/-- 43_output_driver R156, R164, first case: SHIFTOUT entered with SRCLK high and RCLK low loses the first shift edge; the
old SHIFT[0] ends in SHIFT[7], unknown where the first data write changes SER inside the high hold. -/
def Obligations.ShiftoutLosesAShiftEdge : Prop :=
  ∀ (s : State) (b : Byte), s.ready = true → s.inited = true → s.pattern = some b → noReset s.turns →
    s.lvlSrclk = .high → s.lvlRclk = .low →
    ∃ t, exec .shiftout s = .next t ∧ t.latch = t.shift
      ∧ t.shift = { b7 := if s.lvlSer ≠ levelOfBool (b.getLsbD 0) ∧ shorter s.timing.gR 10 then .unknown else s.shift.b0,
                    b6 := triOfBool (b.getLsbD 1), b5 := triOfBool (b.getLsbD 2),
                    b4 := triOfBool (b.getLsbD 3), b3 := triOfBool (b.getLsbD 4), b2 := triOfBool (b.getLsbD 5),
                    b1 := triOfBool (b.getLsbD 6), b0 := triOfBool (b.getLsbD 7) }

/-- 43_output_driver R164, second case: SHIFTOUT entered with RCLK high makes no latch edge; LATCH and Q do not change. -/
def Obligations.ShiftoutLosesTheLatchEdge : Prop :=
  ∀ (s : State) (b : Byte), s.ready = true → s.inited = true → s.pattern = some b → noReset s.turns →
    s.lvlRclk = .high →
    ∃ t, exec .shiftout s = .next t ∧ t.latch = s.latch ∧ t.q = s.q ∧ t.lvlRclk = .low

/-- 43_output_driver R156, R158, R160, R164: what SHIFTOUT leaves in SHIFT and LATCH from every entry with the lines driven,
settled or not, either clock high or low, and whatever the gaps: `shiftedOut` and `latchedOut` say it bit by bit. It completes,
under any schedule with no reset. -/
def Obligations.ShiftoutFromEveryEntry : Prop :=
  ∀ (s : State) (b : Byte), s.ready = true → s.driven = true → s.pattern = some b → noReset s.turns →
    ∃ t, exec .shiftout s = .next t ∧ t.shift = shiftedOut s b ∧ t.latch = latchedOut s b
      ∧ t.lvlSer = levelOfBool (b.getLsbD 7) ∧ t.lvlSrclk = .low ∧ t.lvlRclk = .low
      ∧ t.raw = s.raw ∧ t.power = s.power ∧ t.pattern = some b ∧ t.responses = s.responses ∧ t.faultCode = 0#3
      ∧ t.cpc = s.cpc + 1 ∧ t.cur = none

/-- 43_output_driver R165, which the spec marks as derived: two SHIFTOUTs of one PATTERN in a row record the same events
and leave the same receiver and lines. -/
def Obligations.ShiftoutCarriesNoHiddenState : Prop :=
  ∀ (s t : State) (b : Byte), s.ready = true → s.inited = true → s.pattern = some b → s.settled = true →
    quiet 90 s.turns = true → exec .shiftout s = .next t →
    ∃ u, exec .shiftout t = .next u
      ∧ u.history.drop t.history.length = t.history.drop s.history.length
      ∧ u.shift = t.shift ∧ u.latch = t.latch ∧ u.lvlSer = t.lvlSer ∧ u.lvlSrclk = t.lvlSrclk
      ∧ u.lvlRclk = t.lvlRclk

/-! ### Control loop -/

/-- 44_loop R180, R182: one iteration from a settled entry, its conversion completing with `v` inside the hold. -/
def Obligations.StepCommandShowsItsSample : Prop :=
  ∀ (s : State) (v : Code) (rest : Schedule), s.ready = true → s.inited = true → s.adcState ≠ .busy →
    s.settled = true → s.turns.begins [.controller, .controller, .converter v] rest → quiet 47 rest = true →
    exec .step s = .next { s with
      raw := some v, power := some (quant v).1, pattern := some (quant v).2,
      adcState := .done, adcRes := some v,
      shift := (Tri8.ofByte (quant v).2).bitrev, latch := (Tri8.ofByte (quant v).2).bitrev,
      lvlSer := levelOfBool ((quant v).2.getLsbD 7), lvlSrclk := .low, lvlRclk := .low,
      history := s.history ++ [.adcStart, .adcDone v, .adcRead v] ++ shiftoutEvents (quant v).2,
      cpc := s.cpc + 1, cur := none, ms := 0, pending := none, turns := rest.drop 47 }

/-- 44_loop R180, 43_output_driver R156, R164: STEP completes from every entry with the lines driven, settled or not, either
clock high or low: its conversion completing with `v` inside the hold, it leaves what STEP's rule gives, and in SHIFT and LATCH
what a SHIFTOUT of Quant(v).pattern entered the same way leaves. -/
def Obligations.StepCommandFromEveryEntry : Prop :=
  ∀ (s : State) (v : Code) (rest : Schedule), s.ready = true → s.driven = true → s.adcState ≠ .busy →
    s.turns.begins [.controller, .controller, .converter v] rest → quiet 47 rest = true →
    exec .step s = .next { s with
      raw := some v, power := some (quant v).1, pattern := some (quant v).2,
      adcState := .done, adcRes := some v,
      shift := shiftedOut s (quant v).2, latch := latchedOut s (quant v).2,
      lvlSer := levelOfBool ((quant v).2.getLsbD 7), lvlSrclk := .low, lvlRclk := .low,
      history := s.history ++ [.adcStart, .adcDone v, .adcRead v] ++ shiftoutEvents (quant v).2,
      cpc := s.cpc + 1, cur := none, ms := 0, pending := none, turns := rest.drop 47 }

/-- 44_loop R180, R182, R183, 41_sampler R111: under any schedule with no reset, a STEP entered settled and not BUSY
either holds for its conversion, or completes and shows the sample it took, whatever the state held before. That one call
of `exec` runs the whole command (log 3), and that it answers a next state at the hold (log 4), is the model's own. -/
def Obligations.StepCommandHoldsOrShowsItsSample : Prop :=
  ∀ s : State, s.ready = true → s.inited = true → s.adcState = .idle ∨ s.adcState = .done → s.settled = true →
    noReset s.turns →
    ∃ t, exec .step s = .next t ∧
      ((t.cur = some .step ∧ t.ms = 1 ∧ t.adcState = .busy ∧ t.cpc = s.cpc ∧ t.history = s.history ++ [.adcStart]
        ∧ t.latch = s.latch ∧ t.shift = s.shift)
      ∨ ∃ v, t.raw = some v ∧ t.power = some (quant v).1 ∧ t.pattern = some (quant v).2
          ∧ t.seg = Tri8.ofByte (quant v).2 ∧ t.shift = t.latch ∧ t.lvlSer = levelOfBool ((quant v).2.getLsbD 7)
          ∧ t.lvlSrclk = .low ∧ t.lvlRclk = .low ∧ t.settled = true
          ∧ t.adcState = .done ∧ t.adcRes = some v ∧ t.cpc = s.cpc + 1 ∧ t.cur = none
          ∧ t.history = s.history ++ [.adcStart, .adcDone v, .adcRead v] ++ shiftoutEvents (quant v).2)

/-- 44_loop R181: RUN goes through STEP's body once per call, from its fetch or from between two iterations, and stays in
progress with CPC at its own index. The model's own: that one call is one iteration (log 3) and that MS counts on
(log 7). -/
def Obligations.RunGoesThroughOneIteration : Prop :=
  ∀ (s : State) (v : Code) (pre : List Turn) (rest : Schedule), s.faulted = false → s.inited = true →
    s.adcState ≠ .busy → s.settled = true →
    (s.cur = none ∧ pre = [.controller, .controller] ∨
      s.cur = some .run ∧ s.ms % 47 = 0 ∧ pre = [.controller]) →
    s.turns.begins (pre ++ [.converter v]) rest → quiet 46 rest = true →
    ∃ t, exec .run s = .next t ∧ t = { s with
      raw := some v, power := some (quant v).1, pattern := some (quant v).2,
      adcState := .done, adcRes := some v,
      shift := (Tri8.ofByte (quant v).2).bitrev, latch := (Tri8.ofByte (quant v).2).bitrev,
      lvlSer := levelOfBool ((quant v).2.getLsbD 7), lvlSrclk := .low, lvlRclk := .low,
      history := s.history ++ [.adcStart, .adcDone v, .adcRead v] ++ shiftoutEvents (quant v).2,
      cur := some .run, ms := t.ms, pending := t.pending, turns := rest.drop 46 }
      ∧ t.ms = (if s.cur = none then 47 else s.ms + 47)

/-- 44_loop R181, 43_output_driver R156, R164: the same iteration from every entry with the lines driven, settled or not,
with SHIFT and LATCH as a SHIFTOUT of Quant(v).pattern entered the same way leaves them. The model's own: that one call is one
iteration (log 3) and that MS counts on (log 7). -/
def Obligations.RunIterationFromEveryEntry : Prop :=
  ∀ (s : State) (v : Code) (pre : List Turn) (rest : Schedule), s.faulted = false → s.driven = true →
    s.adcState ≠ .busy →
    (s.cur = none ∧ pre = [.controller, .controller] ∨
      s.cur = some .run ∧ s.ms % 47 = 0 ∧ pre = [.controller]) →
    s.turns.begins (pre ++ [.converter v]) rest → quiet 46 rest = true →
    ∃ t, exec .run s = .next t ∧ t = { s with
      raw := some v, power := some (quant v).1, pattern := some (quant v).2,
      adcState := .done, adcRes := some v,
      shift := shiftedOut s (quant v).2, latch := latchedOut s (quant v).2,
      lvlSer := levelOfBool ((quant v).2.getLsbD 7), lvlSrclk := .low, lvlRclk := .low,
      history := s.history ++ [.adcStart, .adcDone v, .adcRead v] ++ shiftoutEvents (quant v).2,
      cur := some .run, ms := t.ms, pending := t.pending, turns := rest.drop 46 }
      ∧ t.ms = (if s.cur = none then 47 else s.ms + 47)

/-- 44_loop R181: only a reset leaves RUN. Under any schedule with no reset a RUN in progress stays in progress, with CPC
and RESPONSES as they are, and never faults. -/
def Obligations.OnlyResetLeavesRun : Prop :=
  ∀ s t : State, Invariant s → s.cur = some .run → noReset s.turns → step s = .next t →
    t.cur = some .run ∧ t.cpc = s.cpc ∧ t.responses = s.responses ∧ t.faultCode = 0#3

/-- 44_loop R181, 41_sampler R111, 70_reset R230: where the schedule keeps giving the converter its turn and asserts no
reset, the endless run of a RUN in progress meets ADC_COMPLETES, stays in RUN, and goes through iteration after iteration without
end. The model's own: the endless schedule (log 2), the step at a hold (log 4), and MS counting on, 47 an iteration (log 7). -/
def Obligations.RunIteratesForEver : Prop :=
  ∀ s : State, Invariant s → s.cur = some .run → noReset s.turns → keepsCompleting s.turns →
    ∃ run : Nat → State, run 0 = s ∧ IsRun run ∧ AdcCompletes run ∧ (∀ n, (run n).cur = some .run)
      ∧ ∀ k, ∃ n, s.ms + 47 * k ≤ (run n).ms

/-- 41_sampler R111, R114, 44_loop R180: where the schedule keeps giving the converter its turn and asserts no reset, a SAMPLE
or STEP at its hold completes after finitely many steps. The model's own: the endless schedule (log 2) and the step at a hold
(log 4). -/
def Obligations.HoldsEndWhereCompletionsKeepComing : Prop :=
  ∀ (s : State) (i : Instr), Invariant s → s.cur = some i → i = .sample ∨ i = .step → noReset s.turns →
    keepsCompleting s.turns →
    ∃ run : Nat → State, run 0 = s ∧ IsRun run ∧ ∃ n v, (run (n + 1)).cur = none ∧ (run (n + 1)).cpc = s.cpc + 1
      ∧ (run (n + 1)).raw = some v ∧ (run (n + 1)).adcState = .done ∧ (run (n + 1)).faultCode = 0#3
      ∧ ∀ m ≤ n, (run m).cur = some i ∧ (run m).adcState = .busy ∧ (run m).cpc = s.cpc
end

