-- ==== Sys2Proof/Laws/State.lean ====
section
/-! SUPPORT. One lemma per field and per update of State: what the update leaves, so that no later proof unfolds a record
update. -/

namespace Sys2Proof.Machine

variable (s : State)


/-! ### Record -/

@[simp] theorem State.record_raw (e : Event) : (s.record e).raw = s.raw := rfl
@[simp] theorem State.record_power (e : Event) : (s.record e).power = s.power := rfl
@[simp] theorem State.record_pattern (e : Event) : (s.record e).pattern = s.pattern := rfl
@[simp] theorem State.record_dirSer (e : Event) : (s.record e).dirSer = s.dirSer := rfl
@[simp] theorem State.record_dirSrclk (e : Event) : (s.record e).dirSrclk = s.dirSrclk := rfl
@[simp] theorem State.record_dirRclk (e : Event) : (s.record e).dirRclk = s.dirRclk := rfl
@[simp] theorem State.record_lvlSer (e : Event) : (s.record e).lvlSer = s.lvlSer := rfl
@[simp] theorem State.record_lvlSrclk (e : Event) : (s.record e).lvlSrclk = s.lvlSrclk := rfl
@[simp] theorem State.record_lvlRclk (e : Event) : (s.record e).lvlRclk = s.lvlRclk := rfl
@[simp] theorem State.record_inited (e : Event) : (s.record e).inited = s.inited := rfl
@[simp] theorem State.record_adcEn (e : Event) : (s.record e).adcEn = s.adcEn := rfl
@[simp] theorem State.record_adcCh (e : Event) : (s.record e).adcCh = s.adcCh := rfl
@[simp] theorem State.record_adcRef (e : Event) : (s.record e).adcRef = s.adcRef := rfl
@[simp] theorem State.record_adcMode (e : Event) : (s.record e).adcMode = s.adcMode := rfl
@[simp] theorem State.record_adcPresc (e : Event) : (s.record e).adcPresc = s.adcPresc := rfl
@[simp] theorem State.record_adcState (e : Event) : (s.record e).adcState = s.adcState := rfl
@[simp] theorem State.record_adcRes (e : Event) : (s.record e).adcRes = s.adcRes := rfl
@[simp] theorem State.record_shift (e : Event) : (s.record e).shift = s.shift := rfl
@[simp] theorem State.record_latch (e : Event) : (s.record e).latch = s.latch := rfl
@[simp] theorem State.record_cpc (e : Event) : (s.record e).cpc = s.cpc := rfl
@[simp] theorem State.record_cur (e : Event) : (s.record e).cur = s.cur := rfl
@[simp] theorem State.record_ms (e : Event) : (s.record e).ms = s.ms := rfl
@[simp] theorem State.record_faultCode (e : Event) : (s.record e).faultCode = s.faultCode := rfl
@[simp] theorem State.record_faultCw (e : Event) : (s.record e).faultCw = s.faultCw := rfl
@[simp] theorem State.record_history (e : Event) : (s.record e).history = s.history ++ [e] := rfl
@[simp] theorem State.record_responses (e : Event) : (s.record e).responses = s.responses := rfl
@[simp] theorem State.record_pending (e : Event) : (s.record e).pending = s.pending := rfl
@[simp] theorem State.record_prog (e : Event) : (s.record e).prog = s.prog := rfl
@[simp] theorem State.record_turns (e : Event) : (s.record e).turns = s.turns := rfl

/-! ### The response kept for completion -/

@[simp] theorem State.respondLater_raw (w : Word) : (s.respondLater w).raw = s.raw := rfl
@[simp] theorem State.respondLater_power (w : Word) : (s.respondLater w).power = s.power := rfl
@[simp] theorem State.respondLater_pattern (w : Word) : (s.respondLater w).pattern = s.pattern := rfl
@[simp] theorem State.respondLater_dirSer (w : Word) : (s.respondLater w).dirSer = s.dirSer := rfl
@[simp] theorem State.respondLater_dirSrclk (w : Word) : (s.respondLater w).dirSrclk = s.dirSrclk := rfl
@[simp] theorem State.respondLater_dirRclk (w : Word) : (s.respondLater w).dirRclk = s.dirRclk := rfl
@[simp] theorem State.respondLater_lvlSer (w : Word) : (s.respondLater w).lvlSer = s.lvlSer := rfl
@[simp] theorem State.respondLater_lvlSrclk (w : Word) : (s.respondLater w).lvlSrclk = s.lvlSrclk := rfl
@[simp] theorem State.respondLater_lvlRclk (w : Word) : (s.respondLater w).lvlRclk = s.lvlRclk := rfl
@[simp] theorem State.respondLater_inited (w : Word) : (s.respondLater w).inited = s.inited := rfl
@[simp] theorem State.respondLater_adcEn (w : Word) : (s.respondLater w).adcEn = s.adcEn := rfl
@[simp] theorem State.respondLater_adcCh (w : Word) : (s.respondLater w).adcCh = s.adcCh := rfl
@[simp] theorem State.respondLater_adcRef (w : Word) : (s.respondLater w).adcRef = s.adcRef := rfl
@[simp] theorem State.respondLater_adcMode (w : Word) : (s.respondLater w).adcMode = s.adcMode := rfl
@[simp] theorem State.respondLater_adcPresc (w : Word) : (s.respondLater w).adcPresc = s.adcPresc := rfl
@[simp] theorem State.respondLater_adcState (w : Word) : (s.respondLater w).adcState = s.adcState := rfl
@[simp] theorem State.respondLater_adcRes (w : Word) : (s.respondLater w).adcRes = s.adcRes := rfl
@[simp] theorem State.respondLater_shift (w : Word) : (s.respondLater w).shift = s.shift := rfl
@[simp] theorem State.respondLater_latch (w : Word) : (s.respondLater w).latch = s.latch := rfl
@[simp] theorem State.respondLater_cpc (w : Word) : (s.respondLater w).cpc = s.cpc := rfl
@[simp] theorem State.respondLater_cur (w : Word) : (s.respondLater w).cur = s.cur := rfl
@[simp] theorem State.respondLater_ms (w : Word) : (s.respondLater w).ms = s.ms := rfl
@[simp] theorem State.respondLater_faultCode (w : Word) : (s.respondLater w).faultCode = s.faultCode := rfl
@[simp] theorem State.respondLater_faultCw (w : Word) : (s.respondLater w).faultCw = s.faultCw := rfl
@[simp] theorem State.respondLater_history (w : Word) : (s.respondLater w).history = s.history := rfl
@[simp] theorem State.respondLater_responses (w : Word) : (s.respondLater w).responses = s.responses := rfl
@[simp] theorem State.respondLater_pending (w : Word) : (s.respondLater w).pending = some w := rfl
@[simp] theorem State.respondLater_prog (w : Word) : (s.respondLater w).prog = s.prog := rfl
@[simp] theorem State.respondLater_turns (w : Word) : (s.respondLater w).turns = s.turns := rfl

/-! ### The schedule, the micro-step index, the registers and the converter -/

@[simp] theorem State.setTurns_raw (ts : Schedule) : (s.setTurns ts).raw = s.raw := rfl
@[simp] theorem State.setTurns_power (ts : Schedule) : (s.setTurns ts).power = s.power := rfl
@[simp] theorem State.setTurns_pattern (ts : Schedule) : (s.setTurns ts).pattern = s.pattern := rfl
@[simp] theorem State.setTurns_dirSer (ts : Schedule) : (s.setTurns ts).dirSer = s.dirSer := rfl
@[simp] theorem State.setTurns_dirSrclk (ts : Schedule) : (s.setTurns ts).dirSrclk = s.dirSrclk := rfl
@[simp] theorem State.setTurns_dirRclk (ts : Schedule) : (s.setTurns ts).dirRclk = s.dirRclk := rfl
@[simp] theorem State.setTurns_lvlSer (ts : Schedule) : (s.setTurns ts).lvlSer = s.lvlSer := rfl
@[simp] theorem State.setTurns_lvlSrclk (ts : Schedule) : (s.setTurns ts).lvlSrclk = s.lvlSrclk := rfl
@[simp] theorem State.setTurns_lvlRclk (ts : Schedule) : (s.setTurns ts).lvlRclk = s.lvlRclk := rfl
@[simp] theorem State.setTurns_inited (ts : Schedule) : (s.setTurns ts).inited = s.inited := rfl
@[simp] theorem State.setTurns_adcEn (ts : Schedule) : (s.setTurns ts).adcEn = s.adcEn := rfl
@[simp] theorem State.setTurns_adcCh (ts : Schedule) : (s.setTurns ts).adcCh = s.adcCh := rfl
@[simp] theorem State.setTurns_adcRef (ts : Schedule) : (s.setTurns ts).adcRef = s.adcRef := rfl
@[simp] theorem State.setTurns_adcMode (ts : Schedule) : (s.setTurns ts).adcMode = s.adcMode := rfl
@[simp] theorem State.setTurns_adcPresc (ts : Schedule) : (s.setTurns ts).adcPresc = s.adcPresc := rfl
@[simp] theorem State.setTurns_adcState (ts : Schedule) : (s.setTurns ts).adcState = s.adcState := rfl
@[simp] theorem State.setTurns_adcRes (ts : Schedule) : (s.setTurns ts).adcRes = s.adcRes := rfl
@[simp] theorem State.setTurns_shift (ts : Schedule) : (s.setTurns ts).shift = s.shift := rfl
@[simp] theorem State.setTurns_latch (ts : Schedule) : (s.setTurns ts).latch = s.latch := rfl
@[simp] theorem State.setTurns_cpc (ts : Schedule) : (s.setTurns ts).cpc = s.cpc := rfl
@[simp] theorem State.setTurns_cur (ts : Schedule) : (s.setTurns ts).cur = s.cur := rfl
@[simp] theorem State.setTurns_ms (ts : Schedule) : (s.setTurns ts).ms = s.ms := rfl
@[simp] theorem State.setTurns_faultCode (ts : Schedule) : (s.setTurns ts).faultCode = s.faultCode := rfl
@[simp] theorem State.setTurns_faultCw (ts : Schedule) : (s.setTurns ts).faultCw = s.faultCw := rfl
@[simp] theorem State.setTurns_history (ts : Schedule) : (s.setTurns ts).history = s.history := rfl
@[simp] theorem State.setTurns_responses (ts : Schedule) : (s.setTurns ts).responses = s.responses := rfl
@[simp] theorem State.setTurns_pending (ts : Schedule) : (s.setTurns ts).pending = s.pending := rfl
@[simp] theorem State.setTurns_prog (ts : Schedule) : (s.setTurns ts).prog = s.prog := rfl
@[simp] theorem State.setTurns_turns (ts : Schedule) : (s.setTurns ts).turns = ts := rfl
@[simp] theorem State.nextMicro_raw : (s.nextMicro).raw = s.raw := rfl
@[simp] theorem State.nextMicro_power : (s.nextMicro).power = s.power := rfl
@[simp] theorem State.nextMicro_pattern : (s.nextMicro).pattern = s.pattern := rfl
@[simp] theorem State.nextMicro_dirSer : (s.nextMicro).dirSer = s.dirSer := rfl
@[simp] theorem State.nextMicro_dirSrclk : (s.nextMicro).dirSrclk = s.dirSrclk := rfl
@[simp] theorem State.nextMicro_dirRclk : (s.nextMicro).dirRclk = s.dirRclk := rfl
@[simp] theorem State.nextMicro_lvlSer : (s.nextMicro).lvlSer = s.lvlSer := rfl
@[simp] theorem State.nextMicro_lvlSrclk : (s.nextMicro).lvlSrclk = s.lvlSrclk := rfl
@[simp] theorem State.nextMicro_lvlRclk : (s.nextMicro).lvlRclk = s.lvlRclk := rfl
@[simp] theorem State.nextMicro_inited : (s.nextMicro).inited = s.inited := rfl
@[simp] theorem State.nextMicro_adcEn : (s.nextMicro).adcEn = s.adcEn := rfl
@[simp] theorem State.nextMicro_adcCh : (s.nextMicro).adcCh = s.adcCh := rfl
@[simp] theorem State.nextMicro_adcRef : (s.nextMicro).adcRef = s.adcRef := rfl
@[simp] theorem State.nextMicro_adcMode : (s.nextMicro).adcMode = s.adcMode := rfl
@[simp] theorem State.nextMicro_adcPresc : (s.nextMicro).adcPresc = s.adcPresc := rfl
@[simp] theorem State.nextMicro_adcState : (s.nextMicro).adcState = s.adcState := rfl
@[simp] theorem State.nextMicro_adcRes : (s.nextMicro).adcRes = s.adcRes := rfl
@[simp] theorem State.nextMicro_shift : (s.nextMicro).shift = s.shift := rfl
@[simp] theorem State.nextMicro_latch : (s.nextMicro).latch = s.latch := rfl
@[simp] theorem State.nextMicro_cpc : (s.nextMicro).cpc = s.cpc := rfl
@[simp] theorem State.nextMicro_cur : (s.nextMicro).cur = s.cur := rfl
@[simp] theorem State.nextMicro_ms : (s.nextMicro).ms = s.ms + 1 := rfl
@[simp] theorem State.nextMicro_faultCode : (s.nextMicro).faultCode = s.faultCode := rfl
@[simp] theorem State.nextMicro_faultCw : (s.nextMicro).faultCw = s.faultCw := rfl
@[simp] theorem State.nextMicro_history : (s.nextMicro).history = s.history := rfl
@[simp] theorem State.nextMicro_responses : (s.nextMicro).responses = s.responses := rfl
@[simp] theorem State.nextMicro_pending : (s.nextMicro).pending = s.pending := rfl
@[simp] theorem State.nextMicro_prog : (s.nextMicro).prog = s.prog := rfl
@[simp] theorem State.nextMicro_turns : (s.nextMicro).turns = s.turns := rfl
@[simp] theorem State.setRaw_raw (v : Code) : (s.setRaw v).raw = some v := rfl
@[simp] theorem State.setRaw_power (v : Code) : (s.setRaw v).power = s.power := rfl
@[simp] theorem State.setRaw_pattern (v : Code) : (s.setRaw v).pattern = s.pattern := rfl
@[simp] theorem State.setRaw_dirSer (v : Code) : (s.setRaw v).dirSer = s.dirSer := rfl
@[simp] theorem State.setRaw_dirSrclk (v : Code) : (s.setRaw v).dirSrclk = s.dirSrclk := rfl
@[simp] theorem State.setRaw_dirRclk (v : Code) : (s.setRaw v).dirRclk = s.dirRclk := rfl
@[simp] theorem State.setRaw_lvlSer (v : Code) : (s.setRaw v).lvlSer = s.lvlSer := rfl
@[simp] theorem State.setRaw_lvlSrclk (v : Code) : (s.setRaw v).lvlSrclk = s.lvlSrclk := rfl
@[simp] theorem State.setRaw_lvlRclk (v : Code) : (s.setRaw v).lvlRclk = s.lvlRclk := rfl
@[simp] theorem State.setRaw_inited (v : Code) : (s.setRaw v).inited = s.inited := rfl
@[simp] theorem State.setRaw_adcEn (v : Code) : (s.setRaw v).adcEn = s.adcEn := rfl
@[simp] theorem State.setRaw_adcCh (v : Code) : (s.setRaw v).adcCh = s.adcCh := rfl
@[simp] theorem State.setRaw_adcRef (v : Code) : (s.setRaw v).adcRef = s.adcRef := rfl
@[simp] theorem State.setRaw_adcMode (v : Code) : (s.setRaw v).adcMode = s.adcMode := rfl
@[simp] theorem State.setRaw_adcPresc (v : Code) : (s.setRaw v).adcPresc = s.adcPresc := rfl
@[simp] theorem State.setRaw_adcState (v : Code) : (s.setRaw v).adcState = s.adcState := rfl
@[simp] theorem State.setRaw_adcRes (v : Code) : (s.setRaw v).adcRes = s.adcRes := rfl
@[simp] theorem State.setRaw_shift (v : Code) : (s.setRaw v).shift = s.shift := rfl
@[simp] theorem State.setRaw_latch (v : Code) : (s.setRaw v).latch = s.latch := rfl
@[simp] theorem State.setRaw_cpc (v : Code) : (s.setRaw v).cpc = s.cpc := rfl
@[simp] theorem State.setRaw_cur (v : Code) : (s.setRaw v).cur = s.cur := rfl
@[simp] theorem State.setRaw_ms (v : Code) : (s.setRaw v).ms = s.ms := rfl
@[simp] theorem State.setRaw_faultCode (v : Code) : (s.setRaw v).faultCode = s.faultCode := rfl
@[simp] theorem State.setRaw_faultCw (v : Code) : (s.setRaw v).faultCw = s.faultCw := rfl
@[simp] theorem State.setRaw_history (v : Code) : (s.setRaw v).history = s.history := rfl
@[simp] theorem State.setRaw_responses (v : Code) : (s.setRaw v).responses = s.responses := rfl
@[simp] theorem State.setRaw_pending (v : Code) : (s.setRaw v).pending = s.pending := rfl
@[simp] theorem State.setRaw_prog (v : Code) : (s.setRaw v).prog = s.prog := rfl
@[simp] theorem State.setRaw_turns (v : Code) : (s.setRaw v).turns = s.turns := rfl
@[simp] theorem State.setPattern_raw (b : Byte) : (s.setPattern b).raw = s.raw := rfl
@[simp] theorem State.setPattern_power (b : Byte) : (s.setPattern b).power = s.power := rfl
@[simp] theorem State.setPattern_pattern (b : Byte) : (s.setPattern b).pattern = some b := rfl
@[simp] theorem State.setPattern_dirSer (b : Byte) : (s.setPattern b).dirSer = s.dirSer := rfl
@[simp] theorem State.setPattern_dirSrclk (b : Byte) : (s.setPattern b).dirSrclk = s.dirSrclk := rfl
@[simp] theorem State.setPattern_dirRclk (b : Byte) : (s.setPattern b).dirRclk = s.dirRclk := rfl
@[simp] theorem State.setPattern_lvlSer (b : Byte) : (s.setPattern b).lvlSer = s.lvlSer := rfl
@[simp] theorem State.setPattern_lvlSrclk (b : Byte) : (s.setPattern b).lvlSrclk = s.lvlSrclk := rfl
@[simp] theorem State.setPattern_lvlRclk (b : Byte) : (s.setPattern b).lvlRclk = s.lvlRclk := rfl
@[simp] theorem State.setPattern_inited (b : Byte) : (s.setPattern b).inited = s.inited := rfl
@[simp] theorem State.setPattern_adcEn (b : Byte) : (s.setPattern b).adcEn = s.adcEn := rfl
@[simp] theorem State.setPattern_adcCh (b : Byte) : (s.setPattern b).adcCh = s.adcCh := rfl
@[simp] theorem State.setPattern_adcRef (b : Byte) : (s.setPattern b).adcRef = s.adcRef := rfl
@[simp] theorem State.setPattern_adcMode (b : Byte) : (s.setPattern b).adcMode = s.adcMode := rfl
@[simp] theorem State.setPattern_adcPresc (b : Byte) : (s.setPattern b).adcPresc = s.adcPresc := rfl
@[simp] theorem State.setPattern_adcState (b : Byte) : (s.setPattern b).adcState = s.adcState := rfl
@[simp] theorem State.setPattern_adcRes (b : Byte) : (s.setPattern b).adcRes = s.adcRes := rfl
@[simp] theorem State.setPattern_shift (b : Byte) : (s.setPattern b).shift = s.shift := rfl
@[simp] theorem State.setPattern_latch (b : Byte) : (s.setPattern b).latch = s.latch := rfl
@[simp] theorem State.setPattern_cpc (b : Byte) : (s.setPattern b).cpc = s.cpc := rfl
@[simp] theorem State.setPattern_cur (b : Byte) : (s.setPattern b).cur = s.cur := rfl
@[simp] theorem State.setPattern_ms (b : Byte) : (s.setPattern b).ms = s.ms := rfl
@[simp] theorem State.setPattern_faultCode (b : Byte) : (s.setPattern b).faultCode = s.faultCode := rfl
@[simp] theorem State.setPattern_faultCw (b : Byte) : (s.setPattern b).faultCw = s.faultCw := rfl
@[simp] theorem State.setPattern_history (b : Byte) : (s.setPattern b).history = s.history := rfl
@[simp] theorem State.setPattern_responses (b : Byte) : (s.setPattern b).responses = s.responses := rfl
@[simp] theorem State.setPattern_pending (b : Byte) : (s.setPattern b).pending = s.pending := rfl
@[simp] theorem State.setPattern_prog (b : Byte) : (s.setPattern b).prog = s.prog := rfl
@[simp] theorem State.setPattern_turns (b : Byte) : (s.setPattern b).turns = s.turns := rfl
@[simp] theorem State.setMapped_raw (v : Code) : (s.setMapped v).raw = s.raw := rfl
@[simp] theorem State.setMapped_power (v : Code) : (s.setMapped v).power = some (quant v).1 := rfl
@[simp] theorem State.setMapped_pattern (v : Code) : (s.setMapped v).pattern = some (quant v).2 := rfl
@[simp] theorem State.setMapped_dirSer (v : Code) : (s.setMapped v).dirSer = s.dirSer := rfl
@[simp] theorem State.setMapped_dirSrclk (v : Code) : (s.setMapped v).dirSrclk = s.dirSrclk := rfl
@[simp] theorem State.setMapped_dirRclk (v : Code) : (s.setMapped v).dirRclk = s.dirRclk := rfl
@[simp] theorem State.setMapped_lvlSer (v : Code) : (s.setMapped v).lvlSer = s.lvlSer := rfl
@[simp] theorem State.setMapped_lvlSrclk (v : Code) : (s.setMapped v).lvlSrclk = s.lvlSrclk := rfl
@[simp] theorem State.setMapped_lvlRclk (v : Code) : (s.setMapped v).lvlRclk = s.lvlRclk := rfl
@[simp] theorem State.setMapped_inited (v : Code) : (s.setMapped v).inited = s.inited := rfl
@[simp] theorem State.setMapped_adcEn (v : Code) : (s.setMapped v).adcEn = s.adcEn := rfl
@[simp] theorem State.setMapped_adcCh (v : Code) : (s.setMapped v).adcCh = s.adcCh := rfl
@[simp] theorem State.setMapped_adcRef (v : Code) : (s.setMapped v).adcRef = s.adcRef := rfl
@[simp] theorem State.setMapped_adcMode (v : Code) : (s.setMapped v).adcMode = s.adcMode := rfl
@[simp] theorem State.setMapped_adcPresc (v : Code) : (s.setMapped v).adcPresc = s.adcPresc := rfl
@[simp] theorem State.setMapped_adcState (v : Code) : (s.setMapped v).adcState = s.adcState := rfl
@[simp] theorem State.setMapped_adcRes (v : Code) : (s.setMapped v).adcRes = s.adcRes := rfl
@[simp] theorem State.setMapped_shift (v : Code) : (s.setMapped v).shift = s.shift := rfl
@[simp] theorem State.setMapped_latch (v : Code) : (s.setMapped v).latch = s.latch := rfl
@[simp] theorem State.setMapped_cpc (v : Code) : (s.setMapped v).cpc = s.cpc := rfl
@[simp] theorem State.setMapped_cur (v : Code) : (s.setMapped v).cur = s.cur := rfl
@[simp] theorem State.setMapped_ms (v : Code) : (s.setMapped v).ms = s.ms := rfl
@[simp] theorem State.setMapped_faultCode (v : Code) : (s.setMapped v).faultCode = s.faultCode := rfl
@[simp] theorem State.setMapped_faultCw (v : Code) : (s.setMapped v).faultCw = s.faultCw := rfl
@[simp] theorem State.setMapped_history (v : Code) : (s.setMapped v).history = s.history := rfl
@[simp] theorem State.setMapped_responses (v : Code) : (s.setMapped v).responses = s.responses := rfl
@[simp] theorem State.setMapped_pending (v : Code) : (s.setMapped v).pending = s.pending := rfl
@[simp] theorem State.setMapped_prog (v : Code) : (s.setMapped v).prog = s.prog := rfl
@[simp] theorem State.setMapped_turns (v : Code) : (s.setMapped v).turns = s.turns := rfl
@[simp] theorem State.adcToBusy_raw : (s.adcToBusy).raw = s.raw := rfl
@[simp] theorem State.adcToBusy_power : (s.adcToBusy).power = s.power := rfl
@[simp] theorem State.adcToBusy_pattern : (s.adcToBusy).pattern = s.pattern := rfl
@[simp] theorem State.adcToBusy_dirSer : (s.adcToBusy).dirSer = s.dirSer := rfl
@[simp] theorem State.adcToBusy_dirSrclk : (s.adcToBusy).dirSrclk = s.dirSrclk := rfl
@[simp] theorem State.adcToBusy_dirRclk : (s.adcToBusy).dirRclk = s.dirRclk := rfl
@[simp] theorem State.adcToBusy_lvlSer : (s.adcToBusy).lvlSer = s.lvlSer := rfl
@[simp] theorem State.adcToBusy_lvlSrclk : (s.adcToBusy).lvlSrclk = s.lvlSrclk := rfl
@[simp] theorem State.adcToBusy_lvlRclk : (s.adcToBusy).lvlRclk = s.lvlRclk := rfl
@[simp] theorem State.adcToBusy_inited : (s.adcToBusy).inited = s.inited := rfl
@[simp] theorem State.adcToBusy_adcEn : (s.adcToBusy).adcEn = s.adcEn := rfl
@[simp] theorem State.adcToBusy_adcCh : (s.adcToBusy).adcCh = s.adcCh := rfl
@[simp] theorem State.adcToBusy_adcRef : (s.adcToBusy).adcRef = s.adcRef := rfl
@[simp] theorem State.adcToBusy_adcMode : (s.adcToBusy).adcMode = s.adcMode := rfl
@[simp] theorem State.adcToBusy_adcPresc : (s.adcToBusy).adcPresc = s.adcPresc := rfl
@[simp] theorem State.adcToBusy_adcState : (s.adcToBusy).adcState = .busy := rfl
@[simp] theorem State.adcToBusy_adcRes : (s.adcToBusy).adcRes = none := rfl
@[simp] theorem State.adcToBusy_shift : (s.adcToBusy).shift = s.shift := rfl
@[simp] theorem State.adcToBusy_latch : (s.adcToBusy).latch = s.latch := rfl
@[simp] theorem State.adcToBusy_cpc : (s.adcToBusy).cpc = s.cpc := rfl
@[simp] theorem State.adcToBusy_cur : (s.adcToBusy).cur = s.cur := rfl
@[simp] theorem State.adcToBusy_ms : (s.adcToBusy).ms = s.ms := rfl
@[simp] theorem State.adcToBusy_faultCode : (s.adcToBusy).faultCode = s.faultCode := rfl
@[simp] theorem State.adcToBusy_faultCw : (s.adcToBusy).faultCw = s.faultCw := rfl
@[simp] theorem State.adcToBusy_history : (s.adcToBusy).history = s.history := rfl
@[simp] theorem State.adcToBusy_responses : (s.adcToBusy).responses = s.responses := rfl
@[simp] theorem State.adcToBusy_pending : (s.adcToBusy).pending = s.pending := rfl
@[simp] theorem State.adcToBusy_prog : (s.adcToBusy).prog = s.prog := rfl
@[simp] theorem State.adcToBusy_turns : (s.adcToBusy).turns = s.turns := rfl
@[simp] theorem State.adcToDone_raw (v : Code) : (s.adcToDone v).raw = s.raw := rfl
@[simp] theorem State.adcToDone_power (v : Code) : (s.adcToDone v).power = s.power := rfl
@[simp] theorem State.adcToDone_pattern (v : Code) : (s.adcToDone v).pattern = s.pattern := rfl
@[simp] theorem State.adcToDone_dirSer (v : Code) : (s.adcToDone v).dirSer = s.dirSer := rfl
@[simp] theorem State.adcToDone_dirSrclk (v : Code) : (s.adcToDone v).dirSrclk = s.dirSrclk := rfl
@[simp] theorem State.adcToDone_dirRclk (v : Code) : (s.adcToDone v).dirRclk = s.dirRclk := rfl
@[simp] theorem State.adcToDone_lvlSer (v : Code) : (s.adcToDone v).lvlSer = s.lvlSer := rfl
@[simp] theorem State.adcToDone_lvlSrclk (v : Code) : (s.adcToDone v).lvlSrclk = s.lvlSrclk := rfl
@[simp] theorem State.adcToDone_lvlRclk (v : Code) : (s.adcToDone v).lvlRclk = s.lvlRclk := rfl
@[simp] theorem State.adcToDone_inited (v : Code) : (s.adcToDone v).inited = s.inited := rfl
@[simp] theorem State.adcToDone_adcEn (v : Code) : (s.adcToDone v).adcEn = s.adcEn := rfl
@[simp] theorem State.adcToDone_adcCh (v : Code) : (s.adcToDone v).adcCh = s.adcCh := rfl
@[simp] theorem State.adcToDone_adcRef (v : Code) : (s.adcToDone v).adcRef = s.adcRef := rfl
@[simp] theorem State.adcToDone_adcMode (v : Code) : (s.adcToDone v).adcMode = s.adcMode := rfl
@[simp] theorem State.adcToDone_adcPresc (v : Code) : (s.adcToDone v).adcPresc = s.adcPresc := rfl
@[simp] theorem State.adcToDone_adcState (v : Code) : (s.adcToDone v).adcState = .done := rfl
@[simp] theorem State.adcToDone_adcRes (v : Code) : (s.adcToDone v).adcRes = some v := rfl
@[simp] theorem State.adcToDone_shift (v : Code) : (s.adcToDone v).shift = s.shift := rfl
@[simp] theorem State.adcToDone_latch (v : Code) : (s.adcToDone v).latch = s.latch := rfl
@[simp] theorem State.adcToDone_cpc (v : Code) : (s.adcToDone v).cpc = s.cpc := rfl
@[simp] theorem State.adcToDone_cur (v : Code) : (s.adcToDone v).cur = s.cur := rfl
@[simp] theorem State.adcToDone_ms (v : Code) : (s.adcToDone v).ms = s.ms := rfl
@[simp] theorem State.adcToDone_faultCode (v : Code) : (s.adcToDone v).faultCode = s.faultCode := rfl
@[simp] theorem State.adcToDone_faultCw (v : Code) : (s.adcToDone v).faultCw = s.faultCw := rfl
@[simp] theorem State.adcToDone_history (v : Code) : (s.adcToDone v).history = s.history := rfl
@[simp] theorem State.adcToDone_responses (v : Code) : (s.adcToDone v).responses = s.responses := rfl
@[simp] theorem State.adcToDone_pending (v : Code) : (s.adcToDone v).pending = s.pending := rfl
@[simp] theorem State.adcToDone_prog (v : Code) : (s.adcToDone v).prog = s.prog := rfl
@[simp] theorem State.adcToDone_turns (v : Code) : (s.adcToDone v).turns = s.turns := rfl
@[simp] theorem State.configured_raw : (s.configured).raw = s.raw := rfl
@[simp] theorem State.configured_power : (s.configured).power = s.power := rfl
@[simp] theorem State.configured_pattern : (s.configured).pattern = s.pattern := rfl
@[simp] theorem State.configured_dirSer : (s.configured).dirSer = .output := rfl
@[simp] theorem State.configured_dirSrclk : (s.configured).dirSrclk = .output := rfl
@[simp] theorem State.configured_dirRclk : (s.configured).dirRclk = .output := rfl
@[simp] theorem State.configured_lvlSer : (s.configured).lvlSer = .low := rfl
@[simp] theorem State.configured_lvlSrclk : (s.configured).lvlSrclk = .low := rfl
@[simp] theorem State.configured_lvlRclk : (s.configured).lvlRclk = .low := rfl
@[simp] theorem State.configured_inited : (s.configured).inited = true := rfl
@[simp] theorem State.configured_adcEn : (s.configured).adcEn = true := rfl
@[simp] theorem State.configured_adcCh : (s.configured).adcCh = some .channel0 := rfl
@[simp] theorem State.configured_adcRef : (s.configured).adcRef = some .supply := rfl
@[simp] theorem State.configured_adcMode : (s.configured).adcMode = some .singleEnded := rfl
@[simp] theorem State.configured_adcPresc : (s.configured).adcPresc = some .div64 := rfl
@[simp] theorem State.configured_adcState : (s.configured).adcState = .idle := rfl
@[simp] theorem State.configured_adcRes : (s.configured).adcRes = none := rfl
@[simp] theorem State.configured_shift : (s.configured).shift = s.shift := rfl
@[simp] theorem State.configured_latch : (s.configured).latch = s.latch := rfl
@[simp] theorem State.configured_cpc : (s.configured).cpc = s.cpc := rfl
@[simp] theorem State.configured_cur : (s.configured).cur = s.cur := rfl
@[simp] theorem State.configured_ms : (s.configured).ms = s.ms := rfl
@[simp] theorem State.configured_faultCode : (s.configured).faultCode = s.faultCode := rfl
@[simp] theorem State.configured_faultCw : (s.configured).faultCw = s.faultCw := rfl
@[simp] theorem State.configured_history : (s.configured).history = s.history := rfl
@[simp] theorem State.configured_responses : (s.configured).responses = s.responses := rfl
@[simp] theorem State.configured_pending : (s.configured).pending = s.pending := rfl
@[simp] theorem State.configured_prog : (s.configured).prog = s.prog := rfl
@[simp] theorem State.configured_turns : (s.configured).turns = s.turns := rfl

/-! ### CUR <- cmd -/

@[simp] theorem begin_raw (i : Instr) : (begin i s).raw = s.raw := rfl
@[simp] theorem begin_power (i : Instr) : (begin i s).power = s.power := rfl
@[simp] theorem begin_pattern (i : Instr) : (begin i s).pattern = s.pattern := rfl
@[simp] theorem begin_dirSer (i : Instr) : (begin i s).dirSer = s.dirSer := rfl
@[simp] theorem begin_dirSrclk (i : Instr) : (begin i s).dirSrclk = s.dirSrclk := rfl
@[simp] theorem begin_dirRclk (i : Instr) : (begin i s).dirRclk = s.dirRclk := rfl
@[simp] theorem begin_lvlSer (i : Instr) : (begin i s).lvlSer = s.lvlSer := rfl
@[simp] theorem begin_lvlSrclk (i : Instr) : (begin i s).lvlSrclk = s.lvlSrclk := rfl
@[simp] theorem begin_lvlRclk (i : Instr) : (begin i s).lvlRclk = s.lvlRclk := rfl
@[simp] theorem begin_inited (i : Instr) : (begin i s).inited = s.inited := rfl
@[simp] theorem begin_adcEn (i : Instr) : (begin i s).adcEn = s.adcEn := rfl
@[simp] theorem begin_adcCh (i : Instr) : (begin i s).adcCh = s.adcCh := rfl
@[simp] theorem begin_adcRef (i : Instr) : (begin i s).adcRef = s.adcRef := rfl
@[simp] theorem begin_adcMode (i : Instr) : (begin i s).adcMode = s.adcMode := rfl
@[simp] theorem begin_adcPresc (i : Instr) : (begin i s).adcPresc = s.adcPresc := rfl
@[simp] theorem begin_adcState (i : Instr) : (begin i s).adcState = s.adcState := rfl
@[simp] theorem begin_adcRes (i : Instr) : (begin i s).adcRes = s.adcRes := rfl
@[simp] theorem begin_shift (i : Instr) : (begin i s).shift = s.shift := rfl
@[simp] theorem begin_latch (i : Instr) : (begin i s).latch = s.latch := rfl
@[simp] theorem begin_cpc (i : Instr) : (begin i s).cpc = s.cpc := rfl
@[simp] theorem begin_cur (i : Instr) : (begin i s).cur = some i := rfl
@[simp] theorem begin_ms (i : Instr) : (begin i s).ms = 0 := rfl
@[simp] theorem begin_faultCode (i : Instr) : (begin i s).faultCode = s.faultCode := rfl
@[simp] theorem begin_faultCw (i : Instr) : (begin i s).faultCw = s.faultCw := rfl
@[simp] theorem begin_history (i : Instr) : (begin i s).history = s.history := rfl
@[simp] theorem begin_responses (i : Instr) : (begin i s).responses = s.responses := rfl
@[simp] theorem begin_pending (i : Instr) : (begin i s).pending = none := rfl
@[simp] theorem begin_prog (i : Instr) : (begin i s).prog = s.prog := rfl
@[simp] theorem begin_turns (i : Instr) : (begin i s).turns = s.turns := rfl

/-! ### raise -/

@[simp] theorem raise_raw (f : FaultName) (cw : Word) : (raise f cw s).raw = s.raw := rfl
@[simp] theorem raise_power (f : FaultName) (cw : Word) : (raise f cw s).power = s.power := rfl
@[simp] theorem raise_pattern (f : FaultName) (cw : Word) : (raise f cw s).pattern = s.pattern := rfl
@[simp] theorem raise_dirSer (f : FaultName) (cw : Word) : (raise f cw s).dirSer = s.dirSer := rfl
@[simp] theorem raise_dirSrclk (f : FaultName) (cw : Word) : (raise f cw s).dirSrclk = s.dirSrclk := rfl
@[simp] theorem raise_dirRclk (f : FaultName) (cw : Word) : (raise f cw s).dirRclk = s.dirRclk := rfl
@[simp] theorem raise_lvlSer (f : FaultName) (cw : Word) : (raise f cw s).lvlSer = s.lvlSer := rfl
@[simp] theorem raise_lvlSrclk (f : FaultName) (cw : Word) : (raise f cw s).lvlSrclk = s.lvlSrclk := rfl
@[simp] theorem raise_lvlRclk (f : FaultName) (cw : Word) : (raise f cw s).lvlRclk = s.lvlRclk := rfl
@[simp] theorem raise_inited (f : FaultName) (cw : Word) : (raise f cw s).inited = s.inited := rfl
@[simp] theorem raise_adcEn (f : FaultName) (cw : Word) : (raise f cw s).adcEn = s.adcEn := rfl
@[simp] theorem raise_adcCh (f : FaultName) (cw : Word) : (raise f cw s).adcCh = s.adcCh := rfl
@[simp] theorem raise_adcRef (f : FaultName) (cw : Word) : (raise f cw s).adcRef = s.adcRef := rfl
@[simp] theorem raise_adcMode (f : FaultName) (cw : Word) : (raise f cw s).adcMode = s.adcMode := rfl
@[simp] theorem raise_adcPresc (f : FaultName) (cw : Word) : (raise f cw s).adcPresc = s.adcPresc := rfl
@[simp] theorem raise_adcState (f : FaultName) (cw : Word) : (raise f cw s).adcState = s.adcState := rfl
@[simp] theorem raise_adcRes (f : FaultName) (cw : Word) : (raise f cw s).adcRes = s.adcRes := rfl
@[simp] theorem raise_shift (f : FaultName) (cw : Word) : (raise f cw s).shift = s.shift := rfl
@[simp] theorem raise_latch (f : FaultName) (cw : Word) : (raise f cw s).latch = s.latch := rfl
@[simp] theorem raise_cpc (f : FaultName) (cw : Word) : (raise f cw s).cpc = s.cpc := rfl
@[simp] theorem raise_cur (f : FaultName) (cw : Word) : (raise f cw s).cur = none := rfl
@[simp] theorem raise_ms (f : FaultName) (cw : Word) : (raise f cw s).ms = 0 := rfl
@[simp] theorem raise_faultCode (f : FaultName) (cw : Word) : (raise f cw s).faultCode = faultCodeOf f := rfl
@[simp] theorem raise_faultCw (f : FaultName) (cw : Word) : (raise f cw s).faultCw = cw := rfl
@[simp] theorem raise_history (f : FaultName) (cw : Word) : (raise f cw s).history = s.history ++ [.fault (faultCodeOf f) cw] := rfl
@[simp] theorem raise_responses (f : FaultName) (cw : Word) : (raise f cw s).responses = s.responses := rfl
@[simp] theorem raise_pending (f : FaultName) (cw : Word) : (raise f cw s).pending = none := rfl
@[simp] theorem raise_prog (f : FaultName) (cw : Word) : (raise f cw s).prog = s.prog := rfl
@[simp] theorem raise_turns (f : FaultName) (cw : Word) : (raise f cw s).turns = s.turns := rfl

/-! ### The sequencer after a completed command -/

@[simp] theorem State.completed_raw (n : Nat) : (s.completed n).raw = s.raw := rfl
@[simp] theorem State.completed_power (n : Nat) : (s.completed n).power = s.power := rfl
@[simp] theorem State.completed_pattern (n : Nat) : (s.completed n).pattern = s.pattern := rfl
@[simp] theorem State.completed_dirSer (n : Nat) : (s.completed n).dirSer = s.dirSer := rfl
@[simp] theorem State.completed_dirSrclk (n : Nat) : (s.completed n).dirSrclk = s.dirSrclk := rfl
@[simp] theorem State.completed_dirRclk (n : Nat) : (s.completed n).dirRclk = s.dirRclk := rfl
@[simp] theorem State.completed_lvlSer (n : Nat) : (s.completed n).lvlSer = s.lvlSer := rfl
@[simp] theorem State.completed_lvlSrclk (n : Nat) : (s.completed n).lvlSrclk = s.lvlSrclk := rfl
@[simp] theorem State.completed_lvlRclk (n : Nat) : (s.completed n).lvlRclk = s.lvlRclk := rfl
@[simp] theorem State.completed_inited (n : Nat) : (s.completed n).inited = s.inited := rfl
@[simp] theorem State.completed_adcEn (n : Nat) : (s.completed n).adcEn = s.adcEn := rfl
@[simp] theorem State.completed_adcCh (n : Nat) : (s.completed n).adcCh = s.adcCh := rfl
@[simp] theorem State.completed_adcRef (n : Nat) : (s.completed n).adcRef = s.adcRef := rfl
@[simp] theorem State.completed_adcMode (n : Nat) : (s.completed n).adcMode = s.adcMode := rfl
@[simp] theorem State.completed_adcPresc (n : Nat) : (s.completed n).adcPresc = s.adcPresc := rfl
@[simp] theorem State.completed_adcState (n : Nat) : (s.completed n).adcState = s.adcState := rfl
@[simp] theorem State.completed_adcRes (n : Nat) : (s.completed n).adcRes = s.adcRes := rfl
@[simp] theorem State.completed_shift (n : Nat) : (s.completed n).shift = s.shift := rfl
@[simp] theorem State.completed_latch (n : Nat) : (s.completed n).latch = s.latch := rfl
@[simp] theorem State.completed_cpc (n : Nat) : (s.completed n).cpc = s.cpc + 1 := rfl
@[simp] theorem State.completed_cur (n : Nat) : (s.completed n).cur = none := rfl
@[simp] theorem State.completed_ms (n : Nat) : (s.completed n).ms = 0 := rfl
@[simp] theorem State.completed_faultCode (n : Nat) : (s.completed n).faultCode = s.faultCode := rfl
@[simp] theorem State.completed_faultCw (n : Nat) : (s.completed n).faultCw = s.faultCw := rfl
@[simp] theorem State.completed_history (n : Nat) : (s.completed n).history = s.history := rfl
@[simp] theorem State.completed_responses (n : Nat) : (s.completed n).responses = s.responses := rfl
@[simp] theorem State.completed_pending (n : Nat) : (s.completed n).pending = none := rfl
@[simp] theorem State.completed_prog (n : Nat) : (s.completed n).prog = s.prog := rfl
@[simp] theorem State.completed_turns (n : Nat) : (s.completed n).turns = s.turns.drop n := rfl

/-! ### Respond and completion -/

@[simp] theorem respond_raw (i : Instr) : (respond i s).raw = s.raw := by unfold respond; split <;> rfl
@[simp] theorem respond_power (i : Instr) : (respond i s).power = s.power := by unfold respond; split <;> rfl
@[simp] theorem respond_pattern (i : Instr) : (respond i s).pattern = s.pattern := by unfold respond; split <;> rfl
@[simp] theorem respond_dirSer (i : Instr) : (respond i s).dirSer = s.dirSer := by unfold respond; split <;> rfl
@[simp] theorem respond_dirSrclk (i : Instr) : (respond i s).dirSrclk = s.dirSrclk := by unfold respond; split <;> rfl
@[simp] theorem respond_dirRclk (i : Instr) : (respond i s).dirRclk = s.dirRclk := by unfold respond; split <;> rfl
@[simp] theorem respond_lvlSer (i : Instr) : (respond i s).lvlSer = s.lvlSer := by unfold respond; split <;> rfl
@[simp] theorem respond_lvlSrclk (i : Instr) : (respond i s).lvlSrclk = s.lvlSrclk := by unfold respond; split <;> rfl
@[simp] theorem respond_lvlRclk (i : Instr) : (respond i s).lvlRclk = s.lvlRclk := by unfold respond; split <;> rfl
@[simp] theorem respond_inited (i : Instr) : (respond i s).inited = s.inited := by unfold respond; split <;> rfl
@[simp] theorem respond_adcEn (i : Instr) : (respond i s).adcEn = s.adcEn := by unfold respond; split <;> rfl
@[simp] theorem respond_adcCh (i : Instr) : (respond i s).adcCh = s.adcCh := by unfold respond; split <;> rfl
@[simp] theorem respond_adcRef (i : Instr) : (respond i s).adcRef = s.adcRef := by unfold respond; split <;> rfl
@[simp] theorem respond_adcMode (i : Instr) : (respond i s).adcMode = s.adcMode := by unfold respond; split <;> rfl
@[simp] theorem respond_adcPresc (i : Instr) : (respond i s).adcPresc = s.adcPresc := by unfold respond; split <;> rfl
@[simp] theorem respond_adcState (i : Instr) : (respond i s).adcState = s.adcState := by unfold respond; split <;> rfl
@[simp] theorem respond_adcRes (i : Instr) : (respond i s).adcRes = s.adcRes := by unfold respond; split <;> rfl
@[simp] theorem respond_shift (i : Instr) : (respond i s).shift = s.shift := by unfold respond; split <;> rfl
@[simp] theorem respond_latch (i : Instr) : (respond i s).latch = s.latch := by unfold respond; split <;> rfl
@[simp] theorem respond_cpc (i : Instr) : (respond i s).cpc = s.cpc := by unfold respond; split <;> rfl
@[simp] theorem respond_cur (i : Instr) : (respond i s).cur = s.cur := by unfold respond; split <;> rfl
@[simp] theorem respond_ms (i : Instr) : (respond i s).ms = s.ms := by unfold respond; split <;> rfl
@[simp] theorem respond_faultCode (i : Instr) : (respond i s).faultCode = s.faultCode := by unfold respond; split <;> rfl
@[simp] theorem respond_faultCw (i : Instr) : (respond i s).faultCw = s.faultCw := by unfold respond; split <;> rfl
@[simp] theorem respond_history (i : Instr) : (respond i s).history = s.history := by unfold respond; split <;> rfl
@[simp] theorem respond_pending (i : Instr) : (respond i s).pending = s.pending := by unfold respond; split <;> rfl
@[simp] theorem respond_prog (i : Instr) : (respond i s).prog = s.prog := by unfold respond; split <;> rfl
@[simp] theorem respond_turns (i : Instr) : (respond i s).turns = s.turns := by unfold respond; split <;> rfl
@[simp] theorem finish_cpc (i : Instr) : (finish i s).cpc = s.cpc + 1 := rfl
@[simp] theorem finish_cur (i : Instr) : (finish i s).cur = none := rfl
@[simp] theorem finish_ms (i : Instr) : (finish i s).ms = 0 := rfl
@[simp] theorem finish_pending (i : Instr) : (finish i s).pending = none := rfl
@[simp] theorem finish_responses (i : Instr) : (finish i s).responses = (respond i s).responses := rfl
@[simp] theorem finish_raw (i : Instr) : (finish i s).raw = s.raw := respond_raw s i
@[simp] theorem finish_power (i : Instr) : (finish i s).power = s.power := respond_power s i
@[simp] theorem finish_pattern (i : Instr) : (finish i s).pattern = s.pattern := respond_pattern s i
@[simp] theorem finish_dirSer (i : Instr) : (finish i s).dirSer = s.dirSer := respond_dirSer s i
@[simp] theorem finish_dirSrclk (i : Instr) : (finish i s).dirSrclk = s.dirSrclk := respond_dirSrclk s i
@[simp] theorem finish_dirRclk (i : Instr) : (finish i s).dirRclk = s.dirRclk := respond_dirRclk s i
@[simp] theorem finish_lvlSer (i : Instr) : (finish i s).lvlSer = s.lvlSer := respond_lvlSer s i
@[simp] theorem finish_lvlSrclk (i : Instr) : (finish i s).lvlSrclk = s.lvlSrclk := respond_lvlSrclk s i
@[simp] theorem finish_lvlRclk (i : Instr) : (finish i s).lvlRclk = s.lvlRclk := respond_lvlRclk s i
@[simp] theorem finish_inited (i : Instr) : (finish i s).inited = s.inited := respond_inited s i
@[simp] theorem finish_adcEn (i : Instr) : (finish i s).adcEn = s.adcEn := respond_adcEn s i
@[simp] theorem finish_adcCh (i : Instr) : (finish i s).adcCh = s.adcCh := respond_adcCh s i
@[simp] theorem finish_adcRef (i : Instr) : (finish i s).adcRef = s.adcRef := respond_adcRef s i
@[simp] theorem finish_adcMode (i : Instr) : (finish i s).adcMode = s.adcMode := respond_adcMode s i
@[simp] theorem finish_adcPresc (i : Instr) : (finish i s).adcPresc = s.adcPresc := respond_adcPresc s i
@[simp] theorem finish_adcState (i : Instr) : (finish i s).adcState = s.adcState := respond_adcState s i
@[simp] theorem finish_adcRes (i : Instr) : (finish i s).adcRes = s.adcRes := respond_adcRes s i
@[simp] theorem finish_shift (i : Instr) : (finish i s).shift = s.shift := respond_shift s i
@[simp] theorem finish_latch (i : Instr) : (finish i s).latch = s.latch := respond_latch s i
@[simp] theorem finish_faultCode (i : Instr) : (finish i s).faultCode = s.faultCode := respond_faultCode s i
@[simp] theorem finish_faultCw (i : Instr) : (finish i s).faultCw = s.faultCw := respond_faultCw s i
@[simp] theorem finish_history (i : Instr) : (finish i s).history = s.history := respond_history s i
@[simp] theorem finish_prog (i : Instr) : (finish i s).prog = s.prog := respond_prog s i
@[simp] theorem finish_turns (i : Instr) : (finish i s).turns = s.turns := respond_turns s i

/-! ### Line levels -/

@[simp] theorem State.setLvl_raw (l : Line) (v : Level) : (s.setLvl l v).raw = s.raw := by cases l <;> rfl
@[simp] theorem State.setLvl_power (l : Line) (v : Level) : (s.setLvl l v).power = s.power := by cases l <;> rfl
@[simp] theorem State.setLvl_pattern (l : Line) (v : Level) : (s.setLvl l v).pattern = s.pattern := by cases l <;> rfl
@[simp] theorem State.setLvl_dirSer (l : Line) (v : Level) : (s.setLvl l v).dirSer = s.dirSer := by cases l <;> rfl
@[simp] theorem State.setLvl_dirSrclk (l : Line) (v : Level) : (s.setLvl l v).dirSrclk = s.dirSrclk := by cases l <;> rfl
@[simp] theorem State.setLvl_dirRclk (l : Line) (v : Level) : (s.setLvl l v).dirRclk = s.dirRclk := by cases l <;> rfl
@[simp] theorem State.setLvl_inited (l : Line) (v : Level) : (s.setLvl l v).inited = s.inited := by cases l <;> rfl
@[simp] theorem State.setLvl_adcEn (l : Line) (v : Level) : (s.setLvl l v).adcEn = s.adcEn := by cases l <;> rfl
@[simp] theorem State.setLvl_adcCh (l : Line) (v : Level) : (s.setLvl l v).adcCh = s.adcCh := by cases l <;> rfl
@[simp] theorem State.setLvl_adcRef (l : Line) (v : Level) : (s.setLvl l v).adcRef = s.adcRef := by cases l <;> rfl
@[simp] theorem State.setLvl_adcMode (l : Line) (v : Level) : (s.setLvl l v).adcMode = s.adcMode := by cases l <;> rfl
@[simp] theorem State.setLvl_adcPresc (l : Line) (v : Level) : (s.setLvl l v).adcPresc = s.adcPresc := by cases l <;> rfl
@[simp] theorem State.setLvl_adcState (l : Line) (v : Level) : (s.setLvl l v).adcState = s.adcState := by cases l <;> rfl
@[simp] theorem State.setLvl_adcRes (l : Line) (v : Level) : (s.setLvl l v).adcRes = s.adcRes := by cases l <;> rfl
@[simp] theorem State.setLvl_shift (l : Line) (v : Level) : (s.setLvl l v).shift = s.shift := by cases l <;> rfl
@[simp] theorem State.setLvl_latch (l : Line) (v : Level) : (s.setLvl l v).latch = s.latch := by cases l <;> rfl
@[simp] theorem State.setLvl_cpc (l : Line) (v : Level) : (s.setLvl l v).cpc = s.cpc := by cases l <;> rfl
@[simp] theorem State.setLvl_cur (l : Line) (v : Level) : (s.setLvl l v).cur = s.cur := by cases l <;> rfl
@[simp] theorem State.setLvl_ms (l : Line) (v : Level) : (s.setLvl l v).ms = s.ms := by cases l <;> rfl
@[simp] theorem State.setLvl_faultCode (l : Line) (v : Level) : (s.setLvl l v).faultCode = s.faultCode := by cases l <;> rfl
@[simp] theorem State.setLvl_faultCw (l : Line) (v : Level) : (s.setLvl l v).faultCw = s.faultCw := by cases l <;> rfl
@[simp] theorem State.setLvl_history (l : Line) (v : Level) : (s.setLvl l v).history = s.history := by cases l <;> rfl
@[simp] theorem State.setLvl_responses (l : Line) (v : Level) : (s.setLvl l v).responses = s.responses := by cases l <;> rfl
@[simp] theorem State.setLvl_pending (l : Line) (v : Level) : (s.setLvl l v).pending = s.pending := by cases l <;> rfl
@[simp] theorem State.setLvl_prog (l : Line) (v : Level) : (s.setLvl l v).prog = s.prog := by cases l <;> rfl
@[simp] theorem State.setLvl_turns (l : Line) (v : Level) : (s.setLvl l v).turns = s.turns := by cases l <;> rfl

theorem State.setLvl_lvl (l m : Line) (v : Level) : (s.setLvl l v).lvl m = if m = l then v else s.lvl m := by
  cases l <;> cases m <;> rfl

theorem State.setLvl_dir (l m : Line) (v : Level) : (s.setLvl l v).dir m = s.dir m := by
  cases l <;> rfl


/-! ### The receiver's reactions -/

@[simp] theorem shiftEdge_raw : (shiftEdge s).raw = s.raw := rfl
@[simp] theorem shiftEdge_power : (shiftEdge s).power = s.power := rfl
@[simp] theorem shiftEdge_pattern : (shiftEdge s).pattern = s.pattern := rfl
@[simp] theorem shiftEdge_dirSer : (shiftEdge s).dirSer = s.dirSer := rfl
@[simp] theorem shiftEdge_dirSrclk : (shiftEdge s).dirSrclk = s.dirSrclk := rfl
@[simp] theorem shiftEdge_dirRclk : (shiftEdge s).dirRclk = s.dirRclk := rfl
@[simp] theorem shiftEdge_lvlSer : (shiftEdge s).lvlSer = s.lvlSer := rfl
@[simp] theorem shiftEdge_lvlSrclk : (shiftEdge s).lvlSrclk = s.lvlSrclk := rfl
@[simp] theorem shiftEdge_lvlRclk : (shiftEdge s).lvlRclk = s.lvlRclk := rfl
@[simp] theorem shiftEdge_inited : (shiftEdge s).inited = s.inited := rfl
@[simp] theorem shiftEdge_adcEn : (shiftEdge s).adcEn = s.adcEn := rfl
@[simp] theorem shiftEdge_adcCh : (shiftEdge s).adcCh = s.adcCh := rfl
@[simp] theorem shiftEdge_adcRef : (shiftEdge s).adcRef = s.adcRef := rfl
@[simp] theorem shiftEdge_adcMode : (shiftEdge s).adcMode = s.adcMode := rfl
@[simp] theorem shiftEdge_adcPresc : (shiftEdge s).adcPresc = s.adcPresc := rfl
@[simp] theorem shiftEdge_adcState : (shiftEdge s).adcState = s.adcState := rfl
@[simp] theorem shiftEdge_adcRes : (shiftEdge s).adcRes = s.adcRes := rfl
@[simp] theorem shiftEdge_shift : (shiftEdge s).shift = s.shift.shiftIn (triOfLevel s.lvlSer) := rfl
@[simp] theorem shiftEdge_latch : (shiftEdge s).latch = s.latch := rfl
@[simp] theorem shiftEdge_cpc : (shiftEdge s).cpc = s.cpc := rfl
@[simp] theorem shiftEdge_cur : (shiftEdge s).cur = s.cur := rfl
@[simp] theorem shiftEdge_ms : (shiftEdge s).ms = s.ms := rfl
@[simp] theorem shiftEdge_faultCode : (shiftEdge s).faultCode = s.faultCode := rfl
@[simp] theorem shiftEdge_faultCw : (shiftEdge s).faultCw = s.faultCw := rfl
@[simp] theorem shiftEdge_history : (shiftEdge s).history = s.history := rfl
@[simp] theorem shiftEdge_responses : (shiftEdge s).responses = s.responses := rfl
@[simp] theorem shiftEdge_pending : (shiftEdge s).pending = s.pending := rfl
@[simp] theorem shiftEdge_prog : (shiftEdge s).prog = s.prog := rfl
@[simp] theorem shiftEdge_turns : (shiftEdge s).turns = s.turns := rfl
@[simp] theorem latchEdge_raw : (latchEdge s).raw = s.raw := rfl
@[simp] theorem latchEdge_power : (latchEdge s).power = s.power := rfl
@[simp] theorem latchEdge_pattern : (latchEdge s).pattern = s.pattern := rfl
@[simp] theorem latchEdge_dirSer : (latchEdge s).dirSer = s.dirSer := rfl
@[simp] theorem latchEdge_dirSrclk : (latchEdge s).dirSrclk = s.dirSrclk := rfl
@[simp] theorem latchEdge_dirRclk : (latchEdge s).dirRclk = s.dirRclk := rfl
@[simp] theorem latchEdge_lvlSer : (latchEdge s).lvlSer = s.lvlSer := rfl
@[simp] theorem latchEdge_lvlSrclk : (latchEdge s).lvlSrclk = s.lvlSrclk := rfl
@[simp] theorem latchEdge_lvlRclk : (latchEdge s).lvlRclk = s.lvlRclk := rfl
@[simp] theorem latchEdge_inited : (latchEdge s).inited = s.inited := rfl
@[simp] theorem latchEdge_adcEn : (latchEdge s).adcEn = s.adcEn := rfl
@[simp] theorem latchEdge_adcCh : (latchEdge s).adcCh = s.adcCh := rfl
@[simp] theorem latchEdge_adcRef : (latchEdge s).adcRef = s.adcRef := rfl
@[simp] theorem latchEdge_adcMode : (latchEdge s).adcMode = s.adcMode := rfl
@[simp] theorem latchEdge_adcPresc : (latchEdge s).adcPresc = s.adcPresc := rfl
@[simp] theorem latchEdge_adcState : (latchEdge s).adcState = s.adcState := rfl
@[simp] theorem latchEdge_adcRes : (latchEdge s).adcRes = s.adcRes := rfl
@[simp] theorem latchEdge_shift : (latchEdge s).shift = s.shift := rfl
@[simp] theorem latchEdge_latch : (latchEdge s).latch = s.shift := rfl
@[simp] theorem latchEdge_cpc : (latchEdge s).cpc = s.cpc := rfl
@[simp] theorem latchEdge_cur : (latchEdge s).cur = s.cur := rfl
@[simp] theorem latchEdge_ms : (latchEdge s).ms = s.ms := rfl
@[simp] theorem latchEdge_faultCode : (latchEdge s).faultCode = s.faultCode := rfl
@[simp] theorem latchEdge_faultCw : (latchEdge s).faultCw = s.faultCw := rfl
@[simp] theorem latchEdge_history : (latchEdge s).history = s.history := rfl
@[simp] theorem latchEdge_responses : (latchEdge s).responses = s.responses := rfl
@[simp] theorem latchEdge_pending : (latchEdge s).pending = s.pending := rfl
@[simp] theorem latchEdge_prog : (latchEdge s).prog = s.prog := rfl
@[simp] theorem latchEdge_turns : (latchEdge s).turns = s.turns := rfl
@[simp] theorem loseShift_raw : (loseShift s).raw = s.raw := rfl
@[simp] theorem loseShift_power : (loseShift s).power = s.power := rfl
@[simp] theorem loseShift_pattern : (loseShift s).pattern = s.pattern := rfl
@[simp] theorem loseShift_dirSer : (loseShift s).dirSer = s.dirSer := rfl
@[simp] theorem loseShift_dirSrclk : (loseShift s).dirSrclk = s.dirSrclk := rfl
@[simp] theorem loseShift_dirRclk : (loseShift s).dirRclk = s.dirRclk := rfl
@[simp] theorem loseShift_lvlSer : (loseShift s).lvlSer = s.lvlSer := rfl
@[simp] theorem loseShift_lvlSrclk : (loseShift s).lvlSrclk = s.lvlSrclk := rfl
@[simp] theorem loseShift_lvlRclk : (loseShift s).lvlRclk = s.lvlRclk := rfl
@[simp] theorem loseShift_inited : (loseShift s).inited = s.inited := rfl
@[simp] theorem loseShift_adcEn : (loseShift s).adcEn = s.adcEn := rfl
@[simp] theorem loseShift_adcCh : (loseShift s).adcCh = s.adcCh := rfl
@[simp] theorem loseShift_adcRef : (loseShift s).adcRef = s.adcRef := rfl
@[simp] theorem loseShift_adcMode : (loseShift s).adcMode = s.adcMode := rfl
@[simp] theorem loseShift_adcPresc : (loseShift s).adcPresc = s.adcPresc := rfl
@[simp] theorem loseShift_adcState : (loseShift s).adcState = s.adcState := rfl
@[simp] theorem loseShift_adcRes : (loseShift s).adcRes = s.adcRes := rfl
@[simp] theorem loseShift_shift : (loseShift s).shift = .allUnknown := rfl
@[simp] theorem loseShift_latch : (loseShift s).latch = s.latch := rfl
@[simp] theorem loseShift_cpc : (loseShift s).cpc = s.cpc := rfl
@[simp] theorem loseShift_cur : (loseShift s).cur = s.cur := rfl
@[simp] theorem loseShift_ms : (loseShift s).ms = s.ms := rfl
@[simp] theorem loseShift_faultCode : (loseShift s).faultCode = s.faultCode := rfl
@[simp] theorem loseShift_faultCw : (loseShift s).faultCw = s.faultCw := rfl
@[simp] theorem loseShift_history : (loseShift s).history = s.history := rfl
@[simp] theorem loseShift_responses : (loseShift s).responses = s.responses := rfl
@[simp] theorem loseShift_pending : (loseShift s).pending = s.pending := rfl
@[simp] theorem loseShift_prog : (loseShift s).prog = s.prog := rfl
@[simp] theorem loseShift_turns : (loseShift s).turns = s.turns := rfl
@[simp] theorem loseLatch_raw : (loseLatch s).raw = s.raw := rfl
@[simp] theorem loseLatch_power : (loseLatch s).power = s.power := rfl
@[simp] theorem loseLatch_pattern : (loseLatch s).pattern = s.pattern := rfl
@[simp] theorem loseLatch_dirSer : (loseLatch s).dirSer = s.dirSer := rfl
@[simp] theorem loseLatch_dirSrclk : (loseLatch s).dirSrclk = s.dirSrclk := rfl
@[simp] theorem loseLatch_dirRclk : (loseLatch s).dirRclk = s.dirRclk := rfl
@[simp] theorem loseLatch_lvlSer : (loseLatch s).lvlSer = s.lvlSer := rfl
@[simp] theorem loseLatch_lvlSrclk : (loseLatch s).lvlSrclk = s.lvlSrclk := rfl
@[simp] theorem loseLatch_lvlRclk : (loseLatch s).lvlRclk = s.lvlRclk := rfl
@[simp] theorem loseLatch_inited : (loseLatch s).inited = s.inited := rfl
@[simp] theorem loseLatch_adcEn : (loseLatch s).adcEn = s.adcEn := rfl
@[simp] theorem loseLatch_adcCh : (loseLatch s).adcCh = s.adcCh := rfl
@[simp] theorem loseLatch_adcRef : (loseLatch s).adcRef = s.adcRef := rfl
@[simp] theorem loseLatch_adcMode : (loseLatch s).adcMode = s.adcMode := rfl
@[simp] theorem loseLatch_adcPresc : (loseLatch s).adcPresc = s.adcPresc := rfl
@[simp] theorem loseLatch_adcState : (loseLatch s).adcState = s.adcState := rfl
@[simp] theorem loseLatch_adcRes : (loseLatch s).adcRes = s.adcRes := rfl
@[simp] theorem loseLatch_shift : (loseLatch s).shift = s.shift := rfl
@[simp] theorem loseLatch_latch : (loseLatch s).latch = .allUnknown := rfl
@[simp] theorem loseLatch_cpc : (loseLatch s).cpc = s.cpc := rfl
@[simp] theorem loseLatch_cur : (loseLatch s).cur = s.cur := rfl
@[simp] theorem loseLatch_ms : (loseLatch s).ms = s.ms := rfl
@[simp] theorem loseLatch_faultCode : (loseLatch s).faultCode = s.faultCode := rfl
@[simp] theorem loseLatch_faultCw : (loseLatch s).faultCw = s.faultCw := rfl
@[simp] theorem loseLatch_history : (loseLatch s).history = s.history := rfl
@[simp] theorem loseLatch_responses : (loseLatch s).responses = s.responses := rfl
@[simp] theorem loseLatch_pending : (loseLatch s).pending = s.pending := rfl
@[simp] theorem loseLatch_prog : (loseLatch s).prog = s.prog := rfl
@[simp] theorem loseLatch_turns : (loseLatch s).turns = s.turns := rfl

/-- Whatever a line write does to the receiver, it is one of five things (R156). -/
theorem receiverReact_cases (l : Line) (old new : Level) :
    receiverReact l old new s = s ∨ receiverReact l old new s = shiftEdge s ∨ receiverReact l old new s = latchEdge s
      ∨ receiverReact l old new s = loseShift s ∨ receiverReact l old new s = loseLatch s := by
  cases l <;> simp only [receiverReact, reactSer, reactSrclk, reactRclk] <;> split_ifs <;> simp

@[simp] theorem receiverReact_raw (l : Line) (old new : Level) : (receiverReact l old new s).raw = s.raw := by
  rcases receiverReact_cases s l old new with h | h | h | h | h <;> rw [h] <;> rfl
@[simp] theorem receiverReact_power (l : Line) (old new : Level) : (receiverReact l old new s).power = s.power := by
  rcases receiverReact_cases s l old new with h | h | h | h | h <;> rw [h] <;> rfl
@[simp] theorem receiverReact_pattern (l : Line) (old new : Level) : (receiverReact l old new s).pattern = s.pattern := by
  rcases receiverReact_cases s l old new with h | h | h | h | h <;> rw [h] <;> rfl
@[simp] theorem receiverReact_dirSer (l : Line) (old new : Level) : (receiverReact l old new s).dirSer = s.dirSer := by
  rcases receiverReact_cases s l old new with h | h | h | h | h <;> rw [h] <;> rfl
@[simp] theorem receiverReact_dirSrclk (l : Line) (old new : Level) : (receiverReact l old new s).dirSrclk = s.dirSrclk := by
  rcases receiverReact_cases s l old new with h | h | h | h | h <;> rw [h] <;> rfl
@[simp] theorem receiverReact_dirRclk (l : Line) (old new : Level) : (receiverReact l old new s).dirRclk = s.dirRclk := by
  rcases receiverReact_cases s l old new with h | h | h | h | h <;> rw [h] <;> rfl
@[simp] theorem receiverReact_lvlSer (l : Line) (old new : Level) : (receiverReact l old new s).lvlSer = s.lvlSer := by
  rcases receiverReact_cases s l old new with h | h | h | h | h <;> rw [h] <;> rfl
@[simp] theorem receiverReact_lvlSrclk (l : Line) (old new : Level) : (receiverReact l old new s).lvlSrclk = s.lvlSrclk := by
  rcases receiverReact_cases s l old new with h | h | h | h | h <;> rw [h] <;> rfl
@[simp] theorem receiverReact_lvlRclk (l : Line) (old new : Level) : (receiverReact l old new s).lvlRclk = s.lvlRclk := by
  rcases receiverReact_cases s l old new with h | h | h | h | h <;> rw [h] <;> rfl
@[simp] theorem receiverReact_inited (l : Line) (old new : Level) : (receiverReact l old new s).inited = s.inited := by
  rcases receiverReact_cases s l old new with h | h | h | h | h <;> rw [h] <;> rfl
@[simp] theorem receiverReact_adcEn (l : Line) (old new : Level) : (receiverReact l old new s).adcEn = s.adcEn := by
  rcases receiverReact_cases s l old new with h | h | h | h | h <;> rw [h] <;> rfl
@[simp] theorem receiverReact_adcCh (l : Line) (old new : Level) : (receiverReact l old new s).adcCh = s.adcCh := by
  rcases receiverReact_cases s l old new with h | h | h | h | h <;> rw [h] <;> rfl
@[simp] theorem receiverReact_adcRef (l : Line) (old new : Level) : (receiverReact l old new s).adcRef = s.adcRef := by
  rcases receiverReact_cases s l old new with h | h | h | h | h <;> rw [h] <;> rfl
@[simp] theorem receiverReact_adcMode (l : Line) (old new : Level) : (receiverReact l old new s).adcMode = s.adcMode := by
  rcases receiverReact_cases s l old new with h | h | h | h | h <;> rw [h] <;> rfl
@[simp] theorem receiverReact_adcPresc (l : Line) (old new : Level) : (receiverReact l old new s).adcPresc = s.adcPresc := by
  rcases receiverReact_cases s l old new with h | h | h | h | h <;> rw [h] <;> rfl
@[simp] theorem receiverReact_adcState (l : Line) (old new : Level) : (receiverReact l old new s).adcState = s.adcState := by
  rcases receiverReact_cases s l old new with h | h | h | h | h <;> rw [h] <;> rfl
@[simp] theorem receiverReact_adcRes (l : Line) (old new : Level) : (receiverReact l old new s).adcRes = s.adcRes := by
  rcases receiverReact_cases s l old new with h | h | h | h | h <;> rw [h] <;> rfl
@[simp] theorem receiverReact_cpc (l : Line) (old new : Level) : (receiverReact l old new s).cpc = s.cpc := by
  rcases receiverReact_cases s l old new with h | h | h | h | h <;> rw [h] <;> rfl
@[simp] theorem receiverReact_cur (l : Line) (old new : Level) : (receiverReact l old new s).cur = s.cur := by
  rcases receiverReact_cases s l old new with h | h | h | h | h <;> rw [h] <;> rfl
@[simp] theorem receiverReact_ms (l : Line) (old new : Level) : (receiverReact l old new s).ms = s.ms := by
  rcases receiverReact_cases s l old new with h | h | h | h | h <;> rw [h] <;> rfl
@[simp] theorem receiverReact_faultCode (l : Line) (old new : Level) : (receiverReact l old new s).faultCode = s.faultCode := by
  rcases receiverReact_cases s l old new with h | h | h | h | h <;> rw [h] <;> rfl
@[simp] theorem receiverReact_faultCw (l : Line) (old new : Level) : (receiverReact l old new s).faultCw = s.faultCw := by
  rcases receiverReact_cases s l old new with h | h | h | h | h <;> rw [h] <;> rfl
@[simp] theorem receiverReact_history (l : Line) (old new : Level) : (receiverReact l old new s).history = s.history := by
  rcases receiverReact_cases s l old new with h | h | h | h | h <;> rw [h] <;> rfl
@[simp] theorem receiverReact_responses (l : Line) (old new : Level) : (receiverReact l old new s).responses = s.responses := by
  rcases receiverReact_cases s l old new with h | h | h | h | h <;> rw [h] <;> rfl
@[simp] theorem receiverReact_pending (l : Line) (old new : Level) : (receiverReact l old new s).pending = s.pending := by
  rcases receiverReact_cases s l old new with h | h | h | h | h <;> rw [h] <;> rfl
@[simp] theorem receiverReact_prog (l : Line) (old new : Level) : (receiverReact l old new s).prog = s.prog := by
  rcases receiverReact_cases s l old new with h | h | h | h | h <;> rw [h] <;> rfl
@[simp] theorem receiverReact_turns (l : Line) (old new : Level) : (receiverReact l old new s).turns = s.turns := by
  rcases receiverReact_cases s l old new with h | h | h | h | h <;> rw [h] <;> rfl

/-! ### LineWrite -/

@[simp] theorem writeLine_raw (l : Line) (v : Bool) : (writeLine l v s).raw = s.raw := by simp [writeLine]
@[simp] theorem writeLine_power (l : Line) (v : Bool) : (writeLine l v s).power = s.power := by simp [writeLine]
@[simp] theorem writeLine_pattern (l : Line) (v : Bool) : (writeLine l v s).pattern = s.pattern := by simp [writeLine]
@[simp] theorem writeLine_dirSer (l : Line) (v : Bool) : (writeLine l v s).dirSer = s.dirSer := by simp [writeLine]
@[simp] theorem writeLine_dirSrclk (l : Line) (v : Bool) : (writeLine l v s).dirSrclk = s.dirSrclk := by simp [writeLine]
@[simp] theorem writeLine_dirRclk (l : Line) (v : Bool) : (writeLine l v s).dirRclk = s.dirRclk := by simp [writeLine]
@[simp] theorem writeLine_inited (l : Line) (v : Bool) : (writeLine l v s).inited = s.inited := by simp [writeLine]
@[simp] theorem writeLine_adcEn (l : Line) (v : Bool) : (writeLine l v s).adcEn = s.adcEn := by simp [writeLine]
@[simp] theorem writeLine_adcCh (l : Line) (v : Bool) : (writeLine l v s).adcCh = s.adcCh := by simp [writeLine]
@[simp] theorem writeLine_adcRef (l : Line) (v : Bool) : (writeLine l v s).adcRef = s.adcRef := by simp [writeLine]
@[simp] theorem writeLine_adcMode (l : Line) (v : Bool) : (writeLine l v s).adcMode = s.adcMode := by simp [writeLine]
@[simp] theorem writeLine_adcPresc (l : Line) (v : Bool) : (writeLine l v s).adcPresc = s.adcPresc := by simp [writeLine]
@[simp] theorem writeLine_adcState (l : Line) (v : Bool) : (writeLine l v s).adcState = s.adcState := by simp [writeLine]
@[simp] theorem writeLine_adcRes (l : Line) (v : Bool) : (writeLine l v s).adcRes = s.adcRes := by simp [writeLine]
@[simp] theorem writeLine_cpc (l : Line) (v : Bool) : (writeLine l v s).cpc = s.cpc := by simp [writeLine]
@[simp] theorem writeLine_cur (l : Line) (v : Bool) : (writeLine l v s).cur = s.cur := by simp [writeLine]
@[simp] theorem writeLine_ms (l : Line) (v : Bool) : (writeLine l v s).ms = s.ms := by simp [writeLine]
@[simp] theorem writeLine_faultCode (l : Line) (v : Bool) : (writeLine l v s).faultCode = s.faultCode := by simp [writeLine]
@[simp] theorem writeLine_faultCw (l : Line) (v : Bool) : (writeLine l v s).faultCw = s.faultCw := by simp [writeLine]
@[simp] theorem writeLine_history (l : Line) (v : Bool) : (writeLine l v s).history = s.history ++ [.line l v] := by simp [writeLine]
@[simp] theorem writeLine_responses (l : Line) (v : Bool) : (writeLine l v s).responses = s.responses := by simp [writeLine]
@[simp] theorem writeLine_pending (l : Line) (v : Bool) : (writeLine l v s).pending = s.pending := by simp [writeLine]
@[simp] theorem writeLine_prog (l : Line) (v : Bool) : (writeLine l v s).prog = s.prog := by simp [writeLine]
@[simp] theorem writeLine_turns (l : Line) (v : Bool) : (writeLine l v s).turns = s.turns := by simp [writeLine]

@[simp] theorem writeLine_shift (l : Line) (v : Bool) :
    (writeLine l v s).shift = (receiverReact l (s.lvl l) (levelOfBool v) s).shift := by simp [writeLine]

@[simp] theorem writeLine_latch (l : Line) (v : Bool) :
    (writeLine l v s).latch = (receiverReact l (s.lvl l) (levelOfBool v) s).latch := by simp [writeLine]

theorem writeLine_lvl (l m : Line) (v : Bool) :
    (writeLine l v s).lvl m = if m = l then levelOfBool v else s.lvl m := by
  cases l <;> cases m <;> simp [writeLine, State.setLvl, State.record, State.lvl]


/-! ### Resets -/

@[simp] theorem resetStep_raw (k : ResetKind) : (resetStep k s).raw = State.reset.raw := by cases k <;> rfl
@[simp] theorem resetStep_power (k : ResetKind) : (resetStep k s).power = State.reset.power := by cases k <;> rfl
@[simp] theorem resetStep_pattern (k : ResetKind) : (resetStep k s).pattern = State.reset.pattern := by cases k <;> rfl
@[simp] theorem resetStep_dirSer (k : ResetKind) : (resetStep k s).dirSer = State.reset.dirSer := by cases k <;> rfl
@[simp] theorem resetStep_dirSrclk (k : ResetKind) : (resetStep k s).dirSrclk = State.reset.dirSrclk := by cases k <;> rfl
@[simp] theorem resetStep_dirRclk (k : ResetKind) : (resetStep k s).dirRclk = State.reset.dirRclk := by cases k <;> rfl
@[simp] theorem resetStep_lvlSer (k : ResetKind) : (resetStep k s).lvlSer = State.reset.lvlSer := by cases k <;> rfl
@[simp] theorem resetStep_lvlSrclk (k : ResetKind) : (resetStep k s).lvlSrclk = State.reset.lvlSrclk := by cases k <;> rfl
@[simp] theorem resetStep_lvlRclk (k : ResetKind) : (resetStep k s).lvlRclk = State.reset.lvlRclk := by cases k <;> rfl
@[simp] theorem resetStep_inited (k : ResetKind) : (resetStep k s).inited = State.reset.inited := by cases k <;> rfl
@[simp] theorem resetStep_adcEn (k : ResetKind) : (resetStep k s).adcEn = State.reset.adcEn := by cases k <;> rfl
@[simp] theorem resetStep_adcCh (k : ResetKind) : (resetStep k s).adcCh = State.reset.adcCh := by cases k <;> rfl
@[simp] theorem resetStep_adcRef (k : ResetKind) : (resetStep k s).adcRef = State.reset.adcRef := by cases k <;> rfl
@[simp] theorem resetStep_adcMode (k : ResetKind) : (resetStep k s).adcMode = State.reset.adcMode := by cases k <;> rfl
@[simp] theorem resetStep_adcPresc (k : ResetKind) : (resetStep k s).adcPresc = State.reset.adcPresc := by cases k <;> rfl
@[simp] theorem resetStep_adcState (k : ResetKind) : (resetStep k s).adcState = State.reset.adcState := by cases k <;> rfl
@[simp] theorem resetStep_adcRes (k : ResetKind) : (resetStep k s).adcRes = State.reset.adcRes := by cases k <;> rfl
@[simp] theorem resetStep_shift (k : ResetKind) : (resetStep k s).shift = State.reset.shift := by cases k <;> rfl
@[simp] theorem resetStep_latch (k : ResetKind) : (resetStep k s).latch = State.reset.latch := by cases k <;> rfl
@[simp] theorem resetStep_cpc (k : ResetKind) : (resetStep k s).cpc = State.reset.cpc := by cases k <;> rfl
@[simp] theorem resetStep_cur (k : ResetKind) : (resetStep k s).cur = State.reset.cur := by cases k <;> rfl
@[simp] theorem resetStep_ms (k : ResetKind) : (resetStep k s).ms = State.reset.ms := by cases k <;> rfl
@[simp] theorem resetStep_faultCode (k : ResetKind) : (resetStep k s).faultCode = State.reset.faultCode := by cases k <;> rfl
@[simp] theorem resetStep_faultCw (k : ResetKind) : (resetStep k s).faultCw = State.reset.faultCw := by cases k <;> rfl
@[simp] theorem resetStep_pending (k : ResetKind) : (resetStep k s).pending = State.reset.pending := by cases k <;> rfl
@[simp] theorem resetStep_prog (k : ResetKind) : (resetStep k s).prog = s.prog := by cases k <;> rfl
@[simp] theorem resetStep_turns (k : ResetKind) : (resetStep k s).turns = s.turns := by cases k <;> rfl

theorem resetStep_history (k : ResetKind) :
    (resetStep k s).history = match k with | .powerOn => [] | .input => s.history ++ [.reset .input] := by
  cases k <;> rfl

theorem resetStep_responses (k : ResetKind) :
    (resetStep k s).responses = match k with | .powerOn => [] | .input => s.responses := by
  cases k <;> rfl

end Sys2Proof.Machine
end

