-- ==== Sys2Proof/Laws/Schedule.lean ====
section
/-! SUPPORT. The environment's schedule (70_reset R230): its next move, and waiting for the controller's turn as one move
after the other. -/

namespace Sys2Proof.Machine

/-! ### The next move -/

@[simp] theorem Schedule.next_after_cons (rest : Schedule) (t : Turn) (ts : List Turn) :
    (rest.after (t :: ts)).next = (t, rest.after ts) := rfl

@[simp] theorem Schedule.after_nil (rest : Schedule) : rest.after [] = rest := rfl

@[simp] theorem Schedule.next_silent : Schedule.silent.next = (.controller, .silent) := rfl

@[simp] theorem Schedule.drop_zero (ts : Schedule) : ts.drop 0 = ts := rfl

theorem Schedule.drop_succ (ts : Schedule) (n : Nat) : ts.drop (n + 1) = ts.next.2.drop n := rfl

@[simp] theorem Schedule.drop_drop (ts : Schedule) (m n : Nat) : (ts.drop m).drop n = ts.drop (m + n) := by
  induction m generalizing ts with
  | zero => simp
  | succ m ih => rw [Nat.succ_add, Schedule.drop_succ, Schedule.drop_succ, ih]

@[simp] theorem Schedule.drop_silent (n : Nat) : Schedule.silent.drop n = .silent := by
  induction n with
  | zero => rfl
  | succ n ih => exact ih

/-! ### The moves a schedule begins with -/

theorem Schedule.begins_nil {ts rest : Schedule} : ts.begins [] rest ↔ ts = rest := .rfl

theorem Schedule.begins_cons {ts rest : Schedule} {t : Turn} {moves : List Turn} :
    ts.begins (t :: moves) rest ↔ ∃ mid, ts.next = (t, mid) ∧ mid.begins moves rest :=
  ⟨fun ⟨h1, h2⟩ => ⟨ts.next.2, by rw [← h1], h2⟩, fun ⟨mid, h1, h2⟩ => by
    rw [Schedule.begins, h1]; exact ⟨rfl, h2⟩⟩

theorem Schedule.begins_append {ts rest : Schedule} {l m : List Turn} :
    ts.begins (l ++ m) rest ↔ ∃ mid, ts.begins l mid ∧ mid.begins m rest := by
  induction l generalizing ts with
  | nil => simp [Schedule.begins]
  | cons t l ih => simp only [List.cons_append, Schedule.begins, ih, and_assoc, exists_and_left]

theorem Schedule.begins_after (rest : Schedule) (moves : List Turn) : (rest.after moves).begins moves rest := by
  induction moves with
  | nil => rfl
  | cons t moves ih => exact ⟨rfl, ih⟩

theorem Schedule.begins_drop {ts rest : Schedule} {moves : List Turn} (h : ts.begins moves rest) :
    ts.drop moves.length = rest := by
  induction moves generalizing ts with
  | nil => exact h
  | cons t moves ih => exact ih h.2

/-! ### Quiet schedules -/

theorem quiet_succ {n : Nat} {ts : Schedule} :
    quiet (n + 1) ts = true ↔ ts.next.1 = .controller ∧ quiet n ts.next.2 = true := by
  simp [quiet]

theorem quiet_mono {m n : Nat} {ts : Schedule} (h : quiet n ts = true) (hm : m ≤ n) : quiet m ts = true := by
  induction n generalizing m ts with
  | zero => obtain rfl : m = 0 := by omega
            rfl
  | succ n ih =>
    cases m with
    | zero => rfl
    | succ m => exact quiet_succ.2 ⟨(quiet_succ.1 h).1, ih (quiet_succ.1 h).2 (by omega)⟩

theorem quiet_drop {n : Nat} {ts : Schedule} (k : Nat) (h : quiet (k + n) ts = true) : quiet n (ts.drop k) = true := by
  induction k generalizing ts with
  | zero => simpa using h
  | succ k ih => exact ih (quiet_succ.1 (by rwa [Nat.succ_add] at h)).2

@[simp] theorem quiet_silent (n : Nat) : quiet n .silent = true := by
  induction n with
  | zero => rfl
  | succ n ih => exact quiet_succ.2 ⟨rfl, ih⟩

/-! ### Schedules all of whose moves are of one kind -/

theorem Beyond.all_pass {p : Turn → Prop} {b : Beyond} (h : b.all p) : (∀ t ∈ b.pass, p t) ∧ b.later.all p := by
  cases b with
  | cycle q => exact ⟨h, h⟩
  | free n => exact ⟨h n (Nat.le_refl n), fun m hm => h m (by omega)⟩

theorem Schedule.all_next {p : Turn → Prop} {ts : Schedule} (hp : p .controller) (h : ts.all p) :
    p ts.next.1 ∧ ts.next.2.all p := by
  obtain ⟨hl, hb⟩ := h
  obtain ⟨h1, h2⟩ := Beyond.all_pass hb
  unfold Schedule.next
  split
  · rename_i t rest hts
    rw [hts] at hl
    exact ⟨hl t (by simp), fun u hu => hl u (by simp [hu]), hb⟩
  · split
    · rename_i t rest hts
      rw [hts] at h1
      refine ⟨h1 t (by simp), fun u hu => ?_, h2⟩
      rcases List.mem_append.1 hu with hu | hu
      · exact h1 u (by simp [hu])
      · rw [List.mem_singleton.1 hu]; exact hp
    · exact ⟨hp, fun u hu => by simp at hu, h2⟩

theorem Schedule.all_after {p : Turn → Prop} {rest : Schedule} {ts : List Turn} :
    (rest.after ts).all p ↔ (∀ t ∈ ts, p t) ∧ rest.all p := by
  simp only [Schedule.all, Schedule.after, List.mem_append]
  constructor
  · exact fun h => ⟨fun t ht => h.1 t (.inl ht), fun t ht => h.1 t (.inr ht), h.2⟩
  · exact fun h => ⟨fun t ht => ht.elim (h.1 t) (h.2.1 t), h.2.2⟩

theorem Schedule.all_silent (p : Turn → Prop) : Schedule.silent.all p :=
  ⟨fun t ht => by simp [Schedule.silent] at ht, fun t ht => by simp at ht⟩

theorem noReset_silent : noReset .silent := Schedule.all_silent _

theorem noPowerOn_silent : noPowerOn .silent := Schedule.all_silent _

theorem noReset_next {ts : Schedule} (h : noReset ts) : (∀ k, ts.next.1 ≠ .reset k) ∧ noReset ts.next.2 :=
  Schedule.all_next (by simp) h

/-! ### Waiting for the controller's turn -/

/-- Waiting is one move after the other. -/
theorem awaitTurn_next (ts : Schedule) (s : State) :
    awaitTurn ts s =
      match ts.next with
      | (.controller, rest) => .go (s.setTurns rest)
      | (.converter v, rest) => awaitTurn rest (converterStep v s)
      | (.reset k, rest) => .aborted (resetStep k (s.setTurns rest)) := by
  obtain ⟨listed, b⟩ := ts
  match listed with
  | .controller :: rest => rfl
  | .converter v :: rest => rfl
  | .reset k :: rest => rfl
  | [] =>
    -- a pass, then the controller's turn: what is left of it never runs off its end
    have key : ∀ (rest : List Turn) (onEnd onEnd' : State → Ready) (u : State),
        awaitListed b.later onEnd (rest ++ [.controller]) u = awaitListed b.later onEnd' (rest ++ [.controller]) u := by
      intro rest
      induction rest with
      | nil => intro _ _ _; rfl
      | cons t rest ih =>
        intro _ _ _
        cases t with
        | controller => rfl
        | converter v => exact ih _ _ _
        | reset k => rfl
    cases hp : b.pass with
    | nil => simp [awaitTurn, Schedule.next, hp, awaitListed]
    | cons t rest =>
      cases t with
      | controller => simp [awaitTurn, Schedule.next, hp, awaitListed]
      | converter v =>
        simp only [awaitTurn, Schedule.next, hp, awaitListed, List.cons_append]
        exact key rest _ _ _
      | reset k => simp [awaitTurn, Schedule.next, hp, awaitListed]

/-- Induction along a wait: it meets finitely many turns of the converter before the controller's turn or a reset. -/
theorem Schedule.wait_induction {P : Schedule → Prop}
    (h : ∀ ts, (∀ v rest, ts.next = (.converter v, rest) → P rest) → P ts) (ts : Schedule) : P ts := by
  have listed : ∀ (b : Beyond) (moves : List Turn), P ⟨moves ++ [.controller], b⟩ := by
    intro b moves
    induction moves with
    | nil => exact h _ fun v rest hn => by simp [Schedule.next] at hn
    | cons t moves ih =>
      refine h _ fun v rest hn => ?_
      simp only [Schedule.next, List.cons_append, Prod.mk.injEq] at hn
      rw [← hn.2]; exact ih
  obtain ⟨moves, b⟩ := ts
  induction moves with
  | nil =>
    refine h _ fun v rest hn => ?_
    unfold Schedule.next at hn
    cases hp : b.pass with
    | nil => simp [hp] at hn
    | cons t moves =>
      simp only [hp, Prod.mk.injEq] at hn
      rw [← hn.2]; exact listed _ _
  | cons t moves ih =>
    refine h _ fun v rest hn => ?_
    simp only [Schedule.next, Prod.mk.injEq] at hn
    rw [← hn.2]; exact ih

/-- On a quiet schedule the controller's turn comes at once. -/
theorem awaitTurn_quiet {s : State} {ts : Schedule} (h : quiet 1 ts = true) :
    awaitTurn ts s = .go (s.setTurns (ts.drop 1)) := by
  rw [awaitTurn_next]
  have h1 := (quiet_succ.1 h).1
  rcases hn : ts.next with ⟨t, rest⟩
  rw [hn] at h1
  simp only at h1
  simp [h1, Schedule.drop_succ, hn]

end Sys2Proof.Machine
end

