-- ==== Sys2Proof/Laws/Receiver.lean ====
section
/-! SUPPORT. What the receiver's view of HISTORY and its reactions do (43_output_driver R151 to R156). -/

namespace Sys2Proof.Machine

/-! ### The gaps -/

theorem timingOf_append (h k : List Event) : timingOf (h ++ k) = k.foldl timingAfter (timingOf h) := by
  simp [timingOf, List.foldl_append]

@[simp] theorem timingOf_snoc (h : List Event) (e : Event) : timingOf (h ++ [e]) = timingAfter (timingOf h) e := by
  simp [timingOf_append]

/-- An event the receiver does not see: none of Init, a line write, a Delay. -/
def unseen : Event → Bool
  | .init => false
  | .line _ _ => false
  | .delay _ => false
  | .adcStart => true
  | .adcDone _ => true
  | .adcRead _ => true
  | .fault _ _ => true
  | .reset _ => true

theorem timingAfter_unseen (t : Timing) {e : Event} (h : unseen e = true) : timingAfter t e = t := by
  cases e <;> simp_all [unseen, timingAfter]

theorem timingOf_append_unseen (h k : List Event) (hk : ∀ e ∈ k, unseen e = true) : timingOf (h ++ k) = timingOf h := by
  induction k using List.reverseRecOn with
  | nil => simp
  | append_singleton l e ih =>
    have he : unseen e = true := hk e (by simp)
    rw [← List.append_assoc, timingOf_snoc, timingAfter_unseen _ he]
    exact ih fun e' he' => hk e' (by simp [he'])

@[simp] theorem State.timing_record (s : State) (e : Event) : (s.record e).timing = timingAfter s.timing e := by
  simp [State.timing]

@[simp] theorem State.timing_nextMicro (s : State) : s.nextMicro.timing = s.timing := rfl

@[simp] theorem State.timing_writeLine (s : State) (l : Line) (v : Bool) :
    (writeLine l v s).timing = timingAfter s.timing (.line l v) := by
  simp [State.timing]

theorem State.timing_congr {s t : State} (h : t.history = s.history) : t.timing = s.timing := by
  simp [State.timing, h]

theorem delaySum_append (h k : List Event) : delaySum (h ++ k) = delaySum h + delaySum k := by
  induction h with
  | nil => simp [delaySum]
  | cons e rest ih => cases e <;> simp [delaySum, ih, Nat.add_assoc]

theorem shorter_map_add (g : Option Nat) (d bound : Nat) (h : bound ≤ d) : shorter (g.map (· + d)) bound = false := by
  cases g <;> simp [shorter]; omega

theorem not_shorter_map_add {g : Option Nat} {bound : Nat} (h : shorter g bound = false) (d : Nat) :
    shorter (g.map (· + d)) bound = false := by
  cases g <;> simp_all [shorter]; omega

/-! ### LineWrite's reactions, case by case -/

/-! What each reaction does to SHIFT and to LATCH (R156). -/

theorem reactSer_shift (old new : Level) (s : State) :
    (reactSer old new s).shift =
      if old ≠ new ∧ ((s.lvlSrclk = .high ∧ shorter s.timing.gR Config.tClkHigh)
          ∨ (s.lvlSrclk = .low ∧ shorter s.timing.gF Config.tClkLow)) then .allUnknown
      else s.shift := by
  unfold reactSer; split_ifs <;> rfl

theorem reactSer_latch (old new : Level) (s : State) : (reactSer old new s).latch = s.latch := by
  unfold reactSer; split_ifs <;> rfl

theorem reactSrclk_shift (old new : Level) (s : State) :
    (reactSrclk old new s).shift =
      if old = .low ∧ new = .high then
        if shorter s.timing.gF Config.tClkLow then .allUnknown else s.shift.shiftIn (triOfLevel s.lvlSer)
      else if old = .high ∧ new = .low ∧ shorter s.timing.gR Config.tClkHigh then .allUnknown
      else s.shift := by
  unfold reactSrclk; split_ifs <;> simp_all

theorem reactSrclk_latch (old new : Level) (s : State) : (reactSrclk old new s).latch = s.latch := by
  unfold reactSrclk; split_ifs <;> rfl

theorem reactRclk_shift (old new : Level) (s : State) : (reactRclk old new s).shift = s.shift := by
  unfold reactRclk; split_ifs <;> rfl

theorem reactRclk_latch (old new : Level) (s : State) :
    (reactRclk old new s).latch =
      if old = .low ∧ new = .high then
        if s.lvlSrclk = .high ∨ shorter s.timing.gF Config.tClkLow then .allUnknown else s.shift
      else if old = .high ∧ new = .low ∧ shorter s.timing.gL Config.tLatchHigh then .allUnknown
      else s.latch := by
  unfold reactRclk; split_ifs <;> simp_all

theorem levelOfBool_ne_z (v : Bool) : levelOfBool v ≠ .z := by cases v <;> simp [levelOfBool]

/-- A write that repeats a line's level changes nothing in the receiver (R153, 40_port R90). -/
theorem receiverReact_same (l : Line) (v : Level) (s : State) : receiverReact l v v s = s := by
  cases l <;> cases v <;> simp [receiverReact, reactSer, reactSrclk, reactRclk]

/-- A data write outside the hold windows changes nothing in the receiver (R156). -/
theorem receiverReact_ser_quiet (old new : Level) (s : State)
    (hR : s.lvlSrclk = .high → shorter s.timing.gR Config.tClkHigh = false)
    (hF : s.lvlSrclk = .low → shorter s.timing.gF Config.tClkLow = false) : receiverReact .ser old new s = s := by
  unfold receiverReact reactSer
  rw [if_neg]
  rintro ⟨-, ⟨hl, hs⟩ | ⟨hl, hs⟩⟩
  · rw [hR hl] at hs; cases hs
  · rw [hF hl] at hs; cases hs

/-- A shift edge that meets the low settle (R151, R156). -/
theorem receiverReact_srclk_rise (s : State) (hF : shorter s.timing.gF Config.tClkLow = false) :
    receiverReact .srclk .low .high s = shiftEdge s := by
  simp [receiverReact, reactSrclk, hF]

/-- A shift-clock fall that meets the high hold (R153, R156). -/
theorem receiverReact_srclk_fall (s : State) (hR : shorter s.timing.gR Config.tClkHigh = false) :
    receiverReact .srclk .high .low s = s := by
  simp [receiverReact, reactSrclk, hR]

/-- A latch edge with SRCLK low and settled (R152, R156). -/
theorem receiverReact_rclk_rise (s : State) (hl : s.lvlSrclk ≠ .high)
    (hF : shorter s.timing.gF Config.tClkLow = false) : receiverReact .rclk .low .high s = latchEdge s := by
  simp [receiverReact, reactRclk, hF, hl]

/-- A latch fall that meets the latch hold (R153, R156). -/
theorem receiverReact_rclk_fall (s : State) (hL : shorter s.timing.gL Config.tLatchHigh = false) :
    receiverReact .rclk .high .low s = s := by
  simp [receiverReact, reactRclk, hL]

end Sys2Proof.Machine
end

