-- ==== Sys2Proof/Laws/Sequencer.lean ====
section
/-! SUPPORT. What the shared operations of the sequencer can do (10_state R27), each said once. -/

namespace Sys2Proof.Machine

/-! ### What the other agents do before the controller's turn -/

/-- The converter alone has moved: nothing, or one completion (41_sampler R110), and the schedule went on. -/
def ConverterMoved (s t : State) : Prop :=
  t = s.setTurns t.turns ∨
  (s.adcState = .busy ∧ ∃ v, t = ((s.adcToDone v).record (.adcDone v)).setTurns t.turns)

theorem ConverterMoved.refl (s : State) : ConverterMoved s s := .inl rfl

theorem converterStep_cases (v : Code) (s : State) :
    converterStep v s = s ∨ (s.adcState = .busy ∧ converterStep v s = (s.adcToDone v).record (.adcDone v)) := by
  cases h : s.adcState <;> simp [converterStep, h]

theorem ConverterMoved.of_step {v : Code} {s t : State} (h : ConverterMoved (converterStep v s) t) :
    ConverterMoved s t := by
  rcases converterStep_cases v s with hs | ⟨hb, hs⟩
  · rwa [hs] at h
  · rw [hs] at h
    rcases h with h | ⟨hb', -⟩
    · exact .inr ⟨hb, v, h⟩
    · cases hb'

theorem ConverterMoved.of_turns {s t : State} {ts : Schedule} (h : ConverterMoved (s.setTurns ts) t) :
    ConverterMoved s t := h

/-- The controller's turn comes with only the converter having moved. -/
theorem awaitTurn_go {ts : Schedule} {s t : State} (h : awaitTurn ts s = .go t) : ConverterMoved s t := by
  induction ts using Schedule.wait_induction generalizing s with
  | h ts ih =>
    rw [awaitTurn_next] at h
    rcases hn : ts.next with ⟨a, rest⟩
    rw [hn] at h
    cases a with
    | controller => cases h; exact .inl rfl
    | converter v => exact (ih v rest hn h).of_step
    | reset k => cases h

/-- The moves left after the controller's turn are moves of the schedule it waited on. -/
theorem awaitTurn_go_all {p : Turn → Prop} {ts : Schedule} {s t : State} (hp : p .controller) (hts : ts.all p)
    (h : awaitTurn ts s = .go t) : t.turns.all p := by
  induction ts using Schedule.wait_induction generalizing s with
  | h ts ih =>
    have ha := Schedule.all_next hp hts
    rw [awaitTurn_next] at h
    rcases hn : ts.next with ⟨a, rest⟩
    rw [hn] at h ha
    cases a with
    | controller => cases h; exact ha.2
    | converter v => exact ih v rest hn ha.2 h
    | reset k => cases h

/-- A reset comes first, with only the converter having moved before it; it and what follows it are moves of the
schedule. -/
theorem awaitTurn_aborted {ts : Schedule} {s t : State} (h : awaitTurn ts s = .aborted t) :
    ∃ k u, ConverterMoved s u ∧ t = resetStep k u
      ∧ ∀ p : Turn → Prop, p .controller → ts.all p → p (.reset k) ∧ u.turns.all p := by
  induction ts using Schedule.wait_induction generalizing s with
  | h ts ih =>
    rw [awaitTurn_next] at h
    rcases hn : ts.next with ⟨a, rest⟩
    rw [hn] at h
    have ha := fun (p : Turn → Prop) (hp : p .controller) (hts : ts.all p) => hn ▸ Schedule.all_next hp hts
    cases a with
    | controller => cases h
    | converter v =>
      obtain ⟨k, u, hu, ht, hs⟩ := ih v rest hn h
      exact ⟨k, u, hu.of_step, ht, fun p hp hts => hs p hp (ha p hp hts).2⟩
    | reset k => cases h; exact ⟨k, _, .inl rfl, rfl, ha⟩

/-- With no reset in the schedule the controller's turn comes, and none is left in what remains of it. -/
theorem awaitTurn_of_noReset {ts : Schedule} (s : State) (h : noReset ts) :
    ∃ t, awaitTurn ts s = .go t ∧ ConverterMoved s t ∧ noReset t.turns := by
  cases ht : awaitTurn ts s with
  | go t => exact ⟨t, rfl, awaitTurn_go ht, awaitTurn_go_all (by simp) h ht⟩
  | aborted t =>
    obtain ⟨k, u, -, -, hall⟩ := awaitTurn_aborted ht
    exact absurd rfl ((hall _ (by simp) h).1 k)

/-- What the converter's moves leave alone, field by field. -/
theorem ConverterMoved.frame {s t : State} (h : ConverterMoved s t) :
    t = { s with adcState := t.adcState, adcRes := t.adcRes, history := t.history, turns := t.turns } := by
  rcases h with h | ⟨-, v, h⟩ <;> rw [h] <;> rfl

theorem ConverterMoved.timing {s t : State} (h : ConverterMoved s t) : t.timing = s.timing := by
  rcases h with h | ⟨-, v, h⟩ <;> rw [h]
  · rfl
  · exact timingOf_append_unseen _ _ (by simp [unseen])

theorem ConverterMoved.raw {s t : State} (h : ConverterMoved s t) : t.raw = s.raw := by rw [h.frame]
theorem ConverterMoved.power {s t : State} (h : ConverterMoved s t) : t.power = s.power := by rw [h.frame]
theorem ConverterMoved.pattern {s t : State} (h : ConverterMoved s t) : t.pattern = s.pattern := by rw [h.frame]
theorem ConverterMoved.lvl {s t : State} (h : ConverterMoved s t) (l : Line) : t.lvl l = s.lvl l := by
  rw [h.frame]; cases l <;> rfl
theorem ConverterMoved.dir {s t : State} (h : ConverterMoved s t) (l : Line) : t.dir l = s.dir l := by
  rw [h.frame]; cases l <;> rfl
theorem ConverterMoved.lvlSer {s t : State} (h : ConverterMoved s t) : t.lvlSer = s.lvlSer := by rw [h.frame]
theorem ConverterMoved.lvlSrclk {s t : State} (h : ConverterMoved s t) : t.lvlSrclk = s.lvlSrclk := by rw [h.frame]
theorem ConverterMoved.lvlRclk {s t : State} (h : ConverterMoved s t) : t.lvlRclk = s.lvlRclk := by rw [h.frame]
theorem ConverterMoved.shift {s t : State} (h : ConverterMoved s t) : t.shift = s.shift := by rw [h.frame]
theorem ConverterMoved.latch {s t : State} (h : ConverterMoved s t) : t.latch = s.latch := by rw [h.frame]
theorem ConverterMoved.inited {s t : State} (h : ConverterMoved s t) : t.inited = s.inited := by rw [h.frame]
theorem ConverterMoved.cpc {s t : State} (h : ConverterMoved s t) : t.cpc = s.cpc := by rw [h.frame]
theorem ConverterMoved.cur {s t : State} (h : ConverterMoved s t) : t.cur = s.cur := by rw [h.frame]
theorem ConverterMoved.ms {s t : State} (h : ConverterMoved s t) : t.ms = s.ms := by rw [h.frame]
theorem ConverterMoved.faultCode {s t : State} (h : ConverterMoved s t) : t.faultCode = s.faultCode := by rw [h.frame]
theorem ConverterMoved.faultCw {s t : State} (h : ConverterMoved s t) : t.faultCw = s.faultCw := by rw [h.frame]
theorem ConverterMoved.responses {s t : State} (h : ConverterMoved s t) : t.responses = s.responses := by rw [h.frame]
theorem ConverterMoved.pending {s t : State} (h : ConverterMoved s t) : t.pending = s.pending := by rw [h.frame]
theorem ConverterMoved.prog {s t : State} (h : ConverterMoved s t) : t.prog = s.prog := by rw [h.frame]

/-! ### Running micro-steps -/

theorem runMicros_nil (s : State) : runMicros [] s = .done s := rfl

/-- One micro-step on a quiet schedule. -/
theorem runMicros_cons_quiet {m : MicroStep} {rest : List MicroStep} {s u : State} (hq : quiet 1 s.turns = true)
    (hm : m (s.setTurns (s.turns.drop 1)) = .moved u) :
    runMicros (m :: rest) s = runMicros rest u.nextMicro := by
  rw [runMicros, awaitTurn_quiet hq]
  simp only [hm]

theorem runMicros_append (a b : List MicroStep) (s : State) :
    runMicros (a ++ b) s = match runMicros a s with | .done t => runMicros b t | .over o => .over o := by
  induction a generalizing s with
  | nil => rfl
  | cons m rest ih =>
    simp only [List.cons_append, runMicros]
    rcases awaitTurn s.turns s with t | t
    · rcases hm : m t with u | _ | r
      · simpa [hm] using ih u.nextMicro
      · simp [hm]
      · simp [hm]
    · rfl

/-! ### The sequencer -/

/-- The ways `runCommand` gives an outcome (R27, R200): idle in the faulted state; a reset at the fetch; a fault; the
body run from its start; the body run from where it stands; or the model's stop. -/
theorem runCommand_cases (i : Instr) (rest : Nat → List MicroStep) (done : State → Host.Outcome State Fault Refusal)
    (s : State) :
    (s.faulted = true ∧ runCommand i rest done s = .next (idle s)) ∨
    (s.faulted = false ∧ s.cur = none ∧
      ((∃ t, awaitTurn s.turns s = .aborted t ∧ runCommand i rest done s = .next t) ∨
       (∃ t f, awaitTurn s.turns s = .go t ∧ check i t = some f ∧
          runCommand i rest done s = .next (raise f (encode i) t)) ∨
       (∃ t, awaitTurn s.turns s = .go t ∧ check i t = none ∧
          runCommand i rest done s
            = afterBody done (runMicros (rest 0) (begin i t))))) ∨
    (s.faulted = false ∧ s.cur = some i ∧
      runCommand i rest done s = afterBody done (runMicros (rest s.ms) s)) ∨
    (s.faulted = false ∧ (∃ j, s.cur = some j ∧ j ≠ i) ∧ runCommand i rest done s = .fault .commandInProgress) := by
  unfold runCommand
  cases hf : s.faulted with
  | true => exact .inl ⟨rfl, by simp⟩
  | false =>
    right
    cases hc : s.cur with
    | none =>
      left
      refine ⟨rfl, rfl, ?_⟩
      cases ha : awaitTurn s.turns s with
      | aborted t => exact .inl ⟨t, rfl, by simp⟩
      | go t =>
        cases hk : check i t with
        | some f => exact .inr (.inl ⟨t, f, rfl, hk, by simp [hk]⟩)
        | none => exact .inr (.inr ⟨t, rfl, hk, by simp [hk]⟩)
    | some j =>
      right
      by_cases hj : j = i
      · subst hj; exact .inl ⟨rfl, rfl, by simp⟩
      · exact .inr ⟨rfl, ⟨j, rfl, hj⟩, by simp [hj]⟩

/-- A command fetched on a quiet schedule and let through by its check runs its body. -/
theorem runCommand_fetch {i : Instr} {rest : Nat → List MicroStep} {done : State → Host.Outcome State Fault Refusal}
    {s : State} (hr : s.ready = true) (hq : quiet 1 s.turns = true)
    (hk : check i (s.setTurns (s.turns.drop 1)) = none) :
    runCommand i rest done s
      = afterBody done (runMicros (rest 0) (begin i (s.setTurns (s.turns.drop 1)))) := by
  simp only [State.ready, Bool.and_eq_true, Bool.not_eq_true', Option.isNone_iff_eq_none] at hr
  unfold runCommand
  rw [hr.1, hr.2, awaitTurn_quiet hq]
  simp only [hk, Bool.false_eq_true, if_false]

/-- A command fetched on a quiet schedule and refused by its check raises that fault and does nothing else (R200). -/
theorem runCommand_raise {i : Instr} {rest : Nat → List MicroStep} {done : State → Host.Outcome State Fault Refusal}
    {s : State} {f : FaultName} (hr : s.ready = true) (hq : quiet 1 s.turns = true)
    (hk : check i (s.setTurns (s.turns.drop 1)) = some f) :
    runCommand i rest done s = .next (raise f (encode i) (s.setTurns (s.turns.drop 1))) := by
  simp only [State.ready, Bool.and_eq_true, Bool.not_eq_true', Option.isNone_iff_eq_none] at hr
  unfold runCommand
  rw [hr.1, hr.2, awaitTurn_quiet hq]
  simp only [hk, Bool.false_eq_true, if_false]

/-- Completion on a quiet schedule (R27 (c)). -/
theorem complete_quiet {i : Instr} {s : State} (hq : quiet 1 s.turns = true) :
    complete i s = .next (finish i (s.setTurns (s.turns.drop 1))) := by
  rw [complete, awaitTurn_quiet hq]

/-- Check does not look at the schedule. -/
theorem check_turns (i : Instr) (s : State) (ts : Schedule) : check i (s.setTurns ts) = check i s := rfl

/-- A faulted block is halted: no command runs (R200). -/
theorem runCommand_faulted {i : Instr} {rest : Nat → List MicroStep}
    {done : State → Host.Outcome State Fault Refusal} {s : State} (hf : s.faulted = true) :
    runCommand i rest done s = .next (idle s) := by
  unfold runCommand; rw [hf]; rfl

/-- A command of one micro-step, fetched and let through on a quiet schedule, completes. -/
theorem runBody_single {i : Instr} {m : MicroStep} {s u : State} (hr : s.ready = true) (hq : quiet 3 s.turns = true)
    (hk : check i s = none) (hm : m ((begin i s).setTurns (s.turns.drop 2)) = .moved u)
    (hu : u.turns = s.turns.drop 2) :
    runBody i [m] s = .next (finish i (u.nextMicro.setTurns (s.turns.drop 3))) := by
  have h1 : quiet 1 (s.turns.drop 1) = true := quiet_drop 1 (quiet_mono hq (by omega))
  have h2 : quiet 1 (s.turns.drop 2) = true := quiet_drop 2 (quiet_mono hq (by omega))
  have hb : (begin i (s.setTurns (s.turns.drop 1))).turns.drop 1 = s.turns.drop 2 := by simp
  rw [runBody, runCommand_fetch hr (quiet_mono hq (by omega)) ((check_turns i s _).trans hk)]
  simp only [List.drop_zero]
  rw [runMicros_cons_quiet (u := u) (by simpa using h1)]
  · simp only [runMicros_nil, afterBody]
    rw [complete_quiet (by simpa [hu] using h2)]
    simp [hu]
  · rw [hb]; exact hm

end Sys2Proof.Machine
end

