-- ==== Sys2Proof/Laws/Step.lean ====
section
/-! SUPPORT. What a step can do, said once for every command: each meaning is the sequencer over its body. -/

namespace Sys2Proof.Machine

/-- What is left of a command's body at micro-step `ms` (R27; RUN's body repeats, R181). -/
def restOf (i : Instr) (ms : Nat) : List MicroStep :=
  if i = .run then stepBody.drop (ms % stepBody.length) else (bodyOf i).drop ms

/-- What follows a command's body: completion, or for RUN nothing (R181). -/
def doneOf (i : Instr) : State → Host.Outcome State Fault Refusal := if i = .run then .next else complete i

/-- Every meaning is the sequencer over its body. -/
theorem exec_eq (i : Instr) (s : State) : exec i s = runCommand i (restOf i) (doneOf i) s := by
  cases i <;> rfl

/-- The sequencer reads the body of the command through `microAt`. -/
theorem microAt_eq (i : Instr) (ms : Nat) : microAt i ms = (restOf i ms)[0]? := by
  unfold microAt restOf
  split_ifs <;> simp

/-- In the faulted state a step is a move of the environment (R200). -/
theorem step_faulted {s : State} (hf : s.faulted = true) : step s = .next (idle s) := by
  unfold step
  cases hc : s.cur with
  | none => simp [fetchWord, hf]
  | some i => simp only [exec_eq]; exact runCommand_faulted hf

/-- The ways a step gives an outcome: the environment moves; an illegal word faults; a command runs. -/
theorem step_cases (s : State) :
    (step s = .next (idle s) ∧ (s.faulted = true ∨ (s.cur = none ∧ s.prog[s.cpc]? = none))) ∨
    (s.faulted = false ∧ s.cur = none ∧ ∃ cw r, s.prog[s.cpc]? = some cw ∧ decode cw = .illegal r
      ∧ step s = .next (fetchIllegal cw s)) ∨
    (s.faulted = false ∧ ∃ i, step s = exec i s ∧
      (s.cur = some i ∨ (s.cur = none ∧ ∃ cw, s.prog[s.cpc]? = some cw ∧ decode cw = .cmd i))) := by
  cases hf : s.faulted with
  | true => exact .inl ⟨step_faulted hf, .inl rfl⟩
  | false =>
    cases hc : s.cur with
    | some i => exact .inr (.inr ⟨rfl, i, by simp [step, hc], .inl rfl⟩)
    | none =>
      cases hp : s.prog[s.cpc]? with
      | none => exact .inl ⟨by simp [step, hc, fetchWord, hp], .inr ⟨rfl, rfl⟩⟩
      | some cw =>
        cases hd : decode cw with
        | illegal r => exact .inr (.inl ⟨rfl, rfl, cw, r, rfl, hd, by simp [step, hc, fetchWord, hf, hp, hd]⟩)
        | cmd i => exact .inr (.inr ⟨rfl, i, by simp [step, hc, fetchWord, hf, hp, hd], .inr ⟨rfl, cw, rfl, hd⟩⟩)

/-- The ways a move of the environment goes with nothing for the controller to do (R185, R200). -/
theorem idle_cases (s : State) :
    (ConverterMoved s (idle s) ∧ (idle s).turns = s.turns.next.2) ∨
    ∃ k rest, s.turns.next = (.reset k, rest) ∧ idle s = resetStep k (s.setTurns rest) := by
  unfold idle
  rcases hn : s.turns.next with ⟨a, rest⟩
  cases a with
  | controller => exact .inl ⟨.inl rfl, rfl⟩
  | converter v =>
    refine .inl ⟨ConverterMoved.of_step (v := v) (.inl ?_), ?_⟩ <;>
      cases hb : s.adcState <;> simp [converterStep, hb, State.setTurns, State.adcToDone, State.record]
  | reset k => exact .inr ⟨k, rest, rfl, rfl⟩

end Sys2Proof.Machine
end

