-- ==== Sys2Proof/Laws/Body.lean ====
section
/-! SUPPORT. What the body micro-steps of each command can do, said once, and what a run of them keeps (10_state R27,
00_scope R9, R13). -/

namespace Sys2Proof.Machine

/-! ### One micro-step -/

/-- The commands whose bodies contain SHIFTOUT's 43 micro-steps (43_output_driver R158, 44_loop R180). -/
def shiftsOut (i : Instr) : Prop := i = .shiftout ∨ i = .step ∨ i = .run

/-- Everything a body micro-step of a command that moves can do to the state, the micro-step index apart. -/
inductive Moved : Instr → State → State → Prop
  | init (a : State) : Moved .init a (a.configured.record .init)
  | setl (a : State) {id : BitVec 2} {l : Line} (v : Bool) : lineOfId id = some l → Moved (.setl id v) a (writeLine l v a)
  | getl (a : State) {id : BitVec 2} {l : Line} {b : Bool} : lineOfId id = some l → boolOfLevel (a.lvl l) = some b →
      Moved (.getl id) a (a.respondLater (boolWord b))
  | delay (a : State) (t : BitVec 12) : Moved (.delay t) a (a.record (.delay (delayTime t)))
  | poll (a : State) : Moved .adpoll a (a.respondLater (boolWord a.conversionReady))
  | start (a : State) {i : Instr} : startsConversion i = true → Moved i a (a.adcToBusy.record .adcStart)
  | await (a : State) {i : Instr} : (i = .sample ∨ i = .step ∨ i = .run) → a.adcState = .done → Moved i a a
  | take (a : State) {i : Instr} {v : Code} : (i = .step ∨ i = .run) → a.adcRes = some v →
      Moved i a ((a.setRaw v).record (.adcRead v))
  | takeRespond (a : State) {i : Instr} {v : Code} : (i = .adread ∨ i = .sample) → a.adcRes = some v →
      Moved i a (((a.setRaw v).record (.adcRead v)).respondLater (codeWord v))
  | loadRaw (a : State) (n : Code) : Moved (.ldraw n) a (a.setRaw n)
  | map (a : State) {v : Code} : a.raw = some v →
      Moved .map a ((a.setMapped v).respondLater (mapWord (quant v).1 (quant v).2))
  | mapRaw (a : State) {i : Instr} {v : Code} : (i = .step ∨ i = .run) → a.raw = some v → Moved i a (a.setMapped v)
  | loadPattern (a : State) (b : Byte) : Moved (.ldpat b) a (a.setPattern b)
  | drive (a : State) {i : Instr} (l : Line) (v : Bool) : shiftsOut i → Moved i a (writeLine l v a)
  | wait (a : State) {i : Instr} (t : Nat) : shiftsOut i → Moved i a (a.record (.delay t))

/-! No body micro-step writes the sequencer's own fields, PROG or the schedule. -/

theorem Moved.turns {i : Instr} {a u : State} (h : Moved i a u) : u.turns = a.turns := by cases h <;> simp
theorem Moved.cur {i : Instr} {a u : State} (h : Moved i a u) : u.cur = a.cur := by cases h <;> simp
theorem Moved.ms {i : Instr} {a u : State} (h : Moved i a u) : u.ms = a.ms := by cases h <;> simp
theorem Moved.cpc {i : Instr} {a u : State} (h : Moved i a u) : u.cpc = a.cpc := by cases h <;> simp
theorem Moved.prog {i : Instr} {a u : State} (h : Moved i a u) : u.prog = a.prog := by cases h <;> simp
theorem Moved.faultCode {i : Instr} {a u : State} (h : Moved i a u) : u.faultCode = a.faultCode := by cases h <;> simp
theorem Moved.faultCw {i : Instr} {a u : State} (h : Moved i a u) : u.faultCw = a.faultCw := by cases h <;> simp
theorem Moved.responses {i : Instr} {a u : State} (h : Moved i a u) : u.responses = a.responses := by cases h <;> simp

theorem Moved.inited {i : Instr} {a u : State} (h : Moved i a u) (hi : i ≠ .init) : u.inited = a.inited := by
  cases h <;> simp_all

/-- What the domains of the fields give a micro-step that reads the converter's result or a line. -/
def Readable (a : State) : Prop :=
  (a.adcState = .done → a.adcRes.isSome = true) ∧ (a.inited = true → ∀ l, a.lvl l ≠ .z)

/-- A micro-step of SHIFTOUT writes a line or waits, and needs PATTERN alone (R158). -/
theorem shiftoutBody_micro {i : Instr} {m : MicroStep} (hi : shiftsOut i) (hm : m ∈ shiftoutBody) (a : State)
    (hp : a.pattern.isSome = true) :
    ∃ u, m a = .moved u ∧ Moved i a u ∧ u.pattern = a.pattern ∧ u.raw = a.raw ∧ u.adcState = a.adcState := by
  obtain ⟨b, hb⟩ := Option.isSome_iff_exists.1 hp
  have hl : ∀ l v, ∃ u, lineWrite l v a = .moved u ∧ Moved i a u ∧ u.pattern = a.pattern ∧ u.raw = a.raw
      ∧ u.adcState = a.adcState := fun l v => ⟨_, rfl, .drive a l v hi, by simp⟩
  have hd : ∀ t, ∃ u, delayFor t a = .moved u ∧ Moved i a u ∧ u.pattern = a.pattern ∧ u.raw = a.raw
      ∧ u.adcState = a.adcState := fun t => ⟨_, rfl, .wait a t hi, by simp⟩
  have hw : ∀ k, ∃ u, writeBit k a = .moved u ∧ Moved i a u ∧ u.pattern = a.pattern ∧ u.raw = a.raw
      ∧ u.adcState = a.adcState := fun k => by
    simp only [writeBit, hb]; exact ⟨_, rfl, .drive a .ser _ hi, by simp [hb]⟩
  rw [shiftoutBody, List.mem_append, List.mem_flatMap] at hm
  rcases hm with ⟨k, -, hm⟩ | hm
  · simp only [bitSteps, List.mem_cons, List.not_mem_nil, or_false] at hm
    rcases hm with rfl | rfl | rfl | rfl | rfl
    · exact hw k
    · exact hl _ _
    · exact hd _
    · exact hl _ _
    · exact hd _
  · simp only [latchSteps, List.mem_cons, List.not_mem_nil, or_false] at hm
    rcases hm with rfl | rfl | rfl
    · exact hl _ _
    · exact hd _
    · exact hl _ _

/-- What the body micro-step of index `k` of a command does where its needs are met: it moves, in one of the ways of
`Moved`, to where the next one's needs are met; or it is SAMPLE's, STEP's or RUN's AwaitAdc, which holds in BUSY
(41_sampler R114). -/
theorem bodyOf_micro {i : Instr} {k : Nat} {m : MicroStep} {a : State} (hk : (bodyOf i)[k]? = some m)
    (hn : Needs i k a) (hr : Readable a) :
    (∃ u, m a = .moved u ∧ Moved i a u ∧ Needs i (k + 1) u.nextMicro) ∨
    (m a = .held ∧ k = 1 ∧ (i = .sample ∨ i = .step ∨ i = .run) ∧ a.adcState = .busy) := by
  have loop : ∀ i : Instr, (i = .step ∨ i = .run) → bodyOf i = stepBody → (∀ k a, Needs i k a ↔ Needs .step k a) →
      (bodyOf i)[k]? = some m → Needs .step k a →
      (∃ u, m a = .moved u ∧ Moved i a u ∧ Needs i (k + 1) u.nextMicro) ∨
      (m a = .held ∧ k = 1 ∧ (i = .sample ∨ i = .step ∨ i = .run) ∧ a.adcState = .busy) := by
    rintro i hi hb hN hk ⟨h0, hB, h1, h2, h3, h4⟩
    have hs : startsConversion i = true := by rcases hi with rfl | rfl <;> rfl
    simp only [hN]
    rw [hb, stepBody] at hk
    match k with
    | 0 => cases hk; exact .inl ⟨_, rfl, .start a hs, by simp [Needs, h0]⟩
    | 1 =>
      cases hk
      rcases h1 (Nat.le_refl _) with hA | hA
      · exact .inr ⟨by simp [awaitAdc, hA], rfl, .inr hi, hA⟩
      · exact .inl ⟨a, by simp [awaitAdc, hA], .await a (.inr hi) hA, by simp [Needs, hA, h0]⟩
    | 2 =>
      cases hk
      obtain ⟨v, hv⟩ := Option.isSome_iff_exists.1 (hr.1 (h2 (Nat.le_refl _)))
      exact .inl ⟨_, by simp only [adcTake, hv], .take a hi hv, by simp [Needs, h0, h2]⟩
    | 3 =>
      cases hk
      obtain ⟨v, hv⟩ := Option.isSome_iff_exists.1 (h3 (Nat.le_refl _))
      exact .inl ⟨_, by simp only [mapRaw, hv], .mapRaw a hi hv, by simp [Needs, h0, h2, hv]⟩
    | k + 4 =>
      have hm : m ∈ shiftoutBody := List.mem_of_getElem? (i := k) (by simpa using hk)
      obtain ⟨u, hu, hM, hp, hw, hA⟩ := shiftoutBody_micro (i := i) (.inr hi) hm a (h4 (by omega))
      have hI : u.inited = a.inited := hM.inited (by rcases hi with rfl | rfl <;> simp)
      refine .inl ⟨u, hu, hM, ?_⟩
      simp [Needs, hp, hw, hA, hI, h0, h2 (by omega), h3 (by omega), h4 (by omega)]
  cases i with
  | init => match k, hk with | 0, hk => cases hk; exact .inl ⟨_, rfl, .init a, by simp [Needs]⟩
  | setl id v =>
    simp only [bodyOf, setlBody] at hk
    split at hk
    · rename_i l hl
      match k, hk with | 0, hk => cases hk; exact .inl ⟨_, rfl, .setl a v hl, by simpa [Needs] using hn⟩
    · cases hk
  | getl id =>
    simp only [bodyOf, getlBody] at hk
    split at hk
    · rename_i l hl
      match k, hk with
      | 0, hk =>
        cases hk
        have hz := hr.2 hn l
        obtain ⟨b, hb⟩ : ∃ b, boolOfLevel (a.lvl l) = some b := by
          cases h : a.lvl l <;> simp_all [boolOfLevel]
        exact .inl ⟨_, by simp only [readLine, hb], .getl a hl hb, hn⟩
    · cases hk
  | delay t => match k, hk with | 0, hk => cases hk; exact .inl ⟨_, rfl, .delay a t, trivial⟩
  | adstart => match k, hk with | 0, hk => cases hk; exact .inl ⟨_, rfl, .start a rfl, by simpa [Needs] using hn.1⟩
  | adpoll => match k, hk with | 0, hk => cases hk; exact .inl ⟨_, rfl, .poll a, by simpa [Needs] using hn⟩
  | adread =>
    match k, hk with
    | 0, hk =>
      cases hk
      obtain ⟨v, hv⟩ := Option.isSome_iff_exists.1 (hr.1 hn.2)
      exact .inl ⟨_, by simp only [takeAndRespond, adcTake, hv]; rfl, .takeRespond a (.inl rfl) hv, hn⟩
  | sample =>
    match k, hk with
    | 0, hk => cases hk; exact .inl ⟨_, rfl, .start a rfl, by simp [Needs, hn.1]⟩
    | 1, hk =>
      cases hk
      rcases hn.2.2.1 (Nat.le_refl _) with hA | hA
      · exact .inr ⟨by simp [awaitAdc, hA], rfl, .inl rfl, hA⟩
      · exact .inl ⟨a, by simp [awaitAdc, hA], .await a (.inl rfl) hA, by simp [Needs, hA, hn.1]⟩
    | 2, hk =>
      cases hk
      obtain ⟨v, hv⟩ := Option.isSome_iff_exists.1 (hr.1 (hn.2.2.2 (Nat.le_refl _)))
      exact .inl ⟨_, by simp only [takeAndRespond, adcTake, hv]; rfl, .takeRespond a (.inr rfl) hv,
        by simp [Needs, hn.1, hn.2.2.2]⟩
  | ldraw n => match k, hk with | 0, hk => cases hk; exact .inl ⟨_, rfl, .loadRaw a n, trivial⟩
  | map =>
    match k, hk with
    | 0, hk =>
      cases hk
      obtain ⟨v, hv⟩ := Option.isSome_iff_exists.1 hn
      exact .inl ⟨_, by simp only [mapAndRespond, hv], .map a hv, by simp [Needs, hv]⟩
  | ldpat b => match k, hk with | 0, hk => cases hk; exact .inl ⟨_, rfl, .loadPattern a b, trivial⟩
  | shiftout =>
    obtain ⟨u, hu, hM, hp, -, -⟩ :=
      shiftoutBody_micro (i := .shiftout) (.inl rfl) (List.mem_of_getElem? hk) a hn.2
    exact .inl ⟨u, hu, hM, by simpa [Needs, hp, hM.inited (by simp)] using hn⟩
  | step => exact loop .step (.inl rfl) rfl (fun _ _ => .rfl) hk hn
  | run => exact loop .run (.inr rfl) rfl (fun _ _ => .rfl) hk hn

/-- A micro-step of SHIFTOUT that moves writes a line or waits. -/
theorem shiftoutBody_moved {i : Instr} {m : MicroStep} {a u : State} (hi : shiftsOut i) (hm : m ∈ shiftoutBody)
    (hu : m a = .moved u) : Moved i a u := by
  cases hp : a.pattern with
  | some b =>
    obtain ⟨w, hw, hM, -⟩ := shiftoutBody_micro hi hm a (by simp [hp])
    rw [hw] at hu; cases hu; exact hM
  | none =>
    have hl : ∀ l v, lineWrite l v a = .moved u → Moved i a u := fun l v h => by cases h; exact .drive a l v hi
    have hd : ∀ t, delayFor t a = .moved u → Moved i a u := fun t h => by cases h; exact .wait a t hi
    rw [shiftoutBody, List.mem_append, List.mem_flatMap] at hm
    rcases hm with ⟨k, -, hm⟩ | hm
    · simp only [bitSteps, List.mem_cons, List.not_mem_nil, or_false] at hm
      rcases hm with rfl | rfl | rfl | rfl | rfl
      · simp [writeBit, hp] at hu
      all_goals first | exact hl _ _ hu | exact hd _ hu
    · simp only [latchSteps, List.mem_cons, List.not_mem_nil, or_false] at hm
      rcases hm with rfl | rfl | rfl
      all_goals first | exact hl _ _ hu | exact hd _ hu

/-- A body micro-step that moves does so in one of the ways of `Moved`, in every state. -/
theorem bodyOf_moved {i : Instr} {m : MicroStep} {a u : State} (hm : m ∈ bodyOf i) (hu : m a = .moved u) :
    Moved i a u := by
  have start : ∀ i, startsConversion i = true → adcStart a = .moved u → Moved i a u := fun i hi h => by
    cases h; exact .start a hi
  have await : ∀ i, (i = .sample ∨ i = .step ∨ i = .run) → awaitAdc a = .moved u → Moved i a u := fun i hi h => by
    unfold awaitAdc at h; split at h
    · cases h; exact .await _ hi ‹_›
    · cases h
  have respond : ∀ i, (i = .adread ∨ i = .sample) → takeAndRespond a = .moved u → Moved i a u := fun i hi h => by
    cases hv : a.adcRes with
    | none => simp [takeAndRespond, adcTake, hv] at h
    | some v =>
      simp only [takeAndRespond, adcTake, hv] at h
      cases h; exact .takeRespond a hi hv
  have loop : ∀ i, (i = .step ∨ i = .run) → m ∈ stepBody → Moved i a u := fun i hi h => by
    rw [stepBody, List.mem_append] at h
    rcases h with h | h
    · simp only [List.mem_cons, List.not_mem_nil, or_false] at h
      rcases h with rfl | rfl | rfl | rfl
      · exact start i (by rcases hi with rfl | rfl <;> rfl) hu
      · exact await i (.inr hi) hu
      · cases hv : a.adcRes <;> simp only [adcTake, hv] at hu <;> cases hu
        exact .take a hi hv
      · cases hv : a.raw <;> simp only [mapRaw, hv] at hu <;> cases hu
        exact .mapRaw a hi hv
    · exact shiftoutBody_moved (.inr hi) h hu
  have single : ∀ {f : MicroStep}, m ∈ [f] → f a = .moved u := fun h => by
    rw [List.mem_singleton] at h; exact h ▸ hu
  cases i with
  | init => have h := single hm; cases h; exact .init a
  | setl id v =>
    simp only [bodyOf, setlBody] at hm
    split at hm
    · rename_i l hl; have h := single hm; cases h; exact .setl a v hl
    · cases hm
  | getl id =>
    simp only [bodyOf, getlBody] at hm
    split at hm
    · rename_i l hl
      have h := single hm
      cases hb : boolOfLevel (a.lvl l) <;> simp only [readLine, hb] at h <;> cases h
      exact .getl a hl hb
    · cases hm
  | delay t => have h := single hm; cases h; exact .delay a t
  | adstart => exact start _ rfl (single hm)
  | adpoll => have h := single hm; cases h; exact .poll a
  | adread => exact respond _ (.inl rfl) (single hm)
  | sample =>
    simp only [bodyOf, sampleBody, List.mem_cons, List.not_mem_nil, or_false] at hm
    rcases hm with rfl | rfl | rfl
    · exact start _ rfl hu
    · exact await _ (.inl rfl) hu
    · exact respond _ (.inr rfl) hu
  | ldraw n => have h := single hm; cases h; exact .loadRaw a n
  | map =>
    have h := single hm
    cases hv : a.raw <;> simp only [mapAndRespond, hv] at h <;> cases h
    exact .map a hv
  | ldpat b => have h := single hm; cases h; exact .loadPattern a b
  | shiftout => exact shiftoutBody_moved (.inl rfl) hm hu
  | step => exact loop _ (.inl rfl) hm
  | run => exact loop _ (.inr rfl) hm

/-- What is left of a command's body is part of it. -/
theorem restOf_subset {i : Instr} {ms : Nat} {m : MicroStep} (h : m ∈ restOf i ms) : m ∈ bodyOf i := by
  unfold restOf at h
  split_ifs at h with hi
  · subst hi; exact List.mem_of_mem_drop h
  · exact List.mem_of_mem_drop h

/-! ### A run of micro-steps -/

/-- Everything a run of micro-steps can do: with a property of the micro-step index that the other agents and every
micro-step keep, the run ends done, or at a reset, or at a hold, or at a stop of the model. -/
theorem runMicros_indexed {P : Nat → State → Prop} {ms : List MicroStep} {k : Nat} {s : State}
    (hc : ∀ j a b, awaitTurn a.turns a = .go b → P j a → P j b)
    (hm : ∀ j m a u, ms[j]? = some m → P (k + j) a → m a = .moved u → P (k + j + 1) u.nextMicro) (hs : P k s) :
    (∃ t, runMicros ms s = .done t ∧ P (k + ms.length) t) ∨
    (∃ j a t, j < ms.length ∧ P (k + j) a ∧ awaitTurn a.turns a = .aborted t ∧ runMicros ms s = .over (.next t)) ∨
    (∃ j m t, ms[j]? = some m ∧ P (k + j) t ∧ m t = .held ∧ runMicros ms s = .over (.next t)) ∨
    (∃ j m t r, ms[j]? = some m ∧ P (k + j) t ∧ m t = .stopped r ∧ runMicros ms s = .over (.fault r)) := by
  induction ms generalizing k s with
  | nil => exact .inl ⟨s, rfl, hs⟩
  | cons m rest ih =>
    rw [runMicros]
    cases ha : awaitTurn s.turns s with
    | aborted t => exact .inr (.inl ⟨0, s, t, by simp, hs, ha, rfl⟩)
    | go t =>
      have ht : P k t := hc k s t ha hs
      simp only
      cases hu : m t with
      | held => exact .inr (.inr (.inl ⟨0, m, t, rfl, ht, hu, rfl⟩))
      | stopped r => exact .inr (.inr (.inr ⟨0, m, t, r, rfl, ht, hu, rfl⟩))
      | moved u =>
        have step : ∀ j, k + 1 + j = k + (j + 1) := fun j => by omega
        rcases ih (k := k + 1) (s := u.nextMicro)
            (fun j m' a u' hj hP hmv => by
              have := hm (j + 1) m' a u' (by simpa using hj) (by rwa [← step]) hmv
              rwa [step]) (hm 0 m t u rfl ht hu) with
          ⟨t', h1, h2⟩ | ⟨j, a, t', hj, h1, h2, h3⟩ | ⟨j, m', t', hj, h1, h2, h3⟩ | ⟨j, m', t', r, hj, h1, h2, h3⟩
        · exact .inl ⟨t', h1, by rw [List.length_cons, ← step]; exact h2⟩
        · exact .inr (.inl ⟨j + 1, a, t', by simpa using hj, by rwa [← step], h2, h3⟩)
        · exact .inr (.inr (.inl ⟨j + 1, m', t', by simpa using hj, by rwa [← step], h2, h3⟩))
        · exact .inr (.inr (.inr ⟨j + 1, m', t', r, by simpa using hj, by rwa [← step], h2, h3⟩))

end Sys2Proof.Machine
end

