-- ==== Sys2Proof/Laws/Exec.lean ====
section
/-! SUPPORT. What running a command keeps: one induction over everything `exec` can do, under any schedule, and its form
for schedules with no reset. -/

namespace Sys2Proof.Machine

/-- A property that the other agents' moves, a reset, a fault, the start of a command and every body micro-step keep
holds of where a command gets to; or the command completed from a state that has it. -/
theorem exec_keeps {i : Instr} {P : State → Prop} {s t : State}
    (hgo : ∀ a b, awaitTurn a.turns a = .go b → P a → P b)
    (hreset : ∀ a b, awaitTurn a.turns a = .aborted b → P a → P b)
    (hidle : P s → P (idle s))
    (hraise : ∀ f a, P a → P (raise f (encode i) a))
    (hbegin : ∀ a, P a → P (begin i a))
    (hmicro : ∀ a u, Moved i a u → P a → P u.nextMicro)
    (hs : P s) (h : exec i s = .next t) : P t ∨ ∃ a, P a ∧ i ≠ .run ∧ t = finish i a := by
  rw [exec_eq] at h
  have body : ∀ ms a, (∀ m ∈ ms, m ∈ bodyOf i) → P a → afterBody (doneOf i) (runMicros ms a) = .next t →
      P t ∨ ∃ a, P a ∧ i ≠ .run ∧ t = finish i a := by
    intro ms a hms ha h
    rcases runMicros_indexed (P := fun _ => P) (k := 0) (fun _ => hgo)
        (fun j m a u hj hP hu => hmicro _ _ (bodyOf_moved (hms m (List.mem_of_getElem? hj)) hu) hP) ha with
      ⟨u, hu, hP⟩ | ⟨j, w, u, -, hP, hab, ho⟩ | ⟨j, m, u, -, hP, -, ho⟩ | ⟨j, m, u, r, -, -, -, ho⟩
    · rw [hu] at h
      simp only [afterBody, doneOf] at h
      split_ifs at h with hi
      · cases h; exact .inl hP
      · unfold complete at h
        split at h <;> rename_i hw <;> cases h
        · exact .inl (hreset _ _ hw hP)
        · exact .inr ⟨_, hgo _ _ hw hP, hi, rfl⟩
    · rw [ho] at h; cases h; exact .inl (hreset _ _ hab hP)
    · rw [ho] at h; cases h; exact .inl hP
    · rw [ho] at h; cases h
  rcases runCommand_cases i (restOf i) (doneOf i) s with
    ⟨-, h1⟩ | ⟨-, -, ⟨u, ha, h1⟩ | ⟨u, f, ha, -, h1⟩ | ⟨u, ha, -, h1⟩⟩ | ⟨-, -, h1⟩ | ⟨-, -, h1⟩
  · rw [h1] at h; cases h; exact .inl (hidle hs)
  · rw [h1] at h; cases h; exact .inl (hreset _ _ ha hs)
  · rw [h1] at h; cases h; exact .inl (hraise _ _ (hgo _ _ ha hs))
  · rw [h1] at h; exact body _ _ (fun m hm => restOf_subset hm) (hbegin _ (hgo _ _ ha hs)) h
  · rw [h1] at h; exact body _ _ (fun m hm => restOf_subset hm) hs h
  · rw [h1] at h; cases h

/-- The same under a schedule with no reset, where the only other agent that moves is the converter. -/
theorem exec_keeps_noReset {i : Instr} {P : State → Prop} {s t : State} (hn : noReset s.turns)
    (hconverter : ∀ a b, ConverterMoved a b → P a → P b)
    (hraise : ∀ f a, P a → P (raise f (encode i) a))
    (hbegin : ∀ a, P a → P (begin i a))
    (hmicro : ∀ a u, Moved i a u → P a → P u.nextMicro)
    (hs : P s) (h : exec i s = .next t) : P t ∨ ∃ a, P a ∧ i ≠ .run ∧ t = finish i a := by
  have go : ∀ a b, awaitTurn a.turns a = .go b → P a ∧ noReset a.turns → P b ∧ noReset b.turns := by
    intro a b hab hP
    obtain ⟨w, hw, hcm, hnw⟩ := awaitTurn_of_noReset a hP.2
    rw [hw] at hab; cases hab
    exact ⟨hconverter _ _ hcm hP.1, hnw⟩
  rcases exec_keeps (P := fun a => P a ∧ noReset a.turns) go
    (fun a b hab hP => by obtain ⟨w, hw, -⟩ := awaitTurn_of_noReset a hP.2; rw [hw] at hab; cases hab)
    (fun hP => by
      have hnext := noReset_next hn
      rcases idle_cases s with ⟨hi, ht⟩ | ⟨k, rest, ht, -⟩
      · exact ⟨hconverter _ _ hi hP.1, by rw [ht]; exact hnext.2⟩
      · exact absurd (by rw [ht]) (hnext.1 k))
    (fun f a hP => ⟨hraise f a hP.1, by simpa using hP.2⟩) (fun a hP => ⟨hbegin a hP.1, by simpa using hP.2⟩)
    (fun a u hM hP => ⟨hmicro a u hM hP.1, by simpa [hM.turns] using hP.2⟩) ⟨hs, hn⟩ h with
    hP | ⟨a, hP, hi, rfl⟩
  · exact .inl hP.1
  · exact .inr ⟨a, hP.1, hi, rfl⟩

end Sys2Proof.Machine
end

