-- ==== Sys2Proof/Laws/Invariant.lean ====
section
/-! SUPPORT. What keeps the domains of the fields (10_state R20 to R36), move by move, and what a command needs of the state
at each of its micro-steps. -/

namespace Sys2Proof.Machine

/-! ### The domains, move by move -/

theorem State.lvl_eq {a b : State} (h1 : b.lvlSer = a.lvlSer) (h2 : b.lvlSrclk = a.lvlSrclk)
    (h3 : b.lvlRclk = a.lvlRclk) (l : Line) : b.lvl l = a.lvl l := by cases l <;> assumption

theorem State.dir_eq {a b : State} (h1 : b.dirSer = a.dirSer) (h2 : b.dirSrclk = a.dirSrclk)
    (h3 : b.dirRclk = a.dirRclk) (l : Line) : b.dir l = a.dir l := by cases l <;> assumption

/-- INIT drives every line (R25, R92). -/
theorem Domains.driven {s : State} (d : Domains s) (h : s.inited = true) (l : Line) : s.lvl l ≠ .z := fun hz => by
  have := (d.output_iff_inited l).2 h
  rw [(d.undriven_iff_input l).1 hz] at this
  cases this

theorem Domains.readable {s : State} (d : Domains s) : Readable s := ⟨d.result_iff_done.2, d.driven⟩

/-- The domains do not see the sequencer's fields, RESPONSES, the schedule or events the receiver does not see; RAW and
PATTERN may be written, POWER not. -/
theorem Domains.congr {a b : State} (d : Domains a)
    (hl : ∀ l, b.lvl l = a.lvl l) (hd : ∀ l, b.dir l = a.dir l) (hi : b.inited = a.inited)
    (hc : b.adcEn = a.adcEn ∧ b.adcCh = a.adcCh ∧ b.adcRef = a.adcRef ∧ b.adcMode = a.adcMode ∧ b.adcPresc = a.adcPresc)
    (hs : b.adcState = a.adcState) (hr : b.adcRes = a.adcRes) (hp : b.power = a.power)
    (hw : a.raw.isSome = true → b.raw.isSome = true) (hb : a.pattern.isSome = true → b.pattern.isSome = true)
    (ht : b.timing = a.timing) (hf : b.faultCode ≠ 7#3 ∧ (b.faultCode = 0#3 → b.faultCw = 0#16))
    (hn : b.cpc ≤ b.prog.length) : Domains b := by
  obtain ⟨e1, e2, e3, e4, e5⟩ := hc
  refine ⟨fun l => by rw [hl, hd]; exact d.undriven_iff_input l, fun l => by rw [hd, hi]; exact d.output_iff_inited l,
    by rw [hi, e1, e2, e3, e4, e5]; exact d.config, by rw [hs, hi]; exact d.off_iff_uninitialised,
    by rw [hr, hs]; exact d.result_iff_done, by rw [hp]; exact d.power_le, fun h => ?_, ?_, hf, hn⟩
  · rw [hp] at h
    exact ⟨hw (d.power_written h).1, hb (d.power_written h).2⟩
  · have a1 : b.lvlSrclk = a.lvlSrclk := hl .srclk
    have a2 : b.lvlRclk = a.lvlRclk := hl .rclk
    rw [hi, ht, a1, a2]; exact d.clocks

theorem Domains.converter {a b : State} (h : ConverterMoved a b) (d : Domains a) : Domains b := by
  refine ⟨fun l => by rw [h.lvl, h.dir]; exact d.undriven_iff_input l,
    fun l => by rw [h.dir, h.inited]; exact d.output_iff_inited l, by rw [h.frame]; exact d.config, ?_, ?_,
    by rw [h.power]; exact d.power_le, by rw [h.power, h.raw, h.pattern]; exact d.power_written,
    by rw [h.inited, h.timing, h.lvlSrclk, h.lvlRclk]; exact d.clocks,
    by rw [h.faultCode, h.faultCw]; exact d.fault_record, by rw [h.cpc, h.prog]; exact d.cpc_le⟩
  · rw [h.inited, ← d.off_iff_uninitialised]
    rcases h with h | ⟨hb, v, h⟩ <;> rw [h]
    · simp
    · simp [hb]
  · rcases h with h | ⟨hb, v, h⟩ <;> rw [h]
    · simpa using d.result_iff_done
    · simp

theorem Domains.reset (k : ResetKind) (a : State) : Domains (resetStep k a) := by
  cases k <;> constructor <;> (try intro l; cases l) <;>
    simp [resetStep, clearForReset, State.reset, State.lvl, State.dir]

theorem Domains.begin {i : Instr} {s : State} (d : Domains s) : Domains (begin i s) :=
  ⟨d.undriven_iff_input, d.output_iff_inited, d.config, d.off_iff_uninitialised, d.result_iff_done, d.power_le,
    d.power_written, d.clocks, d.fault_record, d.cpc_le⟩

theorem Domains.setTurns {ts : Schedule} {s : State} (d : Domains s) : Domains (s.setTurns ts) :=
  ⟨d.undriven_iff_input, d.output_iff_inited, d.config, d.off_iff_uninitialised, d.result_iff_done, d.power_le,
    d.power_written, d.clocks, d.fault_record, d.cpc_le⟩

theorem Domains.raise {f : FaultName} {cw : Word} {s : State} (d : Domains s) : Domains (raise f cw s) := by
  refine d.congr (State.lvl_eq ?_ ?_ ?_) (State.dir_eq ?_ ?_ ?_) ?_ ⟨?_, ?_, ?_, ?_, ?_⟩ ?_ ?_ ?_ ?_ ?_ ?_ ?_ ?_ <;>
    simp [State.timing, d.cpc_le, timingAfter]
  cases f <;> simp [faultCodeOf]

/-- Completion keeps the domains where CPC has a word to leave (R26). -/
theorem Domains.finish {i : Instr} {s : State} (d : Domains s) (h : s.cpc < s.prog.length) : Domains (finish i s) := by
  refine d.congr (State.lvl_eq ?_ ?_ ?_) (State.dir_eq ?_ ?_ ?_) ?_ ⟨?_, ?_, ?_, ?_, ?_⟩ ?_ ?_ ?_ ?_ ?_ ?_ ?_ ?_ <;>
    simp [State.timing]
  · exact d.fault_record
  · exact h

/-- A line write keeps the domains of an initialised block (R25, R90). -/
theorem Domains.writeLine {a : State} (d : Domains a) (hin : a.inited = true) (l : Line) (v : Bool) :
    Domains (writeLine l v a).nextMicro := by
  have hz := d.driven hin
  refine ⟨fun l' => ?_, fun l' => ?_, by simpa using d.config, by simpa using d.off_iff_uninitialised,
    by simpa using d.result_iff_done, by simpa using d.power_le, by simpa using d.power_written, fun _ => ?_,
    by simpa using d.fault_record, by simpa using d.cpc_le⟩
  · have h1 := hz l'
    have h2 := (d.output_iff_inited l').2 hin
    have h3 : (Machine.writeLine l v a).nextMicro.dir l' = .output := by cases l' <;> simpa [State.dir] using h2
    rw [h3]
    cases l <;> cases l' <;> cases v <;> simp_all [State.lvl, Machine.writeLine, State.setLvl, levelOfBool]
  · have h2 := d.output_iff_inited l'
    cases l' <;> simpa [State.dir] using h2
  · obtain ⟨t1, t2⟩ := d.clocks hin
    have hs : a.lvlSrclk ≠ .z := hz .srclk
    have hr : a.lvlRclk ≠ .z := hz .rclk
    have ht : (Machine.writeLine l v a).nextMicro.timing = timingAfter a.timing (.line l v) := by
      simp [State.timing]
    rw [ht]
    cases l <;> cases v <;> simp [timingAfter, Machine.writeLine, State.setLvl, levelOfBool, t1, t2] <;> split_ifs <;>
      simp_all

/-- Every body micro-step of a command keeps the domains, in a block its check let through. -/
theorem Domains.moved {i : Instr} {a u : State} (h : Moved i a u) (hi : needsInit i = true → a.inited = true)
    (d : Domains a) : Domains u.nextMicro := by
  have quantised : ∀ (v : Code) (u : State), a.raw = some v →
      u = a.setMapped v ∨ u = (a.setMapped v).respondLater (mapWord (quant v).1 (quant v).2) → Domains u.nextMicro := by
    intro v u hv hu
    have hq : (quant v).1.toNat ≤ Config.powerMax := by
      have := v.isLt
      simp [quant, quantPower, Config.divisor, Config.powerMax]; omega
    rcases hu with rfl | rfl <;>
      exact ⟨d.undriven_iff_input, d.output_iff_inited, d.config, d.off_iff_uninitialised, d.result_iff_done,
        fun p hp => by simp at hp; subst hp; exact hq, by simp [hv], d.clocks, d.fault_record, d.cpc_le⟩
  cases h with
  | init =>
    exact ⟨fun l => by cases l <;> simp [State.lvl, State.dir], fun l => by cases l <;> simp [State.dir], by simp,
      by simp, by simp, d.power_le, d.power_written, by simp [timingAfter, timingStart], d.fault_record, d.cpc_le⟩
  | setl _ v => exact d.writeLine (hi rfl) _ v
  | drive _ l v =>
    exact d.writeLine (hi (by rcases ‹shiftsOut i› with rfl | rfl | rfl <;> rfl)) l v
  | start =>
    have hin : a.inited = true := hi (by cases i <;> simp_all [startsConversion, needsInit])
    exact ⟨d.undriven_iff_input, d.output_iff_inited, d.config, by simp [hin], by simp, d.power_le, d.power_written,
      fun h => by rw [State.timing_nextMicro, State.timing_record]; exact d.clocks h,
      d.fault_record, d.cpc_le⟩
  | map => exact quantised _ _ ‹_› (.inr rfl)
  | mapRaw => exact quantised _ _ ‹_› (.inl rfl)
  | delay _ t =>
    exact ⟨d.undriven_iff_input, d.output_iff_inited, d.config, d.off_iff_uninitialised, d.result_iff_done, d.power_le,
      d.power_written, fun h => by simpa [timingAfter] using d.clocks h, d.fault_record, d.cpc_le⟩
  | wait _ t =>
    exact ⟨d.undriven_iff_input, d.output_iff_inited, d.config, d.off_iff_uninitialised, d.result_iff_done, d.power_le,
      d.power_written, fun h => by simpa [timingAfter] using d.clocks h, d.fault_record, d.cpc_le⟩
  | _ =>
    refine d.congr (State.lvl_eq ?_ ?_ ?_) (State.dir_eq ?_ ?_ ?_) ?_ ⟨?_, ?_, ?_, ?_, ?_⟩ ?_ ?_ ?_ ?_ ?_ ?_ ?_ ?_ <;>
      (simp [State.timing, timingAfter, d.cpc_le, d.fault_record]; try exact d.fault_record.2)

/-! ### What a command needs -/

/-- A command that needs INIT finds the block initialised at every micro-step (R203). -/
theorem Needs.inited {i : Instr} {k : Nat} {a : State} (n : Needs i k a) (h : needsInit i = true) : a.inited = true := by
  cases i <;> simp_all [Needs, needsInit]

theorem Needs.congr {i : Instr} {k : Nat} {a b : State} (n : Needs i k a) (hs : b.adcState = a.adcState)
    (hr : b.raw = a.raw) (hp : b.pattern = a.pattern) (hi : b.inited = a.inited) : Needs i k b := by
  cases i <;> simp only [Needs, hs, hr, hp, hi] at n ⊢ <;> exact n

/-- A completion takes nothing from a command that it needs. -/
theorem Needs.converter {i : Instr} {k : Nat} {a b : State} (h : ConverterMoved a b) (n : Needs i k a) : Needs i k b := by
  rcases h with h | ⟨hb, v, h⟩ <;> generalize b.turns = ts at h <;> subst h
  · exact n.congr rfl rfl rfl rfl
  · cases i <;> simp_all [Needs]

/-- The check lets a command through where its first micro-step has what it needs (R203). -/
theorem check_needs {i : Instr} {s : State} (h : check i s = none) : Needs i 0 s := by
  unfold check at h
  split_ifs at h
  cases i <;> simp_all [needsInit, Needs, startsConversion, Option.isSome_iff_ne_none]

end Sys2Proof.Machine
end

