-- ==== Sys2Proof/Laws/Command.lean ====
section
/-! SUPPORT. What `exec` can do from a state of the invariant, said once for every command and every schedule. -/

namespace Sys2Proof.Machine

/-- A command under way: `u` is where the body of `i`, run from place `start` in the state `a`, stands at place `k`. -/
structure Underway (i : Instr) (a : State) (start k : Nat) (u : State) : Prop where
  domains : Domains u
  cur : u.cur = some i
  unfaulted : u.faultCode = 0#3
  needs : Needs i k u
  prog : u.prog = a.prog
  cpc : u.cpc = a.cpc
  responses : u.responses = a.responses
  ms : u.ms + start = a.ms + k
  /-- No response waits in a command that sends none, nor in SAMPLE before its last micro-step. -/
  pending : responds i = false ∨ (i = .sample ∧ k ≤ 2) → u.pending = none
  turns : ∀ p : Turn → Prop, p .controller → a.turns.all p → u.turns.all p

theorem Underway.go {i : Instr} {a u v : State} {start k : Nat} (w : Underway i a start k u)
    (h : awaitTurn u.turns u = .go v) : Underway i a start k v := by
  have m := awaitTurn_go h
  exact ⟨w.domains.converter m, m.cur.trans w.cur, m.faultCode.trans w.unfaulted, w.needs.converter m,
    m.prog.trans w.prog, m.cpc.trans w.cpc, m.responses.trans w.responses, by rw [m.ms]; exact w.ms,
    fun x => m.pending.trans (w.pending x), fun p hp hts => awaitTurn_go_all hp (w.turns p hp hts) h⟩

/-- Only a command that responds leaves a response waiting, and SAMPLE only at its last micro-step. -/
theorem Moved.pending {i : Instr} {a u : State} (h : Moved i a u) (hr : responds i = false) : u.pending = a.pending := by
  cases h <;> simp_all [responds]
  rename_i h _
  rcases h with rfl | rfl <;> simp at hr

theorem sample_micro_pending {k : Nat} {m : MicroStep} {a u : State} (hk : k ≤ 1) (hm : (bodyOf .sample)[k]? = some m)
    (hu : m a = .moved u) : u.pending = a.pending := by
  match k, hm with
  | 0, hm => cases hm; cases hu; simp
  | 1, hm =>
    cases hm
    simp only [awaitAdc] at hu
    split at hu <;> cases hu
    rfl

theorem Underway.moved {i : Instr} {a u v : State} {start k : Nat} {m : MicroStep} (w : Underway i a start k u)
    (hk : (bodyOf i)[k]? = some m) (hm : m u = .moved v) : Underway i a start (k + 1) v.nextMicro := by
  obtain ⟨v', hv, hM, hN⟩ : ∃ v', m u = .moved v' ∧ Moved i u v' ∧ Needs i (k + 1) v'.nextMicro := by
    rcases bodyOf_micro hk w.needs w.domains.readable with h | ⟨h, -⟩
    · exact h
    · rw [hm] at h; cases h
  rw [hm] at hv
  cases hv
  refine ⟨w.domains.moved hM w.needs.inited, by simp [hM.cur, w.cur], by simp [hM.faultCode, w.unfaulted], hN,
    by simp [hM.prog, w.prog], by simp [hM.cpc, w.cpc], by simp [hM.responses, w.responses], ?_, fun x => ?_,
    fun p hp hts => by simpa [hM.turns] using w.turns p hp hts⟩
  · have := w.ms
    simp [hM.ms]; omega
  · rw [State.nextMicro_pending]
    rcases x with x | ⟨rfl, x⟩
    · rw [hM.pending x]; exact w.pending (.inl x)
    · rw [sample_micro_pending (by omega) hk hm]; exact w.pending (.inr ⟨rfl, by omega⟩)

/-- What running the rest of a command's body can do: reach its end, or a reset before some micro-step, or the hold of
SAMPLE, STEP or RUN. The model's stops are not among them. -/
theorem body_cases {i : Instr} {s a : State} {start : Nat} (hl : (bodyOf i).drop start = restOf i a.ms)
    (w : Underway i s start start a) :
    (∃ t, runMicros (restOf i a.ms) a = .done t ∧ Underway i s start (start + (restOf i a.ms).length) t) ∨
    (∃ k u t, Underway i s start k u ∧ awaitTurn u.turns u = .aborted t
      ∧ runMicros (restOf i a.ms) a = .over (.next t)) ∨
    (∃ t, Underway i s start 1 t ∧ (i = .sample ∨ i = .step ∨ i = .run) ∧ t.adcState = .busy
      ∧ runMicros (restOf i a.ms) a = .over (.next t)) := by
  have idx : ∀ j m, (restOf i a.ms)[j]? = some m → (bodyOf i)[start + j]? = some m := fun j m h => by
    rw [← hl, List.getElem?_drop] at h; exact h
  rcases runMicros_indexed (P := Underway i s start) (k := start) (ms := restOf i a.ms) (s := a)
      (fun j u v h w => w.go h) (fun j m u v hj w hv => w.moved (idx j m hj) hv) w with
    ⟨t, h1, h2⟩ | ⟨j, u, t, -, h1, h2, h3⟩ | ⟨j, m, t, hj, h1, h2, h3⟩ | ⟨j, m, t, r, hj, h1, h2, -⟩
  · exact .inl ⟨t, h1, h2⟩
  · exact .inr (.inl ⟨_, u, t, h1, h2, h3⟩)
  · rcases bodyOf_micro (idx j m hj) h1.needs h1.domains.readable with ⟨v, hv, -⟩ | ⟨-, hk, hi, hb⟩
    · rw [h2] at hv; cases hv
    · rw [hk] at h1; exact .inr (.inr ⟨t, h1, hi, hb, h3⟩)
  · rcases bodyOf_micro (idx j m hj) h1.needs h1.domains.readable with ⟨v, hv, -⟩ | ⟨hh, -⟩
    · rw [h2] at hv; cases hv
    · rw [h2] at hh; cases hh

/-- A command in progress between two steps stands at place 1 (its hold), or RUN at place 0 (between two iterations). -/
theorem inProgress_place {i : Instr} {s : State} (hi : s.inited = true) (h : inProgress i s) :
    Needs i (placeOf i s.ms) s ∧ (bodyOf i).drop (placeOf i s.ms) = restOf i s.ms
      ∧ (i = .sample ∨ i = .step ∨ i = .run) ∧ placeOf i s.ms = (if s.adcState = .busy then 1 else 0) := by
  have hl : stepBody.length = 47 := rfl
  rcases h with ⟨rfl | rfl, h3, h4⟩ | ⟨rfl, h3, h4⟩ | ⟨rfl, h3, h4⟩ <;>
    simp_all [placeOf, restOf, bodyOf, Needs]

/-- What `exec` does from a state of the invariant in which its command may be fetched or stands in progress: a reset comes
at the fetch; or the check raises a fault; or the rest of the body is run, as `body_cases` says, and completion after it. -/
theorem exec_cases {i : Instr} {s : State} (v : Invariant s) (hf : s.faulted = false)
    (hcur : s.cur = none ∨ s.cur = some i) :
    (∃ t, s.cur = none ∧ awaitTurn s.turns s = .aborted t ∧ exec i s = .next t) ∨
    (∃ t f, s.cur = none ∧ awaitTurn s.turns s = .go t ∧ check i t = some f
      ∧ exec i s = .next (raise f (encode i) t)) ∨
    (∃ a start, exec i s = afterBody (doneOf i) (runMicros (restOf i a.ms) a)
      ∧ (bodyOf i).drop start = restOf i a.ms ∧ start = placeOf i a.ms
      ∧ (s.cur = none ∧ start = 0 ∨ s.cur = some i ∧ a = s) ∧ Underway i s start start a) := by
  have hfc : s.faultCode = 0#3 := by simpa [State.faulted] using hf
  rw [exec_eq]
  rcases runCommand_cases i (restOf i) (doneOf i) s with
    ⟨h, -⟩ | ⟨-, hc, ⟨t, ha, h⟩ | ⟨t, f, ha, hk, h⟩ | ⟨t, ha, hk, h⟩⟩ | ⟨-, hc, h⟩ | ⟨-, ⟨j, hj, hji⟩, -⟩
  · rw [hf] at h; cases h
  · exact .inl ⟨t, hc, ha, h⟩
  · exact .inr (.inl ⟨t, f, hc, ha, hk, h⟩)
  · obtain ⟨hms, hp⟩ := v.between hc
    have m := awaitTurn_go ha
    refine .inr (.inr ⟨begin i t, 0, by simpa using h, ?_, ?_, .inl ⟨hc, rfl⟩, (v.toDomains.converter m).begin, rfl,
      by simp [m.faultCode, hfc], (check_needs hk).congr rfl rfl rfl rfl, by simp [m.prog], by simp [m.cpc],
      by simp [m.responses], by simp [hms], fun _ => rfl, fun p hp hts => by simpa using awaitTurn_go_all hp hts ha⟩)
    · cases i <;> rfl
    · cases i <;> rfl
  · obtain ⟨-, hi, hp, -, hin⟩ := v.running i hc
    obtain ⟨hn, hd, -, -⟩ := inProgress_place hi hin
    exact .inr (.inr ⟨s, placeOf i s.ms, h, hd, rfl, .inr ⟨hc, rfl⟩, v.toDomains, hc, hfc, hn, rfl, rfl, rfl, rfl,
      fun _ => hp, fun _ _ h => h⟩)
  · rcases hcur with h | h <;> rw [hj] at h <;> cases h
    exact absurd rfl hji

end Sys2Proof.Machine
end

