-- ==== Sys2Proof/Laws/Driver.lean ====
section
/-! SUPPORT. What the blocks of SHIFTOUT do (43_output_driver R158), under any schedule with no reset: the five
micro-steps of a bit, and the latch pulse. -/

namespace Sys2Proof.Machine

/-- The controller's next micro-step under a schedule with no reset: the converter may move first. -/
theorem runMicros_cons_noReset (m : MicroStep) (rest : List MicroStep) {s : State} (h : noReset s.turns) :
    ∃ t, ConverterMoved s t ∧ noReset t.turns ∧
      (∀ u, m t = .moved u → runMicros (m :: rest) s = runMicros rest u.nextMicro)
      ∧ (m t = .held → runMicros (m :: rest) s = .over (.next t))
      ∧ (∀ r, m t = .stopped r → runMicros (m :: rest) s = .over (.fault r)) := by
  obtain ⟨t, ht, hm, hn⟩ := awaitTurn_of_noReset s h
  refine ⟨t, hm, hn, fun u hu => ?_, fun hu => ?_, fun r hu => ?_⟩ <;> rw [runMicros, ht] <;> simp only [hu]

/-- With no conversion in flight the converter does not move. -/
theorem ConverterMoved.of_not_busy {s t : State} (h : ConverterMoved s t) (hb : s.adcState ≠ .busy) :
    t = s.setTurns t.turns := by
  rcases h with h | ⟨hb', -⟩
  · exact h
  · exact absurd hb' hb

/-- What driving the lines may change, and nothing else: the levels, the receiver, HISTORY, the micro-step index, and
by the other agent the converter and the schedule. -/
def DriverMoved (s u : State) : Prop :=
  u = { s with
    lvlSer := u.lvlSer, lvlSrclk := u.lvlSrclk, lvlRclk := u.lvlRclk, shift := u.shift, latch := u.latch,
    adcState := u.adcState, adcRes := u.adcRes, history := u.history, ms := u.ms, turns := u.turns }

theorem DriverMoved.refl (s : State) : DriverMoved s s := rfl

theorem DriverMoved.trans {s u v : State} (h1 : DriverMoved s u) (h2 : DriverMoved u v) : DriverMoved s v := by
  unfold DriverMoved
  rw [DriverMoved] at h1 h2
  conv_lhs => rw [h2, h1]

theorem DriverMoved.of_converter {s t : State} (h : ConverterMoved s t) : DriverMoved s t := by
  have hf := h.frame
  unfold DriverMoved
  ext <;> first | rfl | (rw [hf])

theorem DriverMoved.of_record (s : State) (e : Event) : DriverMoved s (s.record e).nextMicro := rfl

theorem DriverMoved.of_writeLine (s : State) (l : Line) (v : Bool) : DriverMoved s (writeLine l v s).nextMicro := by
  unfold DriverMoved
  ext <;> simp

/-- One line write, the converter having moved before it if it was BUSY. -/
theorem runMicros_lineWrite (l : Line) (v : Bool) (rest : List MicroStep) {s : State} (h : noReset s.turns) :
    ∃ t, ConverterMoved s t ∧ noReset t.turns
      ∧ runMicros (lineWrite l v :: rest) s = runMicros rest (writeLine l v t).nextMicro := by
  obtain ⟨t, hm, hn, hr, -, -⟩ := runMicros_cons_noReset (lineWrite l v) rest h
  exact ⟨t, hm, hn, hr _ rfl⟩

/-- One delay, the converter having moved before it if it was BUSY. -/
theorem runMicros_delayFor (d : Nat) (rest : List MicroStep) {s : State} (h : noReset s.turns) :
    ∃ t, ConverterMoved s t ∧ noReset t.turns
      ∧ runMicros (delayFor d :: rest) s = runMicros rest (t.record (.delay d)).nextMicro := by
  obtain ⟨t, hm, hn, hr, -, -⟩ := runMicros_cons_noReset (delayFor d) rest h
  exact ⟨t, hm, hn, hr _ rfl⟩

theorem ConverterMoved.adc_of_not_busy {s t : State} (h : ConverterMoved s t) (hb : s.adcState ≠ .busy) :
    t.adcState = s.adcState ∧ t.adcRes = s.adcRes ∧ t.history = s.history := by
  rw [h.of_not_busy hb]; simp

theorem writeBit_eq {s : State} {b : Byte} (hp : s.pattern = some b) (i : Nat) :
    writeBit i s = .moved (writeLine .ser (b.getLsbD i) s) := by
  simp [writeBit, hp, lineWrite]

/-- Bit `i` of SHIFTOUT from SRCLK low and settled (R151, R156, R158): PATTERN's bit enters SHIFT, LATCH is kept, and SRCLK
ends low and settled. With no conversion in flight the events are exactly the bit's (R159). -/
theorem bitSteps_settled (i : Nat) (b : Byte) {s : State} (hn : noReset s.turns) (hp : s.pattern = some b)
    (hc : s.lvlSrclk = .low) (hF : shorter s.timing.gF Config.tClkLow = false) :
    ∃ u, runMicros (bitSteps i) s = .done u ∧ noReset u.turns ∧ DriverMoved s u
      ∧ u.shift = s.shift.shiftIn (triOfBool (b.getLsbD i)) ∧ u.latch = s.latch
      ∧ u.lvlSer = levelOfBool (b.getLsbD i) ∧ u.lvlSrclk = .low ∧ u.lvlRclk = s.lvlRclk
      ∧ shorter u.timing.gF Config.tClkLow = false
      ∧ (s.adcState ≠ .busy →
          u.adcState = s.adcState ∧ u.adcRes = s.adcRes ∧ u.history = s.history ++ bitEvents (b.getLsbD i)) := by
  unfold bitSteps
  obtain ⟨t1, m1, n1, r1, -, -⟩ := runMicros_cons_noReset (writeBit i)
    [lineWrite .srclk true, delayFor Config.tClkHigh, lineWrite .srclk false, delayFor Config.tClkLow] hn
  rw [r1 _ (writeBit_eq (m1.pattern.trans hp) i)]
  generalize hu1 : (writeLine .ser (b.getLsbD i) t1).nextMicro = u1
  obtain ⟨t2, m2, n2, r2⟩ := runMicros_lineWrite .srclk true
    [delayFor Config.tClkHigh, lineWrite .srclk false, delayFor Config.tClkLow] (s := u1) (by simpa [← hu1] using n1)
  rw [r2]
  generalize hu2 : (writeLine .srclk true t2).nextMicro = u2
  obtain ⟨t3, m3, n3, r3⟩ := runMicros_delayFor Config.tClkHigh
    [lineWrite .srclk false, delayFor Config.tClkLow] (s := u2) (by simpa [← hu2] using n2)
  rw [r3]
  generalize hu3 : (t3.record (.delay Config.tClkHigh)).nextMicro = u3
  obtain ⟨t4, m4, n4, r4⟩ := runMicros_lineWrite .srclk false
    [delayFor Config.tClkLow] (s := u3) (by simpa [← hu3] using n3)
  rw [r4]
  generalize hu4 : (writeLine .srclk false t4).nextMicro = u4
  obtain ⟨t5, m5, n5, r5⟩ := runMicros_delayFor Config.tClkLow [] (s := u4) (by simpa [← hu4] using n4)
  rw [r5, runMicros_nil]
  -- the receiver's reactions
  have c1 : t1.lvlSrclk = .low := m1.lvlSrclk.trans hc
  have e1 : receiverReact .ser (t1.lvl .ser) (levelOfBool (b.getLsbD i)) t1 = t1 :=
    receiverReact_ser_quiet _ _ _ (by simp [c1]) (fun _ => by rw [m1.timing]; exact hF)
  have g1 : shorter u1.timing.gF Config.tClkLow = false := by
    rw [← hu1]; simpa [timingAfter, m1.timing] using hF
  have c2 : t2.lvlSrclk = .low := by rw [m2.lvlSrclk, ← hu1]; simpa [writeLine, State.setLvl, e1] using c1
  have s2 : t2.lvlSer = levelOfBool (b.getLsbD i) := by rw [m2.lvlSer, ← hu1]; simp [writeLine, State.setLvl]
  have e2 : receiverReact .srclk (t2.lvl .srclk) (levelOfBool true) t2 = shiftEdge t2 := by
    simp only [State.lvl, c2, levelOfBool, if_true]
    exact receiverReact_srclk_rise _ (by rw [m2.timing]; exact g1)
  have c4 : t4.lvlSrclk = .high := by
    rw [m4.lvlSrclk, ← hu3]
    simp only [State.nextMicro_lvlSrclk, State.record_lvlSrclk]
    rw [m3.lvlSrclk, ← hu2]
    simp [writeLine, State.setLvl, levelOfBool]
  have g4 : shorter t4.timing.gR Config.tClkHigh = false := by
    rw [m4.timing, ← hu3]
    simpa [timingAfter] using shorter_map_add _ _ _ (Nat.le_refl _)
  have e4 : receiverReact .srclk (t4.lvl .srclk) (levelOfBool false) t4 = t4 := by
    simp only [State.lvl, c4, levelOfBool]
    exact receiverReact_srclk_fall _ g4
  -- the frame
  have d1 : DriverMoved s u1 := (DriverMoved.of_converter m1).trans (hu1 ▸ DriverMoved.of_writeLine _ _ _)
  have d2 : DriverMoved s u2 := (d1.trans (.of_converter m2)).trans (hu2 ▸ DriverMoved.of_writeLine _ _ _)
  have d3 : DriverMoved s u3 := (d2.trans (.of_converter m3)).trans (hu3 ▸ DriverMoved.of_record _ _)
  have d4 : DriverMoved s u4 := (d3.trans (.of_converter m4)).trans (hu4 ▸ DriverMoved.of_writeLine _ _ _)
  refine ⟨_, rfl, by simpa using n5, (d4.trans (.of_converter m5)).trans (DriverMoved.of_record _ _), ?_, ?_, ?_, ?_, ?_,
    ?_, fun hb => ?_⟩
  · simp only [State.nextMicro_shift, State.record_shift]
    rw [m5.shift, ← hu4]
    simp only [State.nextMicro_shift, writeLine_shift, e4]
    rw [m4.shift, ← hu3]
    simp only [State.nextMicro_shift, State.record_shift]
    rw [m3.shift, ← hu2]
    simp only [State.nextMicro_shift, writeLine_shift, e2, shiftEdge_shift, s2]
    rw [m2.shift, ← hu1]
    simp only [State.nextMicro_shift, writeLine_shift, e1]
    rw [m1.shift]
    cases b.getLsbD i <;> rfl
  · simp only [State.nextMicro_latch, State.record_latch]
    rw [m5.latch, ← hu4]
    simp only [State.nextMicro_latch, writeLine_latch, e4]
    rw [m4.latch, ← hu3]
    simp only [State.nextMicro_latch, State.record_latch]
    rw [m3.latch, ← hu2]
    simp only [State.nextMicro_latch, writeLine_latch, e2, shiftEdge_latch]
    rw [m2.latch, ← hu1]
    simp only [State.nextMicro_latch, writeLine_latch, e1]
    exact m1.latch
  · simp only [State.nextMicro_lvlSer, State.record_lvlSer]
    rw [m5.lvlSer, ← hu4]
    simp only [State.nextMicro_lvlSer, writeLine, State.record_lvlSer, State.setLvl, e4]
    rw [m4.lvlSer, ← hu3]
    simp only [State.nextMicro_lvlSer, State.record_lvlSer]
    rw [m3.lvlSer, ← hu2]
    simpa [writeLine, State.setLvl, e2] using s2
  · simp only [State.nextMicro_lvlSrclk, State.record_lvlSrclk]
    rw [m5.lvlSrclk, ← hu4]
    simp [writeLine, State.setLvl, levelOfBool]
  · simp only [State.nextMicro_lvlRclk, State.record_lvlRclk]
    rw [m5.lvlRclk, ← hu4]
    simp only [State.nextMicro_lvlRclk, writeLine, State.record_lvlRclk, State.setLvl, e4]
    rw [m4.lvlRclk, ← hu3]
    simp only [State.nextMicro_lvlRclk, State.record_lvlRclk]
    rw [m3.lvlRclk, ← hu2]
    simp only [State.nextMicro_lvlRclk, writeLine, State.record_lvlRclk, State.setLvl, e2, shiftEdge_lvlRclk]
    rw [m2.lvlRclk, ← hu1]
    simp only [State.nextMicro_lvlRclk, writeLine, State.record_lvlRclk, State.setLvl, e1]
    exact m1.lvlRclk
  · simp only [State.timing_nextMicro, State.timing_record, timingAfter]
    exact shorter_map_add _ _ _ (Nat.le_refl _)
  · obtain ⟨a1, b1, h1⟩ := m1.adc_of_not_busy hb
    have hb1 : u1.adcState ≠ .busy := by rw [← hu1]; simpa [a1] using hb
    obtain ⟨a2, b2, h2⟩ := m2.adc_of_not_busy hb1
    have hb2 : u2.adcState ≠ .busy := by rw [← hu2]; simpa [a2] using hb1
    obtain ⟨a3, b3, h3⟩ := m3.adc_of_not_busy hb2
    have hb3 : u3.adcState ≠ .busy := by rw [← hu3]; simpa [a3] using hb2
    obtain ⟨a4, b4, h4⟩ := m4.adc_of_not_busy hb3
    have hb4 : u4.adcState ≠ .busy := by rw [← hu4]; simpa [a4] using hb3
    obtain ⟨a5, b5, h5⟩ := m5.adc_of_not_busy hb4
    refine ⟨?_, ?_, ?_⟩
    · simp [a5, ← hu4, a4, ← hu3, a3, ← hu2, a2, ← hu1, a1]
    · simp [b5, ← hu4, b4, ← hu3, b3, ← hu2, b2, ← hu1, b1]
    · simp [h5, ← hu4, h4, ← hu3, h3, ← hu2, h2, ← hu1, h1, bitEvents]

end Sys2Proof.Machine
end

