-- ==== Sys2Proof/Laws/PerInstr.lean ====
section
/-! SUPPORT. Statements made of every command as syntax, one lemma per constructor of Instr. -/

namespace Sys2Proof.Laws.Opcode

/-- The op field of a command's row of the opcode map (30_encoding R73). -/
def op : Instr → BitVec 4
  | .init => 0x1#4
  | .setl _ _ => 0x2#4
  | .getl _ => 0x3#4
  | .delay _ => 0x4#4
  | .adstart => 0x5#4
  | .adpoll => 0x6#4
  | .adread => 0x7#4
  | .sample => 0x8#4
  | .ldraw _ => 0x9#4
  | .map => 0xA#4
  | .ldpat _ => 0xB#4
  | .shiftout => 0xC#4
  | .step => 0xD#4
  | .run => 0xE#4

/-- The word of a command carries its row's opcode in bits 15:12, whatever its operands are. -/
def Statement (i : Instr) : Prop := opField (encode i) = op i

theorem init : Statement .init := rfl

theorem setl (line : BitVec 2) (v : Bool) : Statement (.setl line v) := by
  have h : ∀ (line : BitVec 2) (v : Bool), opField (encode (.setl line v)) = 0x2#4 := by decide
  exact h line v

theorem getl (line : BitVec 2) : Statement (.getl line) := by
  have h : ∀ line : BitVec 2, opField (encode (.getl line)) = 0x3#4 := by decide
  exact h line

theorem delay (t : BitVec 12) : Statement (.delay t) := by
  simp only [Statement, opField, encode, op, BitVec.extractLsb'_append_eq_left]

theorem adstart : Statement .adstart := rfl
theorem adpoll : Statement .adpoll := rfl
theorem adread : Statement .adread := rfl
theorem sample : Statement .sample := rfl

theorem ldraw (imm10 : Code) : Statement (.ldraw imm10) := by
  apply BitVec.eq_of_toNat_eq
  simp only [opField, encode, op, BitVec.extractLsb'_toNat, BitVec.toNat_append, BitVec.toNat_ofNat,
    Nat.shiftRight_eq_div_pow]
  rw [← Nat.shiftLeft_add_eq_or_of_lt imm10.isLt]
  simp [Nat.shiftLeft_eq]
  omega

theorem map : Statement .map := rfl

theorem ldpat (imm8 : Byte) : Statement (.ldpat imm8) := by
  apply BitVec.eq_of_toNat_eq
  simp only [opField, encode, op, BitVec.extractLsb'_toNat, BitVec.toNat_append, BitVec.toNat_ofNat,
    Nat.shiftRight_eq_div_pow]
  rw [← Nat.shiftLeft_add_eq_or_of_lt imm8.isLt]
  simp [Nat.shiftLeft_eq]
  omega

theorem shiftout : Statement .shiftout := rfl
theorem step : Statement .step := rfl
theorem run : Statement .run := rfl

end Sys2Proof.Laws.Opcode
end

