-- ==== Sys2Proof/Laws/Tick.lean ====
section
/-! SUPPORT. How the micro-step machine follows the sequencer's waits (00_scope R8, 10_state R27). -/

namespace Sys2Proof.Machine

theorem ticks_add {n m : Nat} {s u : State} (h : ticks n s = .next u) : ticks (n + m) s = ticks m u := by
  induction n generalizing s with
  | zero => cases h; simp
  | succ n ih =>
    rw [Nat.succ_add]
    simp only [ticks] at h ⊢
    cases ht : tick s <;> simp only [ht] at h ⊢
    · exact ih h
    · cases h
    · cases h

theorem ticks_snoc {n : Nat} {s w t : State} (h : ticks n s = .next w) (ht : tick w = .next t) :
    ticks (n + 1) s = .next t := by
  rw [ticks_add h]; simp [ticks, ht]

/-- The converter's step and the schedule do not see each other. -/
theorem converterStep_setTurns (v : Code) (s : State) (ts : Schedule) :
    converterStep v (s.setTurns ts) = (converterStep v s).setTurns ts := by
  cases h : s.adcState <;> simp [converterStep, h, State.setTurns, State.record, State.adcToDone]

/-- What the controller finds at its turn does not depend on the schedule the state held, only on the one it waits on. -/
theorem awaitTurn_setTurns (ts us : Schedule) (s : State) : awaitTurn ts (s.setTurns us) = awaitTurn ts s := by
  induction ts using Schedule.wait_induction generalizing s with
  | h ts ih =>
    rw [awaitTurn_next, awaitTurn_next]
    rcases hn : ts.next with ⟨a, rest⟩
    cases a with
    | controller => rfl
    | converter v => simp only [converterStep_setTurns]; exact ih v rest hn _
    | reset k => rfl

/-- The ticks up to the end of a wait: at the last of them the controller takes its micro-step, or a reset lands. -/
theorem ticks_awaitTurn (s : State) :
    match awaitTurn s.turns s with
    | .go u => ∃ n w, ticks n s = .next w ∧ tick w = controllerMicro u
    | .aborted u => ∃ n, ticks n s = .next u := by
  generalize hts : s.turns = ts
  induction ts using Schedule.wait_induction generalizing s with
  | h ts ih =>
    rw [awaitTurn_next]
    rcases hn : ts.next with ⟨a, rest⟩
    cases a with
    | controller => exact ⟨0, s, rfl, by simp [tick, hts, hn]⟩
    | reset k => exact ⟨1, by simp [ticks, tick, hts, hn]⟩
    | converter v =>
      have e : tick s = .next (converterStep v (s.setTurns rest)) := by simp [tick, hts, hn]
      have hi := ih v rest hn (converterStep v (s.setTurns rest))
        (by rw [converterStep_setTurns, State.setTurns_turns])
      rw [converterStep_setTurns, awaitTurn_setTurns, ← converterStep_setTurns] at hi
      simp only
      split at hi
      · obtain ⟨n, w, h1, h2⟩ := hi
        exact ⟨n + 1, w, by rw [ticks, e]; exact h1, h2⟩
      · obtain ⟨n, h1⟩ := hi
        exact ⟨n + 1, by rw [ticks, e]; exact h1⟩

theorem ticks_awaitTurn_go {s u : State} (h : awaitTurn s.turns s = .go u) :
    ∃ n w, ticks n s = .next w ∧ tick w = controllerMicro u := by
  simpa [h] using ticks_awaitTurn s

theorem ticks_awaitTurn_aborted {s u : State} (h : awaitTurn s.turns s = .aborted u) : ∃ n, ticks n s = .next u := by
  simpa [h] using ticks_awaitTurn s

theorem microAt_mem {i : Instr} {ms : Nat} {m : MicroStep} (h : microAt i ms = some m) : m ∈ bodyOf i := by
  rw [microAt_eq] at h
  exact restOf_subset (List.mem_of_getElem? h)

end Sys2Proof.Machine
end

