-- ==== Sys2Proof/Tests/Slice0.lean ====
section
/-! SUPPORT. Small tests of single steps, with expected results from spec/95_test_vectors.md or worked by hand from the
rules named, and for each obligation that has hypotheses a witness that meets them. -/

namespace Sys2Proof.Tests

open Sys2Proof
open Sys2Proof.Machine

set_option maxRecDepth 100000

/-! ### Helpers -/

/-- The next state of an outcome; a stop shows as the state after power-on. -/
def nextOr : Host.Outcome State Fault Refusal → State
  | .next t => t
  | .fault _ => State.reset
  | .refused _ => State.reset

/-- Whether an outcome is a next state. -/
def goesOn : Host.Outcome State Fault Refusal → Bool
  | .next _ => true
  | .fault _ => false
  | .refused _ => false

/-- The schedule with the moves `ts`, and after them only the controller's turns. -/
def moves (ts : List Turn) : Schedule := Schedule.silent.after ts

theorem moves_noReset {ts : List Turn} (h : ∀ t ∈ ts, ∀ k, t ≠ .reset k) : noReset (moves ts) :=
  Schedule.all_after.2 ⟨h, noReset_silent⟩

/-- The state "After INIT" of 95_test_vectors, written out from that file and 40_port R92, with CPC at 0. -/
def afterInit : State :=
  { State.reset with
    dirSer := .output, dirSrclk := .output, dirRclk := .output, lvlSer := .low, lvlSrclk := .low, lvlRclk := .low,
    inited := true, adcEn := true, adcCh := some .channel0, adcRef := some .supply, adcMode := some .singleEnded,
    adcPresc := some .div64, adcState := .idle, history := [.init] }

/-- A conversion in flight. -/
def busy : State := { afterInit with adcState := .busy, history := [.init, .adcStart] }

/-- A conversion completed with 700. -/
def done700 : State :=
  { afterInit with adcState := .done, adcRes := some 700#10, history := [.init, .adcStart, .adcDone 700#10] }

/-- A faulted block: Reinitialise (60_exceptions R201). -/
def halted : State :=
  { afterInit with faultCode := 3#3, faultCw := 0x1000#16, history := [.init, .fault 3#3 0x1000#16], prog := [0x1000#16] }

/-- RUN between two iterations, after one with the draw 300 (95_test_vectors P1). -/
def runBetween : State :=
  { afterInit with
    raw := some 300#10, power := some 2#4, pattern := some 0x03#8, adcState := .done, adcRes := some 300#10,
    shift := Tri8.ofByte 0xC0#8, latch := Tri8.ofByte 0xC0#8,
    history := [.init, .adcStart, .adcDone 300#10, .adcRead 300#10] ++ shiftoutEvents 0x03#8,
    prog := [0x1000#16, 0xE000#16], cpc := 1, cur := some .run, ms := 47 }

/-- SAMPLE at its hold. -/
def sampleHeld : State := { busy with prog := [0x8000#16], cur := some .sample, ms := 1 }

/-- A state with PATTERN written and settled, from which SHIFTOUT runs. -/
def loaded : State := { afterInit with pattern := some 0x0B#8, prog := [0xC000#16] }

/-! ### Well-formedness (30_encoding R72, R74 (c)) -/

theorem test_wf_refuses_reserved_line :
    (Instr.setl 3#2 true).wf = false ∧ (Instr.setl 3#2 false).wf = false ∧ (Instr.getl 3#2).wf = false := by decide

theorem test_wf_accepts_lines :
    (Instr.setl 0#2 true).wf = true ∧ (Instr.setl 2#2 false).wf = true ∧ (Instr.getl 1#2).wf = true := by decide

/-! ### Decoding: words written out bit by bit from the formats of 30_encoding R71 and the rows of R73 -/

theorem test_decode_init : decode 0b0001000000000000#16 = .cmd .init := by decide
theorem test_decode_setl : decode 0b0010000000000011#16 = .cmd (.setl 1#2 true) := by decide
theorem test_decode_getl : decode 0b0011000000000100#16 = .cmd (.getl 2#2) := by decide
theorem test_decode_delay : decode 0b0100101001010101#16 = .cmd (.delay 0xA55#12) := by decide
theorem test_decode_adstart : decode 0b0101000000000000#16 = .cmd .adstart := by decide
theorem test_decode_adpoll : decode 0b0110000000000000#16 = .cmd .adpoll := by decide
theorem test_decode_adread : decode 0b0111000000000000#16 = .cmd .adread := by decide
theorem test_decode_sample : decode 0b1000000000000000#16 = .cmd .sample := by decide
theorem test_decode_ldraw : decode 0b1001000100101100#16 = .cmd (.ldraw 300#10) := by decide
theorem test_decode_map : decode 0b1010000000000000#16 = .cmd .map := by decide
theorem test_decode_ldpat : decode 0b1011000000001011#16 = .cmd (.ldpat 0x0B#8) := by decide
theorem test_decode_shiftout : decode 0b1100000000000000#16 = .cmd .shiftout := by decide
theorem test_decode_step : decode 0b1101000000000000#16 = .cmd .step := by decide
theorem test_decode_run : decode 0b1110000000000000#16 = .cmd .run := by decide

/-- 95_test_vectors L2.1: the illegal rows. -/
theorem test_decode_illegal :
    decode 0x0000#16 = .illegal .reservedOpcode ∧ decode 0x1001#16 = .illegal .mustBeZero
    ∧ decode 0x2006#16 = .illegal .reservedLine ∧ decode 0x2008#16 = .illegal .mustBeZero
    ∧ decode 0x3001#16 = .illegal .getlLevel ∧ decode 0x3006#16 = .illegal .reservedLine
    ∧ decode 0x9400#16 = .illegal .mustBeZero ∧ decode 0xB100#16 = .illegal .mustBeZero
    ∧ decode 0xE001#16 = .illegal .mustBeZero ∧ decode 0xF000#16 = .illegal .reservedOpcode := by decide

/-- 20_memory R53: the low byte comes first on a byte transport; R55: half a word delivers no command. -/
theorem test_decode_bytes :
    decodeBytes [0x2C#8, 0x91#8, 0x00#8] = some (.cmd (.ldraw 300#10), [0x00#8]) ∧ decodeBytes [0x2C#8] = none
    ∧ wordsOfBytes [0x00#8, 0x10#8, 0x00#8] = [0x1000#16] := by decide

/-- The host's two hooks. -/
theorem test_table_word :
    decodeTableWord 16 0x2005 = some (.setl 2#2 true) ∧ decodeTableWord 16 0x2006 = none
    ∧ (nextOr (step (State.reset.withFetchWord 16 0x4007))).history = [.delay 7] := by decide

/-! ### Assembler (30_encoding R76, R77) -/

/-- "SETL RCLK, 1 ; latch" and "DELAY 0x32", with a comment and a hexadecimal number. -/
theorem test_assemble :
    assemble [['S', 'E', 'T', 'L', ' ', 'R', 'C', 'L', 'K', ',', ' ', '1', ' ', ';', ' ', 'x'],
        ['D', 'E', 'L', 'A', 'Y', ' ', '0', 'x', '3', '2']]
      = .code [.setl 2#2 true, .delay 50#12] := by decide

/-- An immediate that does not fit its field is refused, not truncated. -/
theorem test_assemble_refuses :
    assemble [['L', 'D', 'P', 'A', 'T', ' ', '2', '5', '6']] = .refused .doesNotFit
    ∧ assemble [['L', 'D', 'R', 'A', 'W', ' ', '1', '0', '2', '4']] = .refused .doesNotFit
    ∧ assemble [['D', 'E', 'L', 'A', 'Y', ' ', '4', '0', '9', '6']] = .refused .doesNotFit := by decide

/-- 95_test_vectors P5: the words of SHIFTOUTI 0x05. -/
theorem test_shiftouti_words :
    (pseudoShiftouti 0x05#8).map encode =
      [0x2001#16, 0x2003#16, 0x400A#16, 0x2002#16, 0x4002#16, 0x2000#16, 0x2003#16, 0x400A#16, 0x2002#16, 0x4002#16,
        0x2001#16, 0x2003#16, 0x400A#16, 0x2002#16, 0x4002#16]
      ++ (List.replicate 5 [0x2000#16, 0x2003#16, 0x400A#16, 0x2002#16, 0x4002#16]).flatten
      ++ [0x2005#16, 0x4032#16, 0x2004#16] := by decide

/-! ### Port commands (95_test_vectors L2.2, L2.6) -/

theorem test_init :
    let t := nextOr (exec .init State.reset)
    { t with cpc := 0 } = afterInit ∧ t.cpc = 1 := by decide

/-- 95_test_vectors L2.8: INIT twice raises Reinitialise. -/
theorem test_init_twice :
    let t := nextOr (exec .init afterInit)
    t.faultCode = 3#3 ∧ t.faultCw = 0x1000#16 ∧ t.cpc = 0 ∧ t.history = [.init, .fault 3#3 0x1000#16] := by decide

/-- L2.6, "short shift-clock high": the fall comes 0 microseconds after the rise. -/
theorem test_setl_short_high :
    let t := nextOr (exec (.setl 1#2 false) { afterInit with
      lvlSer := .high, lvlSrclk := .high, shift := { Tri8.allUnknown with b0 := .one },
      history := [.init, .line .ser true, .line .srclk true] })
    t.shift = .allUnknown ∧ t.lvlSrclk = .low ∧ t.faultCode = 0#3 := by decide

/-- L2.6, "latch rise with SRCLK high": LATCH is lost, SHIFT is kept. -/
theorem test_setl_latch_while_high :
    let t := nextOr (exec (.setl 2#2 true) { afterInit with
      lvlSrclk := .high, shift := Tri8.ofByte 0xA0#8, latch := Tri8.ofByte 0xD0#8,
      history := [.init, .line .srclk true, .delay 10] })
    t.shift = Tri8.ofByte 0xA0#8 ∧ t.latch = .allUnknown ∧ t.lvlRclk = .high := by decide

theorem test_getl_high :
    let t := nextOr (exec (.getl 0#2) { afterInit with lvlSer := .high })
    t.responses = [(0, 0x0001#16)] ∧ t.history = [.init] := by decide

theorem test_getl_needs_init : (nextOr (exec (.getl 0#2) State.reset)).faultCode = 2#3 := by decide

/-- L2.2: DELAY is legal without INIT. -/
theorem test_delay : (nextOr (exec (.delay 7#12) State.reset)).history = [.delay 7] := by decide

/-! ### Sampler (95_test_vectors L2.3, L2.8) -/

theorem test_adstart :
    let t := nextOr (exec .adstart done700)
    t.adcState = .busy ∧ t.adcRes = none ∧ t.history = done700.history ++ [.adcStart] := by decide

theorem test_adstart_busy : (nextOr (exec .adstart busy)).faultCode = 4#3 := by decide

/-- 20_memory R62: a completion that lands before the body micro-step counts, one that lands after it does not. -/
theorem test_adpoll :
    (nextOr (exec .adpoll { busy with turns := moves [.controller, .converter 700#10] })).responses = [(0, 0x0001#16)]
    ∧ (nextOr (exec .adpoll { busy with turns := moves [.controller, .controller, .converter 700#10] })).responses
      = [(0, 0x0000#16)] := by decide

theorem test_adread :
    let t := nextOr (exec .adread done700)
    t.raw = some 700#10 ∧ t.responses = [(0, 0x02BC#16)] ∧ t.adcState = .done := by decide

theorem test_adread_not_ready :
    (nextOr (exec .adread busy)).faultCode = 5#3 ∧ (nextOr (exec .adread State.reset)).faultCode = 2#3 := by decide

theorem test_sample :
    let t := nextOr (exec .sample { afterInit with turns := moves [.controller, .controller, .converter 300#10] })
    t.raw = some 300#10 ∧ t.responses = [(0, 0x012C#16)]
      ∧ t.history = [.init, .adcStart, .adcDone 300#10, .adcRead 300#10] ∧ t.cpc = 1 := by decide

/-- The conversion never completes: a hold, no fault, CPC kept (60_exceptions R208). -/
theorem test_sample_holds :
    let t := nextOr (exec .sample afterInit)
    t.cur = some .sample ∧ t.adcState = .busy ∧ t.cpc = 0 ∧ t.faultCode = 0#3
      ∧ goesOn (step t) = true ∧ nextOr (step t) = t := by decide

/-! ### Mapper (95_test_vectors L2.4) -/

theorem test_ldraw : (nextOr (exec (.ldraw 300#10) State.reset)).raw = some 300#10 := by decide

/-- The divisor is 127 and not 128: 1016 gives 8. -/
theorem test_map_edges :
    (nextOr (exec .map { State.reset with raw := some 1016#10 })).responses = [(0, 0x08FF#16)]
    ∧ (nextOr (exec .map { State.reset with raw := some 253#10 })).responses = [(0, 0x0101#16)]
    ∧ (nextOr (exec .map { State.reset with raw := some 254#10 })).responses = [(0, 0x0203#16)] := by decide

theorem test_map_unwritten :
    let t := nextOr (exec .map { State.reset with prog := [0xA000#16] })
    t.faultCode = 6#3 ∧ t.faultCw = 0xA000#16 ∧ t.cpc = 0 := by decide

/-! ### Output driver (95_test_vectors L2.5) -/

theorem test_ldpat : (nextOr (exec (.ldpat 0x0B#8) State.reset)).pattern = some 0x0B#8 := by decide

/-- PATTERN 0x0B: SHIFT = LATCH = 0xD0, SEG = 0x0B, 43 events, all lines low. -/
theorem test_shiftout :
    let t := nextOr (exec .shiftout loaded)
    t.shift = Tri8.ofByte 0xD0#8 ∧ t.latch = Tri8.ofByte 0xD0#8 ∧ t.seg = Tri8.ofByte 0x0B#8
      ∧ t.history.length = 44 ∧ t.lvlSer = .low ∧ t.lvlSrclk = .low ∧ t.lvlRclk = .low := by decide

/-- "Lost shift edge": entered with SRCLK high, SHIFT = LATCH = 0x80. -/
theorem test_shiftout_lost_edge :
    let t := nextOr (exec .shiftout { afterInit with
      lvlSer := .high, lvlSrclk := .high, shift := Tri8.ofByte 0xFF#8, latch := Tri8.ofByte 0xFF#8,
      pattern := some 0x00#8, history := [.init, .line .ser true, .line .srclk true, .delay 10] })
    t.shift = Tri8.ofByte 0x80#8 ∧ t.seg = Tri8.ofByte 0x01#8 := by decide

/-! ### Control loop (95_test_vectors L2.7) -/

theorem test_step :
    let t := nextOr (exec .step { afterInit with turns := moves [.controller, .controller, .converter 1016#10] })
    t.raw = some 1016#10 ∧ t.power = some 8#4 ∧ t.pattern = some 0xFF#8 ∧ t.seg = Tri8.ofByte 0xFF#8
      ∧ t.history.length = 47 ∧ t.responses = [] ∧ t.cpc = 1 := by decide

/-- The unsettled entry: SETL SRCLK, 1 before STEP. Segment 0 is unknown. -/
theorem test_step_unsettled :
    let t := nextOr (exec .step { afterInit with
      lvlSrclk := .high, shift := { Tri8.allUnknown with b0 := .zero }, history := [.init, .line .srclk true],
      turns := moves [.controller, .controller, .converter 1016#10] })
    t.shift = { Tri8.ofByte 0xFF#8 with b7 := .unknown } ∧ t.seg = { Tri8.ofByte 0xFF#8 with b0 := .unknown } := by
  decide

/-- P1's second and third iterations: SEG = 0xFF after the draw 1023, and RUN stays in progress with CPC at its index. -/
theorem test_run :
    let t := nextOr (step { runBetween with turns := moves [.controller, .converter 1023#10] })
    t.seg = Tri8.ofByte 0xFF#8 ∧ t.cur = some .run ∧ t.cpc = 1 ∧ t.history.length = 93 := by decide

/-- R111: with no completion RUN holds in its first iteration, and the hold is no fault. -/
theorem test_run_holds :
    let t := nextOr (exec .run afterInit)
    t.cur = some .run ∧ t.ms = 1 ∧ t.faultCode = 0#3 ∧ goesOn (step t) = true ∧ nextOr (step t) = t := by decide

/-! ### Resets and faults (95_test_vectors L2.8, L2.9) -/

/-- A reset in the middle of SHIFTOUT, after MS 40 (41 micro-steps of the body done). -/
theorem test_reset_inside_shiftout :
    let t := nextOr (exec .shiftout { loaded with turns := moves (List.replicate 42 .controller ++ [.reset .input]) })
    t.latch = .allUnknown ∧ t.lvlRclk = .z ∧ t.cpc = 0 ∧ t.inited = false ∧ t.history.length = 43
      ∧ t.history.getLast? = some (.reset .input) := by decide

theorem test_reset_clears_a_fault :
    let t := nextOr (step { halted with turns := moves [.reset .input] })
    t.faultCode = 0#3 ∧ t.cpc = 0 ∧ t.history = halted.history ++ [.reset .input] := by decide

theorem test_illegal_word :
    let t := nextOr (step { afterInit with prog := [0x1000#16, 0x2006#16], cpc := 1 })
    t.faultCode = 1#3 ∧ t.faultCw = 0x2006#16 ∧ t.cpc = 1 := by decide

/-! ### Witnesses: hypotheses of the obligations, met by concrete states and operands -/

theorem witness_DecodeOfEncode :
    (Instr.setl 2#2 true).wf = true ∧ (Instr.getl 0#2).wf = true ∧ (Instr.delay 4095#12).wf = true := by decide

theorem witness_EncodeOfDecode : decode 0x2005#16 = .cmd (.setl 2#2 true) := by decide

/-- Both an illegal word of case (a) and one of case (d). -/
theorem witness_IllegalWordsRaiseIllegalCommand :
    let s := { afterInit with prog := [0x3001#16] }
    s.ready = true ∧ quiet 1 s.turns = true ∧ s.prog[s.cpc]? = some 0x3001#16
      ∧ decode 0x3001#16 = .illegal .getlLevel ∧ decode 0xF000#16 = .illegal .reservedOpcode := by decide

theorem witness_AssemblerProducesLegalCommands :
    assemble [['G', 'E', 'T', 'L', ' ', '2']] = .code [.getl 2#2]
    ∧ readNumber ['0', '1'] = some 1 ∧ readNumber ['4', '0', '9', '5'] = some 4095 ∧ readNumber ['0', 'x', '1', '0', '0', '0'] = some 4096
    ∧ readNumber ['2'] = some 2 ∧ readLineName ['S', 'E', 'R'] = some .ser := by decide

theorem witness_ShiftoutiRunsLikeShiftout :
    noReset afterInit.turns ∧ ∃ t, runMicros shiftoutBody (afterInit.setPattern 0x05#8) = .done t :=
  ⟨noReset_silent, _, rfl⟩

theorem witness_StepRunsTheDecodedCommand :
    let s := { State.reset with prog := [0x4007#16] }
    s.faulted = false ∧ s.cur = none ∧ s.prog[s.cpc]? = some 0x4007#16 ∧ decode 0x4007#16 = .cmd (.delay 7#12)
      ∧ runBetween.cur = some .run ∧ State.reset.cur = none ∧ State.reset.prog[State.reset.cpc]? = none := by decide

theorem witness_StepIsARunOfTicks : ∃ t, step loaded = .next t := ⟨_, rfl⟩

theorem witness_FinishedRunStays :
    let s := { afterInit with turns := moves [.converter 5#10] }
    s.finished = true ∧ noReset s.turns ∧ State.reset.finished = true :=
  ⟨by decide, moves_noReset (by simp), by decide⟩

/-- The faulted state for each shape of the schedule, with a conversion in flight and without. -/
theorem witness_FaultedBlockIsHalted :
    halted.faulted = true ∧ halted.turns = .silent ∧ { halted with turns := moves [.controller] }.faulted = true
    ∧ { halted with adcState := .busy, turns := moves [.converter 5#10] }.faulted = true
    ∧ { halted with turns := moves [.converter 5#10] }.adcState ≠ .busy
    ∧ { halted with turns := moves [.reset .powerOn] }.faulted = true := by decide

/-- One state for each clause. -/
theorem witness_CheckRaisesTheFirstFault :
    afterInit.ready = true ∧ quiet 1 afterInit.turns = true ∧ State.reset.ready = true ∧ busy.ready = true
    ∧ decode 0x3006#16 = .illegal .reservedLine ∧ { afterInit with prog := [0x3006#16] }.prog[0]? = some 0x3006#16 ∧ State.reset.inited = false ∧ afterInit.inited = true ∧ busy.adcState = .busy
    ∧ afterInit.adcState ≠ .done ∧ State.reset.raw = none ∧ afterInit.pattern = none
    ∧ check (.delay 1#12) State.reset = none ∧ goesOn (exec (.delay 1#12) State.reset) = true := by decide

/-- Each fault of the table, raised: 2, 3, 4, 5 and 6, and a command that raises none. -/
theorem witness_FaultsEachCommandCanRaise :
    noReset afterInit.turns ∧ State.reset.ready = true ∧ afterInit.ready = true ∧ busy.ready = true
    ∧ (nextOr (exec .adpoll State.reset)).faultCode = 2#3 ∧ (nextOr (exec .init afterInit)).faultCode = 3#3
    ∧ (nextOr (exec .step busy)).faultCode = 4#3 ∧ (nextOr (exec .adread busy)).faultCode = 5#3
    ∧ (nextOr (exec .shiftout afterInit)).faultCode = 6#3 ∧ (nextOr (exec (.delay 0#12) afterInit)).faultCode = 0#3
    ∧ goesOn (exec .map State.reset) = true := ⟨noReset_silent, by decide⟩

/-- A conversion completes before the check of a faulting command, and none does. -/
theorem witness_FaultHasNoOtherEffect :
    let s := { busy with prog := [0x1000#16], turns := moves [.converter 5#10] }
    let u := { done700 with prog := [0x1000#16] }
    s.faulted = false ∧ goesOn (step s) = true ∧ (nextOr (step s)).faulted = true ∧ (nextOr (step s)).adcRes = some 5#10
      ∧ u.faulted = false ∧ goesOn (step u) = true ∧ (nextOr (step u)).faulted = true
      ∧ (nextOr (step u)).adcRes = some 700#10 := by decide

theorem afterInit_invariant : Invariant afterInit where
  undriven_iff_input := fun l => by cases l <;> decide
  output_iff_inited := fun l => by cases l <;> decide
  config := by decide
  off_iff_uninitialised := by decide
  result_iff_done := by decide
  power_le := fun p hp => by cases hp
  power_written := by decide
  clocks := by decide
  fault_record := by decide
  cpc_le := by decide
  between := by decide
  running := fun i hi => by cases hi

theorem loaded_invariant : Invariant loaded where
  undriven_iff_input := fun l => by cases l <;> decide
  output_iff_inited := fun l => by cases l <;> decide
  config := by decide
  off_iff_uninitialised := by decide
  result_iff_done := by decide
  power_le := fun p hp => by cases hp
  power_written := by decide
  clocks := by decide
  fault_record := by decide
  cpc_le := by decide
  between := by decide
  running := fun i hi => by cases hi

/-- A state with a command in progress meets the invariant: RUN between two iterations. -/
theorem runBetween_invariant : Invariant runBetween where
  undriven_iff_input := fun l => by cases l <;> decide
  output_iff_inited := fun l => by cases l <;> decide
  config := by decide
  off_iff_uninitialised := by decide
  result_iff_done := by decide
  power_le := fun p hp => by cases hp; decide
  power_written := by decide
  clocks := by decide
  fault_record := by decide
  cpc_le := by decide
  between := by decide
  running := fun i hi => by
    cases hi
    exact ⟨by decide, by decide, by decide, ⟨0xE000#16, by decide, by decide⟩, .inr (.inr ⟨rfl, by decide, by decide⟩)⟩

/-- And SAMPLE at its hold. -/
theorem sampleHeld_invariant : Invariant sampleHeld where
  undriven_iff_input := fun l => by cases l <;> decide
  output_iff_inited := fun l => by cases l <;> decide
  config := by decide
  off_iff_uninitialised := by decide
  result_iff_done := by decide
  power_le := fun p hp => by cases hp
  power_written := by decide
  clocks := by decide
  fault_record := by decide
  cpc_le := by decide
  between := by decide
  running := fun i hi => by
    cases hi
    exact ⟨by decide, by decide, by decide, ⟨0x8000#16, by decide, by decide⟩, .inl ⟨.inl rfl, by decide, by decide⟩⟩

/-- The states of the micro-step witnesses: INIT and SAMPLE before their first micro-step, SHIFTOUT inside its body with a
reset next. -/
def initInside : State := { State.reset with prog := [0x1000#16], cur := some .init }
def sampleInside : State := { afterInit with prog := [0x8000#16], cur := some .sample }
def loadedMicro : State := { loaded with cur := some .shiftout, ms := 2, turns := moves [.reset .input] }

/-- A command in progress beside the domains of a state without one. -/
theorem micro_of_invariant {s t : State} {cw : Word} {i : Instr} (h : Invariant s)
    (ht : t = { s with cur := some i, ms := t.ms, turns := t.turns }) (hf : s.faultCode = 0#3)
    (hw : s.prog[s.cpc]? = some cw) (hd : decode cw = .cmd i) (hn : Needs i (placeOf i t.ms) t) : MicroInvariant t := by
  rw [ht]
  exact
    { undriven_iff_input := h.undriven_iff_input, output_iff_inited := h.output_iff_inited, config := h.config,
      off_iff_uninitialised := h.off_iff_uninitialised, result_iff_done := h.result_iff_done, power_le := h.power_le,
      power_written := h.power_written, clocks := h.clocks, fault_record := h.fault_record, cpc_le := h.cpc_le,
      within := fun j hj => by cases hj; exact ⟨hf, ⟨cw, hw, hd⟩, by rw [ht] at hn; exact hn⟩ }

theorem reset_invariant : Invariant { State.reset with prog := [0x1000#16] } where
  undriven_iff_input := fun l => by cases l <;> decide
  output_iff_inited := fun l => by cases l <;> decide
  config := by decide
  off_iff_uninitialised := by decide
  result_iff_done := by decide
  power_le := fun p hp => by cases hp
  power_written := by decide
  clocks := by decide
  fault_record := by decide
  cpc_le := by decide
  between := by decide
  running := fun i hi => by cases hi

theorem idle_invariant : Invariant { afterInit with prog := [0x8000#16] } :=
  { undriven_iff_input := afterInit_invariant.undriven_iff_input,
    output_iff_inited := afterInit_invariant.output_iff_inited, config := afterInit_invariant.config,
    off_iff_uninitialised := afterInit_invariant.off_iff_uninitialised,
    result_iff_done := afterInit_invariant.result_iff_done, power_le := afterInit_invariant.power_le,
    power_written := afterInit_invariant.power_written, clocks := afterInit_invariant.clocks,
    fault_record := afterInit_invariant.fault_record, cpc_le := by decide, between := by decide,
    running := fun i hi => by cases hi }

theorem initInside_micro : MicroInvariant initInside :=
  micro_of_invariant (cw := 0x1000#16) (i := .init) reset_invariant rfl rfl rfl (by decide) (fun _ => rfl)

theorem sampleInside_micro : MicroInvariant sampleInside :=
  micro_of_invariant (cw := 0x8000#16) (i := .sample) idle_invariant rfl rfl rfl (by decide)
    ⟨rfl, by decide, by decide, by decide⟩

theorem loadedMicro_micro : MicroInvariant loadedMicro :=
  micro_of_invariant (cw := 0xC000#16) (i := .shiftout) loaded_invariant rfl rfl rfl (by decide) ⟨rfl, rfl⟩

theorem witness_StepKeepsTheInvariant :
    Invariant runBetween ∧ Invariant sampleHeld ∧ (∃ t, step runBetween = .next t) ∧ ∃ t, step sampleHeld = .next t :=
  ⟨runBetween_invariant, sampleHeld_invariant, ⟨_, rfl⟩, ⟨_, rfl⟩⟩

theorem witness_StepNeverStops : Invariant loaded ∧ Invariant runBetween := ⟨loaded_invariant, runBetween_invariant⟩

theorem witness_TickKeepsTheMicroInvariant : Invariant runBetween ∧ MicroInvariant initInside :=
  ⟨runBetween_invariant, initInside_micro⟩

theorem witness_ResetsLeaveTheResetState :
    { loaded with turns := moves [.reset .input, .controller] }.turns.next = (.reset .input, moves [.controller])
    ∧ { loaded with turns := moves [.reset .powerOn] }.turns.next = (.reset .powerOn, .silent) := by decide

/-- The invariant does not speak of the schedule. -/
theorem invariant_setTurns {s : State} (h : Invariant s) (ts : Schedule) : Invariant (s.setTurns ts) :=
  { undriven_iff_input := h.undriven_iff_input, output_iff_inited := h.output_iff_inited, config := h.config,
    off_iff_uninitialised := h.off_iff_uninitialised, result_iff_done := h.result_iff_done, power_le := h.power_le,
    power_written := h.power_written, clocks := h.clocks, fault_record := h.fault_record, cpc_le := h.cpc_le,
    between := h.between, running := h.running }

/-- SHIFTOUT with the reset before its fetch, and just before its completion (44 controller turns). -/
theorem witness_ResetAbortsTheCommand :
    let at' := fun n => loaded.setTurns (moves (List.replicate n .controller ++ [.reset .input]))
    Invariant (at' 0) ∧ Invariant (at' 44) ∧ (at' 0).faulted = false ∧ (at' 0).cur = none
    ∧ check .shiftout (at' 0) = none ∧ check .shiftout (at' 44) = none
    ∧ (∀ r, Turn.reset r ∉ List.replicate 44 Turn.controller)
    ∧ (at' 0).turns.begins ([] ++ [.reset .input]) .silent
    ∧ (at' 44).turns.begins (List.replicate 44 .controller ++ [.reset .input]) .silent
    ∧ 44 ≤ 1 + (bodyOf .shiftout).length :=
  ⟨invariant_setTurns loaded_invariant _, invariant_setTurns loaded_invariant _, by decide, by decide, by decide,
    by decide, fun r => by simp, Schedule.begins_after _ _, Schedule.begins_after _ _, by decide⟩

/-- SAMPLE at its hold (start 0) with power-on at the hold, and after a completion and two more micro-steps; RUN between two
iterations (start 1) with the reset at its next hold; STEP from its fetch (start 2) just before its completion. -/
theorem witness_ResetAbortsTheCommand_at_the_hold :
    let held := fun ts => sampleHeld.setTurns (moves (ts ++ [.reset .powerOn]))
    let run := runBetween.setTurns (moves [.controller, .reset .input])
    let late := [Turn.controller, .controller, .converter 5#10] ++ List.replicate 46 .controller
    Invariant (held []) ∧ (held []).cur = some .sample ∧ (held []).adcState = .busy
    ∧ (held []).turns.begins ([] ++ [.reset .powerOn]) .silent
    ∧ (held [.converter 5#10, .controller, .controller]).turns.begins
        ([.converter 5#10, .controller, .controller] ++ [.reset .powerOn]) .silent
    ∧ [Turn.converter 5#10, .controller, .controller].count .controller + 2 ≤ 0 + (bodyOf .sample).length + 1
    ∧ Invariant run ∧ run.cur = some .run ∧ run.adcState ≠ .busy ∧ run.turns.begins ([.controller] ++ [.reset .input]) .silent
    ∧ check .step afterInit = none ∧ late.count .controller + 2 ≤ 2 + (bodyOf .step).length + 1
    ∧ (∃ p v q, late = p ++ .converter v :: q ∧ p.count .controller = 2) :=
  ⟨invariant_setTurns sampleHeld_invariant _, by decide, by decide, Schedule.begins_after _ _, Schedule.begins_after _ _,
    by decide, invariant_setTurns runBetween_invariant _, by decide, by decide, Schedule.begins_after _ _, by decide,
    by decide, [.controller, .controller], 5#10, List.replicate 46 .controller, rfl, by decide⟩

/-- A command that completes and one that faults. -/
theorem witness_HoldFreeCommandsCompleteOrFault :
    Invariant loaded ∧ noReset loaded.turns ∧ loaded.ready = true
    ∧ (nextOr (exec .shiftout loaded)).cpc = 1 ∧ (nextOr (exec .map loaded)).faultCode = 6#3 :=
  ⟨loaded_invariant, noReset_silent, by decide, by decide, by decide⟩

theorem witness_FieldsAreWrittenOnlyByTheirCommands :
    noReset loaded.turns ∧ (∃ t, exec .shiftout loaded = .next t) ∧ ∃ t, exec .init State.reset = .next t :=
  ⟨noReset_silent, ⟨_, rfl⟩, ⟨_, rfl⟩⟩

/-- INIT inside its command, a start from IDLE, a completion, a reset, and a micro-step that leaves the converter alone. -/
theorem witness_TickMovesTheConverter :
    MicroInvariant initInside ∧ MicroInvariant sampleInside ∧ MicroInvariant loadedMicro
    ∧ (nextOr (tick initInside)).adcState = .idle ∧ (nextOr (tick sampleInside)).adcState = .busy
    ∧ (nextOr (tick loadedMicro)).adcState = .off
    ∧ (nextOr (tick { sampleInside with turns := moves [.converter 5#10] })).adcState = .idle
    ∧ (nextOr (tick { busy with turns := moves [.converter 5#10] })).adcState = .done :=
  ⟨initInside_micro, sampleInside_micro, loadedMicro_micro, by decide, by decide, by decide, by decide, by decide⟩

theorem witness_RecordOnlyGrows :
    (∃ t, step { loaded with turns := moves [.reset .input] } = .next t) ∧ noPowerOn (moves [.reset .input]) :=
  ⟨⟨_, rfl⟩, Schedule.all_after.2 ⟨by simp, noPowerOn_silent⟩⟩

/-- INIT's two clauses. -/
theorem witness_InitFollowsItsRule :
    State.reset.ready = true ∧ quiet 3 State.reset.turns = true ∧ State.reset.inited = false
    ∧ afterInit.ready = true ∧ afterInit.inited = true := by decide

/-- Every line. -/
theorem witness_SetlDrivesLineAndReceiver :
    lineOfId 0#2 = some .ser ∧ lineOfId 1#2 = some .srclk ∧ lineOfId 2#2 = some .rclk
    ∧ afterInit.ready = true ∧ quiet 3 afterInit.turns = true ∧ afterInit.inited = true := by decide

/-- SETL's clauses on both sides of each hold time: gF 1 and 2, gR 9 and 10, gL 49 and 50. -/
theorem witness_SetlDrivesLineAndReceiver_boundaries :
    let fell := fun d => { afterInit with
      shift := Tri8.ofByte 0x5A#8, latch := Tri8.ofByte 0xC3#8,
      history := [.init, .line .srclk true, .delay 10, .line .srclk false, .delay d] }
    let rose := fun d => { afterInit with
      lvlSrclk := .high, shift := Tri8.ofByte 0x5A#8, history := [.init, .line .srclk true, .delay d] }
    let latched := fun d => { afterInit with
      lvlRclk := .high, latch := Tri8.ofByte 0xC3#8, history := [.init, .line .rclk true, .delay d] }
    (fell 1).timing.gF = some 1 ∧ (fell 2).timing.gF = some 2
    ∧ (rose 9).timing.gR = some 9 ∧ (rose 10).timing.gR = some 10
    ∧ (latched 49).timing.gL = some 49 ∧ (latched 50).timing.gL = some 50
    ∧ (fell 1).ready = true ∧ (fell 1).inited = true ∧ quiet 3 (fell 1).turns = true
    ∧ (nextOr (exec (.setl 1#2 true) (fell 1))).shift = .allUnknown
    ∧ (nextOr (exec (.setl 1#2 true) (fell 2))).shift = Tri8.ofByte 0xB4#8
    ∧ (nextOr (exec (.setl 2#2 true) (fell 1))).latch = .allUnknown
    ∧ (nextOr (exec (.setl 2#2 true) (fell 2))).latch = Tri8.ofByte 0x5A#8
    ∧ (nextOr (exec (.setl 0#2 true) (rose 9))).shift = .allUnknown
    ∧ (nextOr (exec (.setl 0#2 true) (rose 10))).shift = Tri8.ofByte 0x5A#8
    ∧ (nextOr (exec (.setl 2#2 false) (latched 49))).latch = .allUnknown
    ∧ (nextOr (exec (.setl 2#2 false) (latched 50))).latch = Tri8.ofByte 0xC3#8 := by decide

theorem witness_GetlReadsTheLineBack :
    lineOfId 2#2 = some .rclk ∧ afterInit.lvl .rclk = levelOfBool false
    ∧ { afterInit with lvlSer := .high }.lvl .ser = levelOfBool true ∧ afterInit.ready = true
    ∧ quiet 3 afterInit.turns = true ∧ afterInit.inited = true ∧ State.reset.ready = true
    ∧ State.reset.inited = false ∧ (0x3006#16 : Word).extractLsb' 12 4 = 0x3#4
    ∧ (0x3006#16 : Word) ∉ [0x3000#16, 0x3002#16, 0x3004#16] := by decide

theorem witness_DelayFollowsItsRule : State.reset.ready = true ∧ quiet 3 State.reset.turns = true := by decide

/-- ADSTART's clauses: it starts; not initialised; busy. -/
theorem witness_AdstartFollowsItsRule :
    done700.ready = true ∧ quiet 3 done700.turns = true ∧ done700.inited = true ∧ done700.adcState ≠ .busy
    ∧ State.reset.ready = true ∧ State.reset.inited = false ∧ busy.ready = true ∧ busy.adcState = .busy
    ∧ (0x5001#16 : Word).extractLsb' 12 4 = 0x5#4 ∧ (0x5001#16 : Word) ≠ 0x5000#16 := by decide

/-- ADPOLL's clauses. -/
theorem witness_AdpollFollowsItsRule :
    (0x6FFF#16 : Word).extractLsb' 12 4 = 0x6#4 ∧ (0x6FFF#16 : Word) ≠ 0x6000#16 ∧
    done700.ready = true ∧ quiet 3 done700.turns = true ∧ done700.inited = true ∧ busy.ready = true
    ∧ busy.inited = true ∧ busy.adcState = .busy ∧ State.reset.ready = true ∧ State.reset.inited = false
    ∧ (moves [.controller, .converter 5#10, .controller, .controller]).begins
        [.controller, .converter 5#10, .controller, .controller] .silent
    ∧ (moves [.controller, .controller, .converter 5#10, .controller]).begins
        [.controller, .controller, .converter 5#10, .controller] .silent :=
  ⟨by decide, by decide, by decide, by decide, by decide, by decide, by decide, by decide, by decide, by decide,
    Schedule.begins_after _ _, Schedule.begins_after _ _⟩

theorem witness_AdreadTakesTheResult :
    done700.ready = true ∧ quiet 3 done700.turns = true ∧ done700.inited = true ∧ done700.adcState = .done
    ∧ done700.adcRes = some 700#10 ∧ afterInit.ready = true ∧ afterInit.adcState ≠ .done
    ∧ (0x7001#16 : Word).extractLsb' 12 4 = 0x7#4 ∧ (0x7001#16 : Word) ≠ 0x7000#16 := by decide

theorem witness_ConverterCompletesOnlyFromBusy :
    { busy with turns := moves [.converter 1023#10] }.turns.next = (.converter 1023#10, .silent)
    ∧ { afterInit with turns := moves [.converter 0#10] }.turns.next = (.converter 0#10, .silent) := by decide

theorem witness_SampleTakesAFreshResult :
    let s := { afterInit with turns := moves [.controller, .controller, .converter 300#10] }
    s.turns.begins [.controller, .controller, .converter 300#10] .silent
      ∧ s.ready = true ∧ s.inited = true ∧ s.adcState ≠ .busy ∧ quiet 3 .silent = true :=
  ⟨Schedule.begins_after _ _, by decide⟩

/-- With nothing scheduled, and with the completion of every later pass (the endless schedule's own). -/
theorem witness_SampleHoldsUntilCompletion :
    done700.ready = true ∧ done700.inited = true ∧ done700.adcState ≠ .busy ∧ quiet 3 done700.turns = true
    ∧ quiet 1 .silent = true
    ∧ Schedule.begins ⟨[], .cycle [.converter 5#10, .controller, .controller]⟩ [.converter 5#10]
        ⟨[.controller, .controller, .controller], .cycle [.converter 5#10, .controller, .controller]⟩
    ∧ quiet 3 ⟨[.controller, .controller, .controller], .cycle [.converter 5#10, .controller, .controller]⟩ = true :=
  ⟨by decide, by decide, by decide, by decide, by decide, ⟨rfl, rfl⟩, by decide⟩

theorem witness_SampleMatchesThePortSequence :
    let s := { afterInit with turns := moves [.controller, .controller, .controller, .converter 300#10] }
    s.turns.begins [.controller, .controller, .controller, .converter 300#10] .silent ∧
    (moves [.controller, .controller, .converter 300#10, .controller, .controller, .controller]).begins
      [.controller, .controller, .converter 300#10, .controller, .controller, .controller] (Schedule.silent.drop 3) ∧
    s.ready = true ∧ s.inited = true ∧ s.adcState ≠ .busy ∧ quiet 3 .silent = true ∧
    ∃ a b t, exec .adstart s = .next a ∧ tick a = .next b ∧ exec .adread b = .next t :=
  ⟨Schedule.begins_after _ _, Schedule.begins_after _ _, by decide, by decide, by decide, by decide, _, _, _, rfl, rfl,
    rfl⟩

theorem witness_LdrawFollowsItsRule :
    State.reset.ready = true ∧ quiet 3 State.reset.turns = true
    ∧ (0x9400#16 : Word).extractLsb' 12 4 = 0x9#4 ∧ (0x9400#16 : Word).extractLsb' 10 2 ≠ 0#2 := by decide

/-- RAW written, at both ends of its range; RAW unwritten. -/
theorem witness_MapFollowsItsRule :
    let s := { State.reset with raw := some 1023#10 }
    s.ready = true ∧ quiet 3 s.turns = true ∧ s.raw = some 1023#10
      ∧ { State.reset with raw := some 0#10 }.raw = some 0#10 ∧ State.reset.ready = true ∧ State.reset.raw = none
      ∧ (0xA001#16 : Word).extractLsb' 12 4 = 0xA#4 ∧ (0xA001#16 : Word) ≠ 0xA000#16 := by
  decide

theorem witness_LdpatFollowsItsRule :
    State.reset.ready = true ∧ quiet 3 State.reset.turns = true
    ∧ (0xB100#16 : Word).extractLsb' 12 4 = 0xB#4 ∧ (0xB100#16 : Word).extractLsb' 8 4 ≠ 0#4 := by decide

theorem witness_ShiftoutCompletes :
    loaded.ready = true ∧ loaded.inited = true ∧ loaded.pattern = some 0x0B#8 ∧ quiet 45 loaded.turns = true := by decide

/-- With a conversion that completes inside the shift-out. -/
theorem witness_SettledShiftoutShowsThePattern :
    let s := { loaded with adcState := .busy, turns := moves [.controller, .controller, .converter 5#10] }
    noReset s.turns ∧ s.ready = true ∧ s.inited = true ∧ s.pattern = some 0x0B#8 ∧ s.settled = true :=
  ⟨moves_noReset (by simp), by decide⟩

theorem witness_ShiftoutMakesEightPulsesAndALatch :
    let s := { loaded with history := [.init, .line .srclk true, .line .srclk false] }
    s.ready = true ∧ s.inited = true ∧ s.pattern = some 0x0B#8 ∧ quiet 45 s.turns = true
      ∧ lineLevel .srclk s.history = false ∧ lineLevel .rclk s.history = false := by decide

theorem witness_ShiftoutMeetsTheHoldTimes :
    loaded.ready = true ∧ loaded.inited = true ∧ loaded.pattern = some 0x0B#8 ∧ quiet 45 loaded.turns = true := by decide

theorem witness_OutputsHoldUntilTheLatchRise :
    ∃ t, runMicros (shiftoutBody.take 40) loaded = .done t := ⟨_, rfl⟩

/-- The first data write changes SER inside the hold (gR 9), after it (gR 10), and not at all: the old SHIFT[0] is lost in the
first case only. -/
theorem witness_ShiftoutLosesAShiftEdge :
    let s := fun d b => { afterInit with
      lvlSer := .high, lvlSrclk := .high, shift := Tri8.ofByte 0xFF#8, pattern := some b,
      history := [.init, .line .ser true, .line .srclk true, .delay d] }
    noReset (s 9 0x00#8).turns ∧ (s 9 0x00#8).ready = true ∧ (s 9 0x00#8).inited = true
      ∧ (s 9 0x00#8).pattern = some 0x00#8 ∧ (s 9 0x00#8).lvlSrclk = .high ∧ (s 9 0x00#8).lvlRclk = .low
      ∧ (nextOr (exec .shiftout (s 9 0x00#8))).shift.b7 = .unknown
      ∧ (nextOr (exec .shiftout (s 10 0x00#8))).shift.b7 = .one
      ∧ (nextOr (exec .shiftout (s 9 0x01#8))).shift.b7 = .one :=
  ⟨noReset_silent, by decide⟩

theorem witness_ShiftoutLosesTheLatchEdge :
    let s := { afterInit with lvlRclk := .high, pattern := some 0x00#8, history := [.init, .line .rclk true, .delay 50] }
    noReset s.turns ∧ s.ready = true ∧ s.inited = true ∧ s.pattern = some 0x00#8 ∧ s.lvlRclk = .high :=
  ⟨noReset_silent, by decide⟩

/-- Entered unsettled (gF 1): bit 0 is lost; settled (gF 2): it is not (43_output_driver R156). -/
theorem witness_ShiftoutFromEveryEntry :
    let s := fun d => { loaded with history := [.init, .line .srclk true, .delay 10, .line .srclk false, .delay d] }
    noReset (s 1).turns ∧ (s 1).ready = true ∧ (s 1).driven = true ∧ (s 1).pattern = some 0x0B#8
      ∧ (s 1).settled = false ∧ (nextOr (exec .shiftout (s 1))).shift = { Tri8.ofByte 0xD0#8 with b7 := .unknown }
      ∧ (s 2).settled = true ∧ (nextOr (exec .shiftout (s 2))).shift = Tri8.ofByte 0xD0#8 :=
  ⟨noReset_silent, by decide⟩

theorem witness_ShiftoutCarriesNoHiddenState :
    loaded.ready = true ∧ loaded.inited = true ∧ loaded.pattern = some 0x0B#8 ∧ loaded.settled = true
    ∧ quiet 90 loaded.turns = true ∧ ∃ t, exec .shiftout loaded = .next t :=
  ⟨by decide, by decide, by decide, by decide, by decide, _, rfl⟩

theorem witness_StepCommandShowsItsSample :
    let s := { afterInit with turns := moves [.controller, .controller, .converter 1016#10] }
    s.turns.begins [.controller, .controller, .converter 1016#10] .silent ∧ s.ready = true ∧ s.inited = true
      ∧ s.adcState ≠ .busy ∧ s.settled = true ∧ quiet 47 .silent = true :=
  ⟨Schedule.begins_after _ _, by decide⟩

/-- Unsettled: SRCLK high at entry (95_test_vectors L2.7). -/
theorem witness_StepCommandFromEveryEntry :
    let s := { afterInit with
      lvlSrclk := .high, history := [.init, .line .srclk true],
      turns := moves [.controller, .controller, .converter 1016#10] }
    s.turns.begins [.controller, .controller, .converter 1016#10] .silent ∧ s.ready = true ∧ s.driven = true
      ∧ s.settled = false ∧ s.adcState ≠ .busy ∧ quiet 47 .silent = true :=
  ⟨Schedule.begins_after _ _, by decide⟩

/-- Both outcomes: the conversion completes, and it does not. -/
theorem witness_StepCommandHoldsOrShowsItsSample :
    let s := { afterInit with turns := moves [.controller, .controller, .converter 1016#10] }
    noReset s.turns ∧ s.ready = true ∧ s.inited = true ∧ s.adcState = .idle ∧ s.settled = true
      ∧ (nextOr (exec .step s)).cur = none ∧ (nextOr (exec .step afterInit)).cur = some .step
      ∧ done700.ready = true ∧ done700.settled = true ∧ done700.adcState = .done :=
  ⟨moves_noReset (by simp), by decide⟩

/-- From RUN's fetch, and from between two iterations. -/
theorem witness_RunGoesThroughOneIteration :
    let s := { afterInit with turns := moves [.controller, .controller, .converter 300#10] }
    let r := { runBetween with turns := moves [.controller, .converter 300#10] }
    s.turns.begins [.controller, .controller, .converter 300#10] .silent
      ∧ r.turns.begins [.controller, .converter 300#10] .silent
      ∧ s.faulted = false ∧ s.inited = true ∧ s.adcState ≠ .busy ∧ s.settled = true ∧ s.cur = none
      ∧ quiet 46 .silent = true ∧ r.faulted = false ∧ r.inited = true ∧ r.adcState ≠ .busy ∧ r.settled = true
      ∧ r.cur = some .run ∧ r.ms % 47 = 0 :=
  ⟨Schedule.begins_after _ _, Schedule.begins_after _ _, by decide⟩

/-- RCLK high at entry, from RUN's fetch. -/
theorem witness_RunIterationFromEveryEntry :
    let s := { afterInit with
      lvlRclk := .high, history := [.init, .line .rclk true],
      turns := moves [.controller, .controller, .converter 300#10] }
    s.turns.begins [.controller, .controller, .converter 300#10] .silent
      ∧ s.faulted = false ∧ s.driven = true ∧ s.settled = false ∧ s.adcState ≠ .busy ∧ s.cur = none
      ∧ quiet 46 .silent = true ∧ runBetween.driven = true :=
  ⟨Schedule.begins_after _ _, by decide⟩

theorem witness_OnlyResetLeavesRun :
    Invariant runBetween ∧ noReset runBetween.turns ∧ runBetween.cur = some .run ∧ ∃ t, step runBetween = .next t :=
  ⟨runBetween_invariant, noReset_silent, by decide, _, rfl⟩

/-- A completion in every pass, for ever. -/
theorem endless_noReset : noReset ⟨[], .cycle [.controller, .converter 300#10]⟩ :=
  ⟨by simp, fun t ht k => by simp at ht; rcases ht with rfl | rfl <;> simp⟩

theorem witness_RunIteratesForEver :
    let s := runBetween.setTurns ⟨[], .cycle [.controller, .converter 300#10]⟩
    Invariant s ∧ s.cur = some .run ∧ noReset s.turns ∧ keepsCompleting s.turns
      ∧ (nextOr (step s)).ms = 94 :=
  ⟨invariant_setTurns runBetween_invariant _, by decide, endless_noReset, ⟨300#10, by simp⟩, by decide⟩

theorem witness_HoldsEndWhereCompletionsKeepComing :
    let s := sampleHeld.setTurns ⟨[], .cycle [.controller, .converter 300#10]⟩
    Invariant s ∧ s.cur = some .sample ∧ noReset s.turns ∧ keepsCompleting s.turns
      ∧ (nextOr (step s)).cur = some .sample ∧ (nextOr (step (nextOr (step s)))).cur = none :=
  ⟨invariant_setTurns sampleHeld_invariant _, by decide, endless_noReset, ⟨300#10, by simp⟩, by decide, by decide⟩

end Sys2Proof.Tests
end

section
/-! PROOFS. The state record: what the two resets leave (10_state R36). -/

namespace Sys2Proof.Machine

/-- When the schedule's next move is a reset, the micro-step is that reset, with the rest of the schedule left. -/
theorem tick_eq_resetStep_of_next {s : State} {k : ResetKind} {rest : Schedule} (h : s.turns.next = (.reset k, rest)) :
    tick s = .next (resetStep k (s.setTurns rest)) := by
  simp [tick, h]

/-- Settles O19: the tick is the reset's own step, and each of the two kinds leaves R36's values field by field. -/
theorem resetsLeaveTheResetState : Obligations.ResetsLeaveTheResetState := by
  intro s rest k h
  rw [tick_eq_resetStep_of_next h]
  cases k with
  | powerOn => rfl
  | input => rfl

end Sys2Proof.Machine
end

section
/-! PROOFS. The illegal words (30_encoding R74): what each format's decoder refuses, which decoder each opcode has, and what
a step does that fetches an illegal word. -/

namespace Sys2Proof

/-! ### What each format refuses (R71) -/

@[simp] theorem decodeN_illegal_iff (i : Instr) (cw : Word) :
    (∃ r, decodeN i cw = .illegal r) ↔ cw.extractLsb' 0 12 ≠ 0#12 := by
  unfold decodeN
  split <;> simp [*]

@[simp] theorem decodeSetl_illegal_iff (cw : Word) :
    (∃ r, decodeSetl cw = .illegal r) ↔ cw.extractLsb' 3 9 ≠ 0#9 ∨ cw.extractLsb' 1 2 = 3#2 := by
  unfold decodeSetl lineField
  split_ifs <;> simp [*]

@[simp] theorem decodeGetl_illegal_iff (cw : Word) :
    (∃ r, decodeGetl cw = .illegal r) ↔
      cw.extractLsb' 3 9 ≠ 0#9 ∨ cw.extractLsb' 1 2 = 3#2 ∨ cw.getLsbD 0 = true := by
  unfold decodeGetl lineField
  split_ifs with hzero hline hlevel
  · simp [hzero]
  · simp [hline]
  · simp [hlevel]
  · simp only [hzero, hline, hlevel]; simp

@[simp] theorem decodeLdraw_illegal_iff (cw : Word) :
    (∃ r, decodeLdraw cw = .illegal r) ↔ cw.extractLsb' 10 2 ≠ 0#2 := by
  unfold decodeLdraw
  split <;> simp [*]

@[simp] theorem decodeLdpat_illegal_iff (cw : Word) :
    (∃ r, decodeLdpat cw = .illegal r) ↔ cw.extractLsb' 8 4 ≠ 0#4 := by
  unfold decodeLdpat
  split <;> simp [*]

/-! ### The opcode map (R73) -/

/-- The opcodes of format N (R71): the commands without operands. -/
def formatN : List (BitVec 4) := [0x1#4, 0x5#4, 0x6#4, 0x7#4, 0x8#4, 0xA#4, 0xC#4, 0xD#4, 0xE#4]

/-- Which decoder a word's opcode selects. -/
theorem decode_cases (cw : Word) :
    ((opField cw = 0x0#4 ∨ opField cw = 0xF#4) ∧ decode cw = .illegal .reservedOpcode) ∨
    (opField cw ∈ formatN ∧ ∃ i, decode cw = decodeN i cw) ∨
    (opField cw = 0x2#4 ∧ decode cw = decodeSetl cw) ∨
    (opField cw = 0x3#4 ∧ decode cw = decodeGetl cw) ∨
    (opField cw = 0x4#4 ∧ decode cw = .cmd (.delay (cw.extractLsb' 0 12))) ∨
    (opField cw = 0x9#4 ∧ decode cw = decodeLdraw cw) ∨
    (opField cw = 0xB#4 ∧ decode cw = decodeLdpat cw) := by
  unfold decode
  generalize opField cw = op
  have hop : op = 0x0#4 ∨ op = 0xF#4 ∨ op ∈ formatN ∨ op = 0x2#4 ∨ op = 0x3#4 ∨ op = 0x4#4 ∨ op = 0x9#4
      ∨ op = 0xB#4 := by
    revert op; decide
  have hN : ∀ i, ∃ j, decodeN i cw = decodeN j cw := fun i => ⟨i, rfl⟩
  split <;> simp_all [formatN]

/-- R74: the four cases, by the opcode's decoder. -/
theorem decode_illegal_iff (cw : Word) :
    (∃ r, decode cw = .illegal r) ↔
      (opField cw = 0x0#4 ∨ opField cw = 0xF#4)
      ∨ (opField cw ∈ formatN ∧ cw.extractLsb' 0 12 ≠ 0#12)
      ∨ ((opField cw = 0x2#4 ∨ opField cw = 0x3#4) ∧ cw.extractLsb' 3 9 ≠ 0#9)
      ∨ (opField cw = 0x9#4 ∧ cw.extractLsb' 10 2 ≠ 0#2)
      ∨ (opField cw = 0xB#4 ∧ cw.extractLsb' 8 4 ≠ 0#4)
      ∨ ((opField cw = 0x2#4 ∨ opField cw = 0x3#4) ∧ cw.extractLsb' 1 2 = 3#2)
      ∨ (opField cw = 0x3#4 ∧ cw.getLsbD 0 = true) := by
  rcases decode_cases cw with ⟨hop, hd⟩ | ⟨hop, i, hd⟩ | ⟨hop, hd⟩ | ⟨hop, hd⟩ | ⟨hop, hd⟩ | ⟨hop, hd⟩ | ⟨hop, hd⟩
  · simp [hop, hd]
  · have hne : ∀ op ∈ formatN, op ∉ [0x0#4, 0xF#4, 0x2#4, 0x3#4, 0x9#4, 0xB#4] := by decide
    have hop' := hne _ hop
    simp only [List.mem_cons, List.not_mem_nil, or_false, not_or] at hop'
    simp [hop, hd, hop']
  all_goals simp [hop, hd, formatN]

end Sys2Proof

namespace Sys2Proof.Machine

theorem State.ready_iff {s : State} : s.ready = true ↔ s.faulted = false ∧ s.cur = none := by
  simp [State.ready]

/-- On a quiet schedule nothing comes between the fetch of an illegal word and its fault. -/
theorem fetchIllegal_quiet {s : State} (cw : Word) (hq : quiet 1 s.turns = true) :
    fetchIllegal cw s = raise .illegalCommand cw (s.setTurns (s.turns.drop 1)) := by
  rw [fetchIllegal, awaitTurn_quiet hq]

/-- A ready block that reads an illegal word at CPC takes the fetch of an illegal word as its step. -/
theorem step_eq_fetchIllegal {s : State} {cw : Word} {r : Reject} (hr : s.ready = true)
    (hp : s.prog[s.cpc]? = some cw) (hd : decode cw = .illegal r) : step s = .next (fetchIllegal cw s) := by
  obtain ⟨hf, hc⟩ := State.ready_iff.1 hr
  simp [step, fetchWord, hf, hc, hp, hd]

/-- Settles O4: each format's decoder refuses what R74 lists for its opcodes, and the fetch of a refused word is `raise`
with that word. -/
theorem illegalWordsRaiseIllegalCommand : Obligations.IllegalWordsRaiseIllegalCommand := by
  refine ⟨decode_illegal_iff, fun s cw r hr hq hp hd => ?_⟩
  rw [step_eq_fetchIllegal hr hp hd, fetchIllegal_quiet cw hq]
  rfl

end Sys2Proof.Machine
end

section
/-! PROOFS. What a command does on a quiet schedule, from its fetch: the fault its check raises, or its one body micro-step
and its completion (10_state R27, 60_exceptions R200). -/

namespace Sys2Proof.Machine

/-- A command refused by its check raises that fault and does nothing else (R200). -/
theorem exec_raise {i : Instr} {s : State} {f : FaultName} (hr : s.ready = true) (hq : quiet 1 s.turns = true)
    (hk : check i s = some f) : exec i s = .next (raise f (encode i) (s.setTurns (s.turns.drop 1))) := by
  rw [exec_eq, runCommand_raise hr hq ((check_turns i s _).trans hk)]

/-- A command other than RUN runs its body and completes (R27). -/
theorem exec_eq_runBody {i : Instr} (hi : i ≠ .run) (s : State) : exec i s = runBody i (bodyOf i) s := by
  have hrest : restOf i = fun ms => (bodyOf i).drop ms := by funext ms; simp [restOf, hi]
  simp [exec_eq, runBody, hrest, doneOf, hi]

/-- A command whose body is one micro-step takes it and completes. -/
theorem exec_single {i : Instr} {m : MicroStep} {s u : State} (hb : bodyOf i = [m]) (hr : s.ready = true)
    (hq : quiet 3 s.turns = true) (hk : check i s = none) (hm : m ((begin i s).setTurns (s.turns.drop 2)) = .moved u)
    (hu : u.turns = s.turns.drop 2) : exec i s = .next (finish i (u.nextMicro.setTurns (s.turns.drop 3))) := by
  have hi : i ≠ .run := fun h => by simpa [h, bodyOf, stepBody] using congrArg List.length hb
  rw [exec_eq_runBody hi, hb]
  exact runBody_single hr hq hk hm hu

/-- The completion of a command that does not respond (R27 (c)). -/
theorem finish_silent {i : Instr} {s : State} (hi : responds i = false) :
    finish i s = { s with cpc := s.cpc + 1, cur := none, ms := 0, pending := none } := by
  simp [finish, respond, hi]

/-- The completion of a command that responds sends the word its body kept (R27 (c), R34). -/
theorem finish_responds {i : Instr} {w : Word} {s : State} (hi : responds i = true) (hp : s.pending = some w) :
    finish i s = { s with
      responses := s.responses ++ [(s.cpc, w)], cpc := s.cpc + 1, cur := none, ms := 0, pending := none } := by
  simp [finish, respond, hi, hp]

/-! ### The check (60_exceptions R203) -/

/-- A command that needs INIT raises NotInitialised before it. -/
theorem check_uninitialised {i : Instr} {s : State} (hw : i.wf = true) (hn : needsInit i = true)
    (hi : s.inited = false) : check i s = some .notInitialised := by
  simp [check, hw, hn, hi]

theorem check_init (s : State) : check .init s = if s.inited then some .reinitialise else none := by
  simp [check, Instr.wf, needsInit, startsConversion]

theorem check_getl {line : BitVec 2} {s : State} (hl : line ≠ 3#2) (hi : s.inited = true) :
    check (.getl line) s = none := by
  simp [check, Instr.wf, startsConversion, hl, hi]

theorem check_delay (t : BitVec 12) (s : State) : check (.delay t) s = none := by
  simp [check, Instr.wf, needsInit, startsConversion]

end Sys2Proof.Machine
end

section
/-! PROOFS. INIT (40_port R92). -/

namespace Sys2Proof.Machine

/-- Settles O25: before INIT the check lets INIT through to its one micro-step, after INIT it raises Reinitialise. -/
theorem initFollowsItsRule : Obligations.InitFollowsItsRule := by
  refine ⟨rfl, fun s hr hq hi => ?_, fun s hr hq hi => ?_⟩
  · have hk : check .init s = none := by simp [check_init, hi]
    rw [exec_single (m := initialise) rfl hr hq hk rfl rfl, finish_silent rfl]
    simp
  · have hk : check .init s = some .reinitialise := by simp [check_init, hi]
    exact exec_raise hr hq hk

end Sys2Proof.Machine
end

section
/-! PROOFS. GETL (40_port R94): its words, its read of a driven line, and its fault before INIT. -/

namespace Sys2Proof

/-- The fields of format L (30_encoding R71) make up the word. -/
theorem eq_append_formatL (cw : Word) :
    cw = opField cw ++ cw.extractLsb' 3 9 ++ lineField cw ++ BitVec.ofBool (cw.getLsbD 0) := by
  have hbit : BitVec.ofBool (cw.getLsbD 0) = cw.extractLsb' 0 1 := by
    ext i hi
    obtain rfl := Nat.lt_one_iff.1 hi
    simp
  rw [hbit, opField, lineField, BitVec.extractLsb'_append_extractLsb'_eq_extractLsb' (by rfl),
    BitVec.extractLsb'_append_extractLsb'_eq_extractLsb' (by rfl),
    BitVec.extractLsb'_append_extractLsb'_eq_extractLsb' (by rfl), BitVec.extractLsb'_eq_self]

/-- A word of GETL's opcode is the encoding of a GETL of one of the three lines, or illegal. -/
theorem eq_encode_getl_or_illegal {cw : Word} (hop : opField cw = 0x3#4) :
    (∃ line, line ≠ 3#2 ∧ cw = encode (.getl line)) ∨ ∃ r, decode cw = .illegal r := by
  by_cases h : ∃ r, decode cw = .illegal r
  · exact .inr h
  · have hd : decode cw = decodeGetl cw := by simp [decode, hop]
    rw [hd, decodeGetl_illegal_iff] at h
    simp only [not_or, not_not, Bool.not_eq_true] at h
    obtain ⟨hzero, hline, hlevel⟩ := h
    refine .inl ⟨lineField cw, hline, ?_⟩
    have hcw := eq_append_formatL cw
    rwa [hop, hzero, hlevel] at hcw

/-- GETL of the three lines has the words 0x3000, 0x3002 and 0x3004. -/
theorem encode_getl_mem {line : BitVec 2} (hl : line ≠ 3#2) :
    encode (.getl line) ∈ [0x3000#16, 0x3002#16, 0x3004#16] := by
  revert line; decide

end Sys2Proof

namespace Sys2Proof.Machine

/-- The id of a line is not the reserved one (30_encoding R72). -/
theorem ne_three_of_lineOfId {line : BitVec 2} {l : Line} (h : lineOfId line = some l) : line ≠ 3#2 := by
  rintro rfl; cases h

theorem bodyOf_getl {line : BitVec 2} {l : Line} (h : lineOfId line = some l) :
    bodyOf (.getl line) = [readLine l] := by
  simp [bodyOf, getlBody, h]

@[simp] theorem boolOfLevel_levelOfBool (b : Bool) : boolOfLevel (levelOfBool b) = some b := by
  cases b <;> rfl

/-- GETL's micro-step on a driven line keeps the level for the response. -/
theorem readLine_driven {l : Line} {b : Bool} {s : State} (h : s.lvl l = levelOfBool b) :
    readLine l s = .moved (s.respondLater (boolWord b)) := by
  simp [readLine, h]

theorem boolWord_eq (b : Bool) : boolWord b = if b then 0x0001#16 else 0x0000#16 := by
  cases b <;> rfl

/-- Settles O28: the words of opcode 3 by format L's fields, the response from `readLine` on a driven line, and the fault
from the check. -/
theorem getlReadsTheLineBack : Obligations.GetlReadsTheLineBack := by
  refine ⟨rfl, rfl, rfl, fun cw hop hcw => ?_, rfl, rfl, rfl, fun line l b s hl hb hr hq hi => ?_,
    fun line s hl hr hq hi => ?_⟩
  · rcases eq_encode_getl_or_illegal hop with ⟨line, hl, rfl⟩ | h
    · exact absurd (encode_getl_mem hl) hcw
    · exact h
  · have hk : check (.getl line) s = none := check_getl (ne_three_of_lineOfId hl) hi
    have hlvl : ((begin (.getl line) s).setTurns (s.turns.drop 2)).lvl l = levelOfBool b := by
      rw [← hb]; cases l <;> rfl
    rw [exec_single (bodyOf_getl hl) hr hq hk (readLine_driven hlvl) rfl, finish_responds rfl rfl, boolWord_eq]
    simp
  · have hw : (Instr.getl line).wf = true := by simp [Instr.wf, hl]
    exact exec_raise hr hq (check_uninitialised hw rfl hi)

end Sys2Proof.Machine
end

section
/-! PROOFS. DELAY (40_port R91, R95). -/

namespace Sys2Proof

/-- Every word of opcode 4 is a DELAY, and its operand reads back (30_encoding R71, R73). -/
theorem decode_encode_delay (t : BitVec 12) : decode (encode (.delay t)) = .cmd (.delay t) := by
  have hop : opField (encode (.delay t)) = 0x4#4 := Laws.Opcode.delay t
  have ht : (encode (.delay t)).extractLsb' 0 12 = t := BitVec.extractLsb'_append_eq_right
  simp [decode, hop, ht]

end Sys2Proof

namespace Sys2Proof.Machine

/-- Settles O29: the check never refuses DELAY, in any mode of the block, and its one micro-step records the event. -/
theorem delayFollowsItsRule : Obligations.DelayFollowsItsRule := by
  -- the obligation writes out the word `encode (.delay t)`
  refine ⟨fun t => decode_encode_delay t, fun t s hr hq => ?_⟩
  rw [exec_single (m := delayFor (delayTime t)) rfl hr hq (check_delay t s) rfl rfl, finish_silent rfl]
  simp [delayTime]

end Sys2Proof.Machine
end

section
/-! PROOFS. The words of format N (30_encoding R71): an opcode of the format has one legal word. -/

namespace Sys2Proof

/-- The fields of format N (30_encoding R71) make up the word. -/
theorem eq_append_formatN (cw : Word) : cw = opField cw ++ cw.extractLsb' 0 12 := by
  rw [opField, BitVec.extractLsb'_append_extractLsb'_eq_extractLsb' (by rfl), BitVec.extractLsb'_eq_self]

/-- A word of a format N opcode with anything but zeros below it is illegal (R74 (b)). -/
theorem decode_illegal_of_formatN {op : BitVec 4} {cw : Word} (hN : op ∈ formatN) (hop : opField cw = op)
    (hcw : cw ≠ op ++ 0#12) : ∃ r, decode cw = .illegal r := by
  subst hop
  have hlow : cw.extractLsb' 0 12 ≠ 0#12 := fun h => hcw (by rw [← h]; exact eq_append_formatN cw)
  exact (decode_illegal_iff cw).2 (.inr (.inl ⟨hN, hlow⟩))

end Sys2Proof
end

section
/-! PROOFS. Commands of one body micro-step under any schedule (10_state R27): the waits before the fetch, the body and the
completion, between which the converter may move (20_memory R62). -/

namespace Sys2Proof.Machine

theorem awaitTurn_controller {ts rest : Schedule} (h : ts.next = (.controller, rest)) (s : State) :
    awaitTurn ts s = .go (s.setTurns rest) := by
  rw [awaitTurn_next, h]

theorem awaitTurn_converter {ts rest : Schedule} {v : Code} (h : ts.next = (.converter v, rest)) (s : State) :
    awaitTurn ts s = awaitTurn rest (converterStep v s) := by
  rw [awaitTurn_next, h]

theorem converterStep_busy {s : State} (h : s.adcState = .busy) (v : Code) :
    converterStep v s = (s.adcToDone v).record (.adcDone v) := by
  simp [converterStep, h]

/-- A command whose body is one micro-step, the controller's turns being in the states `a`, `b` and `c`. -/
theorem exec_single_of_awaits {i : Instr} {m : MicroStep} {s a b u c : State} (hb : bodyOf i = [m])
    (hr : s.ready = true) (hfetch : awaitTurn s.turns s = .go a) (hk : check i a = none)
    (hbody : awaitTurn a.turns (begin i a) = .go b) (hm : m b = .moved u)
    (hdone : awaitTurn u.turns u.nextMicro = .go c) : exec i s = .next (finish i c) := by
  have hi : i ≠ .run := fun h => by simpa [h, bodyOf, stepBody] using congrArg List.length hb
  obtain ⟨hf, hc⟩ := State.ready_iff.1 hr
  simp [exec_eq_runBody hi, hb, runBody, runCommand, hf, hc, hfetch, hk, runMicros, hbody, hm, afterBody, complete, hdone]

end Sys2Proof.Machine
end

section
/-! PROOFS. ADSTART, ADPOLL and ADREAD (41_sampler R115 to R117). -/

namespace Sys2Proof.Machine

/-! ### Their checks after INIT (60_exceptions R203) -/

theorem check_adstart {s : State} (hi : s.inited = true) :
    check .adstart s = if s.adcState = .busy then some .adcBusy else none := by
  simp [check, Instr.wf, startsConversion, hi]

theorem check_adpoll {s : State} (hi : s.inited = true) : check .adpoll s = none := by
  simp [check, Instr.wf, startsConversion, hi]

theorem check_adread {s : State} (hi : s.inited = true) :
    check .adread s = if s.adcState = .done then none else some .adcNotReady := by
  simp [check, Instr.wf, startsConversion, hi]

/-! ### Their micro-steps -/

/-- The word ADPOLL responds with in a state (R116). -/
theorem boolWord_conversionReady (s : State) :
    boolWord s.conversionReady = if s.adcState = .done then 0x0001#16 else 0x0000#16 := by
  simp [boolWord_eq, State.conversionReady]

/-- A response word zero-extends the result (20_memory R54). -/
theorem codeWord_eq (v : Code) : codeWord v = BitVec.ofNat 16 v.toNat := (BitVec.ofNat_toNat 16 v).symm

/-- ADREAD's micro-step with a result to take (R113, R117). -/
theorem takeAndRespond_of_result {s : State} {v : Code} (h : s.adcRes = some v) :
    takeAndRespond s = .moved (((s.setRaw v).record (.adcRead v)).respondLater (codeWord v)) := by
  simp [takeAndRespond, adcTake, h]

/-- ADPOLL responds with the condition of the state `b` its body micro-step finds, whatever the converter does before it
and after it (R116, 20_memory R62). -/
theorem exec_adpoll_of_awaits {s a b c : State} (hr : s.ready = true) (hi : s.inited = true)
    (hfetch : awaitTurn s.turns s = .go a) (hbody : awaitTurn a.turns (begin .adpoll a) = .go b)
    (hdone : awaitTurn b.turns (b.respondLater (boolWord b.conversionReady)).nextMicro = .go c) :
    exec .adpoll s = .next { c with
      responses := s.responses ++ [(s.cpc, if b.adcState = .done then 0x0001#16 else 0x0000#16)],
      cpc := s.cpc + 1, cur := none, ms := 0, pending := none } := by
  have ma := awaitTurn_go hfetch
  have mb := awaitTurn_go hbody
  have mc := awaitTurn_go hdone
  have hk : check .adpoll a = none := check_adpoll (ma.inited.trans hi)
  have hcpc : c.cpc = s.cpc := by simp [mc.cpc, mb.cpc, ma.cpc]
  have hresponses : c.responses = s.responses := by simp [mc.responses, mb.responses, ma.responses]
  rw [exec_single_of_awaits (m := pollReady) rfl hr hfetch hk hbody rfl hdone, finish_responds rfl mc.pending, hcpc,
    hresponses, boolWord_conversionReady]

/-- Settles O30: ADSTART's one legal word; its one micro-step from IDLE or DONE; and the faults of its check, NotInitialised
before AdcBusy. -/
theorem adstartFollowsItsRule : Obligations.AdstartFollowsItsRule := by
  refine ⟨rfl, fun cw hop hcw => decode_illegal_of_formatN (by decide) hop hcw, fun s hr hq hi hb => ?_,
    fun s hr hq h => ?_⟩
  · have hk : check .adstart s = none := by simp [check_adstart hi, hb]
    rw [exec_single (m := adcStart) rfl hr hq hk rfl rfl, finish_silent rfl]
    simp
  · split_ifs with hi
    · have hk : check .adstart s = some .adcBusy := by simpa [check_adstart hi, hi] using h
      exact exec_raise hr hq hk
    · exact exec_raise hr hq (check_uninitialised rfl rfl (Bool.eq_false_of_not_eq_true hi))

/-- Settles O31: the response is the condition at the body micro-step, so a completion the schedule places before that
micro-step is in it and one placed after it is not. -/
theorem adpollFollowsItsRule : Obligations.AdpollFollowsItsRule := by
  refine ⟨rfl, fun cw hop hcw => decode_illegal_of_formatN (by decide) hop hcw, fun s hr hq hi => ?_,
    fun s v rest hr hi hb => ⟨fun h => ?_, fun h => ?_⟩, fun s hr hq hi => ?_⟩
  · have hpoll : pollReady ((begin .adpoll s).setTurns (s.turns.drop 2))
        = .moved (((begin .adpoll s).setTurns (s.turns.drop 2)).respondLater (boolWord s.conversionReady)) := rfl
    rw [exec_single rfl hr hq (check_adpoll hi) hpoll rfl, finish_responds rfl rfl, boolWord_conversionReady]
    simp
  · simp only [Schedule.begins_cons, Schedule.begins_nil] at h
    obtain ⟨ts1, h1, ts2, h2, ts3, h3, ts4, h4, rfl⟩ := h
    refine ⟨_, exec_adpoll_of_awaits hr hi (awaitTurn_controller h1 s)
      ((awaitTurn_converter h2 _).trans (awaitTurn_controller h3 _)) (awaitTurn_controller h4 _), ?_⟩
    simp [converterStep_busy, hb]
  · simp only [Schedule.begins_cons, Schedule.begins_nil] at h
    obtain ⟨ts1, h1, ts2, h2, ts3, h3, ts4, h4, rfl⟩ := h
    refine ⟨_, exec_adpoll_of_awaits hr hi (awaitTurn_controller h1 s) (awaitTurn_controller h2 _)
      ((awaitTurn_converter h3 _).trans (awaitTurn_controller h4 _)), ?_⟩
    simp [converterStep_busy, hb]
  · exact exec_raise hr hq (check_uninitialised rfl rfl hi)

/-- Settles O32: ADREAD's one legal word; its one micro-step takes the result and leaves the converter alone; and the faults
of its check, NotInitialised before AdcNotReady. -/
theorem adreadTakesTheResult : Obligations.AdreadTakesTheResult := by
  refine ⟨rfl, fun cw hop hcw => decode_illegal_of_formatN (by decide) hop hcw, fun s v hr hq hi hd hv => ?_,
    fun s hr hq h => ?_⟩
  · have hk : check .adread s = none := by simp [check_adread hi, hd]
    rw [exec_single rfl hr hq hk (takeAndRespond_of_result hv) rfl, finish_responds rfl rfl, codeWord_eq]
    simp
  · split_ifs with hi
    · have hk : check .adread s = some .adcNotReady := by simpa [check_adread hi, hi] using h
      exact exec_raise hr hq hk
    · exact exec_raise hr hq (check_uninitialised rfl rfl (Bool.eq_false_of_not_eq_true hi))

end Sys2Proof.Machine
end

section
/-! PROOFS. LDRAW (42_mapper R131): the words of opcode 9, and the load of RAW. -/

namespace Sys2Proof

/-- Fields side by side are the upper one, with zeros below it, or'd with the lower one. -/
theorem append_eq_or_zeroExtend {w v : Nat} (hi : BitVec w) (lo : BitVec v) :
    hi ++ lo = hi ++ 0#v ||| lo.zeroExtend (w + v) := by
  have hlo : lo.zeroExtend (w + v) = 0#w ++ lo := by
    simp [BitVec.setWidth_eq_append (Nat.le_add_left v w)]
  simp [hlo, BitVec.or_append]

/-- The word of LDRAW (R131). -/
theorem encode_ldraw (n : Code) : encode (.ldraw n) = 0x9000#16 ||| n.zeroExtend 16 :=
  append_eq_or_zeroExtend (0x9#4 ++ 0#2) n

/-- LDRAW's word decodes to LDRAW, and its operand reads back (30_encoding R71, R73). -/
theorem decode_encode_ldraw (n : Code) : decode (encode (.ldraw n)) = .cmd (.ldraw n) := by
  have hop : opField (encode (.ldraw n)) = 0x9#4 := Laws.Opcode.ldraw n
  have hzero : (encode (.ldraw n)).extractLsb' 10 2 = 0#2 :=
    (BitVec.extractLsb'_append_eq_of_le (by decide)).trans BitVec.extractLsb'_append_eq_right
  have hn : (encode (.ldraw n)).extractLsb' 0 10 = n := BitVec.extractLsb'_append_eq_right
  simp [decode, decodeLdraw, hop, hzero, hn]

end Sys2Proof

namespace Sys2Proof.Machine

theorem check_ldraw (n : Code) (s : State) : check (.ldraw n) s = none := by
  simp [check, Instr.wf, needsInit, startsConversion]

/-- Settles O37: LDRAW's word and the words that format R refuses, and its one micro-step, which the check never
refuses, in any mode of the block. -/
theorem ldrawFollowsItsRule : Obligations.LdrawFollowsItsRule := by
  refine ⟨fun n => ?_, fun cw hop hzero => ?_, fun n s hr hq => ?_⟩
  · rw [← encode_ldraw, decode_encode_ldraw]
  · exact (decode_illegal_iff cw).2 (.inr (.inr (.inr (.inl ⟨hop, hzero⟩))))
  · rw [exec_single (m := loadRaw n) rfl hr hq (check_ldraw n s) rfl rfl, finish_silent rfl]
    simp

end Sys2Proof.Machine
end

section
/-! PROOFS. The quantizer (42_mapper R130, R134) and MAP (R132). -/

namespace Sys2Proof.Machine

/-! ### The quantizer -/

/-- No power needs clamping (R134 (b)). -/
theorem quantPower_le (v : Code) : quantPower v ≤ Config.powerMax := by
  have hv := v.isLt
  simp only [quantPower, Config.divisor, Config.powerMax]
  omega

/-- Neither cutting to 8 bits nor forcing bit 0 changes the pattern: one that is not zero is odd already (R130, R134). -/
theorem quantPattern_eq (p : Nat) : quantPattern p = BitVec.ofNat 8 (2 ^ p - 1) := by
  have hcut : BitVec.ofNat 8 ((2 ^ p - 1) % 256) = BitVec.ofNat 8 (2 ^ p - 1) := by
    apply BitVec.eq_of_toNat_eq
    simp
  have hforce (k : Nat) : BitVec.ofNat 8 (2 ^ (k + 1) - 1) ||| 0x01#8 = BitVec.ofNat 8 (2 ^ (k + 1) - 1) := by
    ext i hi
    cases i with
    | zero => simp [BitVec.getElem_eq_testBit_toNat]
    | succ i => simp
  rw [quantPattern, hcut]
  cases p with
  | zero => rfl
  | succ k => simp [hforce k]

/-- Quant in R130's terms. -/
theorem quant_eq (v : Code) :
    quant v = (BitVec.ofNat 4 (v.toNat / 127), BitVec.ofNat 8 (2 ^ (v.toNat / 127) - 1)) := by
  rw [quant, quantPattern_eq]
  rfl

/-- MAP's response word as a number: POWER above PATTERN (R132). -/
theorem mapWord_eq (p : BitVec 4) (pat : Byte) : mapWord p pat = BitVec.ofNat 16 (p.toNat * 256 + pat.toNat) := by
  rw [mapWord, BitVec.zeroExtend_eq_setWidth, ← BitVec.ofNat_toNat, BitVec.toNat_append,
    ← Nat.shiftLeft_add_eq_or_of_lt pat.isLt, Nat.shiftLeft_eq]

/-- The two results of Quant fit their fields of the response word (R134 (b), (c)). -/
theorem mapWord_quant (v : Code) :
    mapWord (quant v).1 (quant v).2 = BitVec.ofNat 16 (v.toNat / 127 * 256 + (2 ^ (v.toNat / 127) - 1)) := by
  have hp : v.toNat / 127 ≤ 8 := quantPower_le v
  have hpat : 2 ^ (v.toNat / 127) ≤ 2 ^ 8 := Nat.pow_le_pow_right (by decide) hp
  rw [mapWord_eq, quant_eq, BitVec.toNat_ofNat, BitVec.toNat_ofNat, Nat.mod_eq_of_lt (by omega),
    Nat.mod_eq_of_lt (by omega)]

/-! ### MAP -/

theorem check_map (s : State) : check .map s = if s.raw = none then some .unwritten else none := by
  simp [check, Instr.wf, needsInit, startsConversion]

/-- MAP's micro-step with a reading to map (R132). -/
theorem mapAndRespond_of_raw {s : State} {v : Code} (h : s.raw = some v) :
    mapAndRespond s = .moved ((s.setMapped v).respondLater (mapWord (quant v).1 (quant v).2)) := by
  simp [mapAndRespond, h]

/-- Settles O41: MAP's one legal word; its one micro-step writes the results of Quant and responds with both, INIT or not;
and its check raises Unwritten where there is no reading. -/
theorem mapFollowsItsRule : Obligations.MapFollowsItsRule := by
  refine ⟨rfl, fun cw hop hcw => decode_illegal_of_formatN (by decide) hop hcw, fun s v hr hq hv => ?_,
    fun s hr hq hv => ?_⟩
  · have hk : check .map s = none := by simp [check_map, hv]
    rw [exec_single rfl hr hq hk (mapAndRespond_of_raw hv) rfl, finish_responds rfl rfl, mapWord_quant]
    simp [State.setMapped, quant_eq]
  · have hk : check .map s = some .unwritten := by simp [check_map, hv]
    exact exec_raise hr hq hk

end Sys2Proof.Machine
end

section
/-! PROOFS. LDPAT (43_output_driver R157): the words of opcode 0xB, and the load of PATTERN. -/

namespace Sys2Proof

/-- The word of LDPAT (R157). -/
theorem encode_ldpat (b : Byte) : encode (.ldpat b) = 0xB000#16 ||| b.zeroExtend 16 :=
  append_eq_or_zeroExtend (0xB#4 ++ 0#4) b

/-- LDPAT's word decodes to LDPAT, and its operand reads back (30_encoding R71, R73). -/
theorem decode_encode_ldpat (b : Byte) : decode (encode (.ldpat b)) = .cmd (.ldpat b) := by
  have hop : opField (encode (.ldpat b)) = 0xB#4 := Laws.Opcode.ldpat b
  have hzero : (encode (.ldpat b)).extractLsb' 8 4 = 0#4 :=
    (BitVec.extractLsb'_append_eq_of_le (by decide)).trans BitVec.extractLsb'_append_eq_right
  have hb : (encode (.ldpat b)).extractLsb' 0 8 = b := BitVec.extractLsb'_append_eq_right
  simp [decode, decodeLdpat, hop, hzero, hb]

/-- A word of LDPAT's opcode is illegal exactly where its must-be-zero field is not zero (30_encoding R74 (b)). -/
theorem decode_illegal_iff_of_ldpat {cw : Word} (hop : opField cw = 0xB#4) :
    (∃ r, decode cw = .illegal r) ↔ cw.extractLsb' 8 4 ≠ 0#4 := by
  have hd : decode cw = decodeLdpat cw := by simp [decode, hop]
  rw [hd, decodeLdpat_illegal_iff]

end Sys2Proof

namespace Sys2Proof.Machine

/-- LDPAT needs no INIT and no written field: its check lets it through in every state (60_exceptions R203). -/
theorem check_ldpat (b : Byte) (s : State) : check (.ldpat b) s = none := by
  simp [check, Instr.wf, needsInit, startsConversion]

/-- Settles O42: LDPAT's word and the words that its decoder refuses, and its one micro-step, which the check never
refuses and which writes PATTERN only. -/
theorem ldpatFollowsItsRule : Obligations.LdpatFollowsItsRule := by
  refine ⟨fun b => ?_, fun cw hop hzero => (decode_illegal_iff_of_ldpat hop).2 hzero, fun b s hr hq => ?_⟩
  · rw [← encode_ldpat, decode_encode_ldpat]
  · rw [exec_single (m := loadPattern b) rfl hr hq (check_ldpat b s) rfl rfl, finish_silent rfl]
    simp

end Sys2Proof.Machine
end

section
/-! PROOFS. The check's order (60_exceptions R203): which of its conditions each command can meet, the fault of the first
that holds, and no fault where none does. -/

namespace Sys2Proof.Machine

/-! ### The commands each condition names -/

theorem needsInit_iff {i : Instr} :
    needsInit i = true ↔ (∃ l v, i = .setl l v) ∨ (∃ l, i = .getl l) ∨ i = .adstart ∨ i = .adpoll ∨ i = .adread
      ∨ i = .sample ∨ i = .shiftout ∨ i = .step ∨ i = .run := by
  cases i <;> simp [needsInit]

theorem startsConversion_iff {i : Instr} :
    startsConversion i = true ↔ i = .adstart ∨ i = .sample ∨ i = .step ∨ i = .run := by
  cases i <;> simp [startsConversion]

/-! ### The fault of the first condition that holds -/

/-- The check of a well-formed command, its conditions as propositions. -/
theorem check_of_wf {i : Instr} (hw : i.wf = true) (s : State) :
    check i s =
      if needsInit i = true ∧ s.inited = false then some .notInitialised
      else if i = .init ∧ s.inited = true then some .reinitialise
      else if startsConversion i = true ∧ s.adcState = .busy then some .adcBusy
      else if i = .adread ∧ s.adcState ≠ .done then some .adcNotReady
      else if i = .map ∧ s.raw = none then some .unwritten
      else if i = .shiftout ∧ s.pattern = none then some .unwritten
      else none := by
  simp [check, hw]

/-- A command that starts a conversion, and that INIT or the lack of it does not refuse, raises AdcBusy while one is in
flight. -/
theorem check_adcBusy {i : Instr} {s : State} (hw : i.wf = true) (hn : ¬ (needsInit i = true ∧ s.inited = false))
    (hs : startsConversion i = true) (hb : s.adcState = .busy) : check i s = some .adcBusy := by
  have hi : ¬ (i = .init ∧ s.inited = true) := fun ⟨h, _⟩ => by rw [h] at hs; cases hs
  rw [check_of_wf hw, if_neg hn, if_neg hi, if_pos ⟨hs, hb⟩]

theorem check_shiftout {s : State} (hi : s.inited = true) :
    check .shiftout s = if s.pattern = none then some .unwritten else none := by
  simp [check, Instr.wf, startsConversion, hi]

/-- A command that meets none of the conditions passes its check. -/
theorem check_eq_none {i : Instr} {s : State} (hw : i.wf = true) (hn : ¬ (needsInit i = true ∧ s.inited = false))
    (hi : ¬ (i = .init ∧ s.inited = true)) (hb : ¬ (startsConversion i = true ∧ s.adcState = .busy))
    (hd : ¬ (i = .adread ∧ s.adcState ≠ .done)) (hr : ¬ (i = .map ∧ s.raw = none))
    (hp : ¬ (i = .shiftout ∧ s.pattern = none)) : check i s = none := by
  rw [check_of_wf hw, if_neg hn, if_neg hi, if_neg hb, if_neg hd, if_neg hr, if_neg hp]

/-! ### No fault after the check -/

/-- No body micro-step and nothing that comes between two of them or after the last raises a fault. -/
theorem afterBody_unfaulted {i : Instr} {ms : List MicroStep} {a t : State} (hms : ∀ m ∈ ms, m ∈ bodyOf i)
    (ha : a.faultCode = 0#3) (h : afterBody (doneOf i) (runMicros ms a) = .next t) : t.faultCode = 0#3 := by
  have reset : ∀ {b c : State}, awaitTurn b.turns b = .aborted c → c.faultCode = 0#3 := fun hab => by
    obtain ⟨k, u, -, rfl, -⟩ := awaitTurn_aborted hab
    rw [resetStep_faultCode]; rfl
  rcases runMicros_indexed (P := fun _ b => b.faultCode = 0#3) (k := 0)
      (fun _ _ _ hgo hb => (awaitTurn_go hgo).faultCode.trans hb)
      (fun j m b u hj hb hu => (bodyOf_moved (hms m (List.mem_of_getElem? hj)) hu).faultCode.trans hb) ha with
    ⟨u, hrun, hu⟩ | ⟨j, b, u, -, -, hab, hrun⟩ | ⟨j, m, u, -, hu, -, hrun⟩ | ⟨j, m, u, r, -, -, -, hrun⟩ <;>
    rw [hrun] at h
  · simp only [afterBody, doneOf] at h
    split_ifs at h
    · cases h; exact hu
    · unfold complete at h
      split at h <;> rename_i hw <;> cases h
      · exact reset hw
      · rw [finish_faultCode, (awaitTurn_go hw).faultCode, hu]
  · cases h; exact reset hab
  · cases h; exact hu
  · cases h

/-- A command that its check lets through raises no fault, wherever its body gets to under any schedule. -/
theorem exec_unfaulted {i : Instr} {s t : State} (hr : s.ready = true) (hq : quiet 1 s.turns = true)
    (hk : check i s = none) (h : exec i s = .next t) : t.faultCode = 0#3 := by
  have hf : s.faultCode = 0#3 := by simpa [State.faulted] using (State.ready_iff.1 hr).1
  rw [exec_eq, runCommand_fetch hr hq ((check_turns i s _).trans hk)] at h
  exact afterBody_unfaulted (fun m hm => restOf_subset hm) (by simpa using hf) h

/-- Settles O12: each fault is the check's answer where its condition is the first that holds, raised as the whole effect
of the fetch; where none holds the check answers none, and nothing after it raises a fault. -/
theorem checkRaisesTheFirstFault : Obligations.CheckRaisesTheFirstFault := by
  intro i s hr hq raisedWith raised needs starts
  have hneeds : needs = (needsInit i = true) := propext needsInit_iff.symm
  have hstarts : starts = (startsConversion i = true) := propext startsConversion_iff.symm
  have hinited : ¬ (needs ∧ s.inited = false) → needsInit i = true → s.inited = true := fun hn h => by
    simpa [hneeds, h] using hn
  refine ⟨fun cw r hp hd => ?_, fun hw => ⟨fun ⟨hn, hi⟩ => ?_, fun ⟨h, hi⟩ => ?_, fun hn => ⟨fun ⟨hs, hb⟩ => ?_,
    fun ⟨h, hd⟩ => ?_, fun ⟨h, hraw⟩ => ?_, fun ⟨h, hpat⟩ => ?_⟩, fun hn hi hb hd hraw hpat t ht => ?_⟩⟩
  · rw [step_eq_fetchIllegal hr hp hd, fetchIllegal_quiet cw hq]
    rfl
  · exact exec_raise hr hq (check_uninitialised hw (hneeds ▸ hn) hi)
  · subst h
    exact exec_raise hr hq ((check_init s).trans (if_pos hi))
  · exact exec_raise hr hq (check_adcBusy hw (hneeds ▸ hn) (hstarts ▸ hs) hb)
  · subst h
    exact exec_raise hr hq ((check_adread (hinited hn rfl)).trans (if_neg hd))
  · subst h
    exact exec_raise hr hq ((check_map s).trans (if_pos hraw))
  · subst h
    exact exec_raise hr hq ((check_shiftout (hinited hn rfl)).trans (if_pos hpat))
  · exact exec_unfaulted hr hq (check_eq_none hw (hneeds ▸ hn) hi (hstarts ▸ hb) hd hraw hpat) ht

end Sys2Proof.Machine
end

section
/-! PROOFS. Decoding and encoding undo each other (30_encoding R71 to R75). -/

namespace Sys2Proof

/-! ### A word from a command -/

/-- A word of format L with a line id and a level decodes to its SETL (R71, R72). -/
theorem decode_encode_setl {line : BitVec 2} (v : Bool) (hl : line ≠ 3#2) :
    decode (encode (.setl line v)) = .cmd (.setl line v) := by
  revert line v; decide

theorem decode_encode_getl {line : BitVec 2} (hl : line ≠ 3#2) :
    decode (encode (.getl line)) = .cmd (.getl line) := by
  revert line; decide

/-- Settles O2: the words with an operand read it back field by field; the commands without one have one fixed word each. -/
theorem decodeOfEncode : Obligations.DecodeOfEncode := by
  intro i hw
  cases i with
  | setl line v => exact decode_encode_setl v (by simpa [Instr.wf] using hw)
  | getl line => exact decode_encode_getl (by simpa [Instr.wf] using hw)
  | delay t => exact decode_encode_delay t
  | ldraw n => exact decode_encode_ldraw n
  | ldpat b => exact decode_encode_ldpat b
  | init | adstart | adpoll | adread | sample | map | shiftout | step | run => rfl

/-! ### A command from a word -/

/-- The fields of format R (30_encoding R71) make up the word. -/
theorem eq_append_formatR (cw : Word) : cw = opField cw ++ cw.extractLsb' 10 2 ++ cw.extractLsb' 0 10 := by
  rw [opField, BitVec.extractLsb'_append_extractLsb'_eq_extractLsb' (by rfl),
    BitVec.extractLsb'_append_extractLsb'_eq_extractLsb' (by rfl), BitVec.extractLsb'_eq_self]

/-- The fields of format B (30_encoding R71) make up the word. -/
theorem eq_append_formatB (cw : Word) : cw = opField cw ++ cw.extractLsb' 8 4 ++ cw.extractLsb' 0 8 := by
  rw [opField, BitVec.extractLsb'_append_extractLsb'_eq_extractLsb' (by rfl),
    BitVec.extractLsb'_append_extractLsb'_eq_extractLsb' (by rfl), BitVec.extractLsb'_eq_self]

/-- A word that format N's decoder takes is its opcode above zeros. -/
theorem eq_of_decodeN {i j : Instr} {cw : Word} (h : decodeN i cw = .cmd j) : i = j ∧ cw = opField cw ++ 0#12 := by
  unfold decodeN at h
  split_ifs at h with hz
  cases h
  exact ⟨rfl, by rw [← hz]; exact eq_append_formatN cw⟩

theorem encode_of_decodeSetl {j : Instr} {cw : Word} (h : decodeSetl cw = .cmd j) (hop : opField cw = 0x2#4) :
    j.wf = true ∧ encode j = cw := by
  unfold decodeSetl at h
  split_ifs at h with hz hl
  cases h
  have hcw := eq_append_formatL cw
  rw [hop, not_not.1 hz] at hcw
  exact ⟨by simpa [Instr.wf] using hl, hcw.symm⟩

theorem encode_of_decodeGetl {j : Instr} {cw : Word} (h : decodeGetl cw = .cmd j) (hop : opField cw = 0x3#4) :
    j.wf = true ∧ encode j = cw := by
  unfold decodeGetl at h
  split_ifs at h with hz hl hv
  cases h
  have hcw := eq_append_formatL cw
  rw [hop, not_not.1 hz, Bool.eq_false_of_not_eq_true hv] at hcw
  exact ⟨by simpa [Instr.wf] using hl, hcw.symm⟩

theorem encode_of_decodeLdraw {j : Instr} {cw : Word} (h : decodeLdraw cw = .cmd j) (hop : opField cw = 0x9#4) :
    j.wf = true ∧ encode j = cw := by
  unfold decodeLdraw at h
  split_ifs at h with hz
  cases h
  have hcw := eq_append_formatR cw
  rw [hop, hz] at hcw
  exact ⟨rfl, hcw.symm⟩

theorem encode_of_decodeLdpat {j : Instr} {cw : Word} (h : decodeLdpat cw = .cmd j) (hop : opField cw = 0xB#4) :
    j.wf = true ∧ encode j = cw := by
  unfold decodeLdpat at h
  split_ifs at h with hz
  cases h
  have hcw := eq_append_formatB cw
  rw [hop, hz] at hcw
  exact ⟨rfl, hcw.symm⟩

/-- Settles O3: every legal word is its fields side by side, the must-be-zero ones zero, which is the word of the command
that its decoder reads off them. -/
theorem encodeOfDecode : Obligations.EncodeOfDecode := by
  intro cw i h
  have formatN : ∀ {j : Instr} {op : BitVec 4}, opField cw = op → decodeN j cw = .cmd i → j.wf = true →
      encode j = op ++ 0#12 → i.wf = true ∧ encode i = cw := by
    intro j op hop hd hw he
    obtain ⟨rfl, hcw⟩ := eq_of_decodeN hd
    exact ⟨hw, by rw [he, ← hop]; exact hcw.symm⟩
  unfold decode at h
  split at h
  case h_1 hop => exact formatN hop h rfl rfl
  case h_2 hop => exact encode_of_decodeSetl h hop
  case h_3 hop => exact encode_of_decodeGetl h hop
  case h_4 hop => cases h; exact ⟨rfl, by rw [encode, ← hop]; exact (eq_append_formatN cw).symm⟩
  case h_9 hop => exact encode_of_decodeLdraw h hop
  case h_11 hop => exact encode_of_decodeLdpat h hop
  case h_15 => cases h
  all_goals exact formatN ‹_› h rfl rfl

/-! ### The byte transport -/

/-- A word comes back from its two bytes (20_memory R53). -/
theorem high_append_low (w : Word) : w.extractLsb' 8 8 ++ w.extractLsb' 0 8 = w := by
  rw [BitVec.extractLsb'_append_extractLsb'_eq_extractLsb' (by rfl), BitVec.extractLsb'_eq_self]

/-- The words of a stream of bytes are those its whole words give, and what the bytes left over give (R53, R55). -/
theorem wordsOfBytes_flatMap_append (ws : List Word) (left : List Byte) :
    wordsOfBytes (ws.flatMap bytesOfWord ++ left) = ws ++ wordsOfBytes left := by
  induction ws with
  | nil => rfl
  | cons w ws ih => simp [bytesOfWord, wordsOfBytes, high_append_low, ih]

/-- Two bytes side by side as a number. -/
theorem append_eq_ofNat (hi lo : Byte) : hi ++ lo = BitVec.ofNat 16 (hi.toNat * 256 + lo.toNat) := by
  have hhi := hi.isLt
  have hlo := lo.isLt
  apply BitVec.eq_of_toNat_eq
  rw [BitVec.toNat_append, ← Nat.shiftLeft_add_eq_or_of_lt hlo, Nat.shiftLeft_eq, BitVec.toNat_ofNat,
    Nat.mod_eq_of_lt (by omega)]

/-- Settles O5: by induction on the words carried; a byte left over gives no word. -/
theorem byteTransportGivesWholeWords : Obligations.ByteTransportGivesWholeWords := by
  refine ⟨fun ws b => ⟨?_, ?_⟩, fun hi lo rest => ?_, fun b => rfl, rfl⟩
  · simpa [wordsOfBytes] using wordsOfBytes_flatMap_append ws []
  · simpa [wordsOfBytes] using wordsOfBytes_flatMap_append ws [b]
  · rw [← append_eq_ofNat]; rfl

end Sys2Proof
end

section
/-! PROOFS. The assembler (30_encoding R76, R77): what it produces, and what it refuses. -/

namespace Sys2Proof.Machine

/-! ### Its commands are well-formed -/

/-- Every command of an answer of the assembler is well-formed; a refusal holds none. -/
def Assembled.Wf (a : Assembled) : Prop := ∀ is, a = .code is → ∀ i ∈ is, i.wf = true

theorem Assembled.wf_refused (e : AsmError) : (Assembled.refused e).Wf := fun _ h => by cases h

theorem Assembled.wf_code {is : List Instr} (h : ∀ i ∈ is, i.wf = true) : (Assembled.code is).Wf := fun _ hc => by
  cases hc; exact h

theorem withLine_wf (cs : List Char) {k : Line → Assembled} (h : ∀ l, (k l).Wf) : (withLine cs k).Wf := by
  unfold withLine
  split
  · exact h _
  · exact Assembled.wf_refused _

theorem withNumber_wf (bound : Nat) (cs : List Char) {k : Nat → Assembled} (h : ∀ n, (k n).Wf) :
    (withNumber bound cs k).Wf := by
  unfold withNumber
  split
  · split_ifs
    · exact h _
    · exact Assembled.wf_refused _
  · exact Assembled.wf_refused _

theorem withLevel_wf (cs : List Char) {k : Bool → Assembled} (h : ∀ v, (k v).Wf) : (withLevel cs k).Wf :=
  withNumber_wf 2 cs fun _ => h _

/-- The id of a line is not the reserved one (R72). -/
theorem wf_setl_lineId (l : Line) (v : Bool) : (Instr.setl (lineId l) v).wf = true := by cases l <;> rfl

theorem wf_getl_lineId (l : Line) : (Instr.getl (lineId l)).wf = true := by cases l <;> rfl

theorem wf_delay (t : BitVec 12) : (Instr.delay t).wf = true := rfl

theorem pseudoShiftbit_wf (b : Bool) : ∀ i ∈ pseudoShiftbit b, i.wf = true := by
  simp [pseudoShiftbit, wf_setl_lineId, wf_delay]

theorem pseudoLatchpulse_wf : ∀ i ∈ pseudoLatchpulse, i.wf = true := by decide

theorem pseudoPulse_wf (l : Line) (t : BitVec 12) : ∀ i ∈ pseudoPulse l t, i.wf = true := by
  simp [pseudoPulse, wf_setl_lineId, wf_delay]

theorem pseudoShiftouti_wf (x : Byte) : ∀ i ∈ pseudoShiftouti x, i.wf = true := by
  intro i hi
  rw [pseudoShiftouti, List.mem_append, List.mem_flatMap] at hi
  rcases hi with ⟨k, -, hi⟩ | hi
  · exact pseudoShiftbit_wf _ i hi
  · exact pseudoLatchpulse_wf i hi

theorem assembleOperands_wf (m : Mnemonic) (ops : List (List Char)) : (assembleOperands m ops).Wf := by
  have single : ∀ {i : Instr}, i.wf = true → (Assembled.code [i]).Wf := fun h =>
    Assembled.wf_code (by simpa using h)
  unfold assembleOperands
  split
  case h_2 => exact withLine_wf _ fun l => withLevel_wf _ fun v => single (wf_setl_lineId l v)
  case h_3 => exact withLine_wf _ fun l => single (wf_getl_lineId l)
  case h_4 => exact withNumber_wf _ _ fun _ => single rfl
  case h_9 => exact withNumber_wf _ _ fun _ => single rfl
  case h_11 => exact withNumber_wf _ _ fun _ => single rfl
  case h_16 => exact withLine_wf _ fun l => withNumber_wf _ _ fun t => Assembled.wf_code (pseudoPulse_wf l _)
  case h_17 => exact withLevel_wf _ fun b => Assembled.wf_code (pseudoShiftbit_wf b)
  case h_18 => exact Assembled.wf_code pseudoLatchpulse_wf
  case h_19 => exact withNumber_wf _ _ fun n => Assembled.wf_code (pseudoShiftouti_wf _)
  case h_20 => exact Assembled.wf_refused _
  all_goals exact single rfl

theorem assembleLine_wf (text : List Char) : (assembleLine text).Wf := by
  unfold assembleLine
  split
  · exact Assembled.wf_code (by simp)
  · split
    · exact Assembled.wf_refused _
    · exact assembleOperands_wf _ _

theorem assemble_wf (lines : List (List Char)) : (assemble lines).Wf := by
  induction lines with
  | nil => exact Assembled.wf_code (by simp)
  | cons line rest ih =>
    have hl := assembleLine_wf line
    unfold assemble
    split
    · exact Assembled.wf_refused _
    · rename_i is his
      split
      · exact Assembled.wf_refused _
      · rename_i js hjs
        refine Assembled.wf_code fun i hi => ?_
        rcases List.mem_append.1 hi with hi | hi
        · exact hl is his i hi
        · exact ih js hjs i hi

/-! ### Its numbers are not cut -/

/-- A number is taken as it is where it fits its field, and refused where it does not. -/
theorem withNumber_of_read {text : List Char} {n : Nat} (h : readNumber text = some n) (max : Nat)
    (is : Nat → List Instr) :
    withNumber (max + 1) text (fun m => .code (is m)) = if n ≤ max then .code (is n) else .refused .doesNotFit := by
  simp only [withNumber, h, Nat.lt_succ_iff]

theorem withLine_of_read {name : List Char} {l : Line} (h : readLineName name = some l) (k : Line → Assembled) :
    withLine name k = k l := by
  simp only [withLine, h]

/-- Settles O6: every way of answering gives well-formed commands; a number goes through `withNumber`, whose bound is that
of the field. -/
theorem assemblerProducesLegalCommands : Obligations.AssemblerProducesLegalCommands := by
  refine ⟨fun lines is h => assemble_wf lines is h, fun text n h => ?_⟩
  refine ⟨withNumber_of_read h 4095 _, withNumber_of_read h 1023 _, withNumber_of_read h 255 _,
    withNumber_of_read h 255 _, withNumber_of_read h 1 _, fun name l hl => ⟨?_, ?_⟩⟩
  · exact (withLine_of_read hl _).trans (withNumber_of_read h 1 _)
  · exact (withLine_of_read hl _).trans (withNumber_of_read h 4095 _)

end Sys2Proof.Machine
end

section
/-! PROOFS. The quantizer's table and its thermometer code (42_mapper R130, R133, R135). -/

namespace Sys2Proof.Machine

theorem quant_power_toNat (v : Code) : (quant v).1.toNat = v.toNat / 127 := by
  have hp : v.toNat / 127 ≤ 8 := quantPower_le v
  rw [quant_eq, BitVec.toNat_ofNat, Nat.mod_eq_of_lt (by omega)]

theorem quant_pattern_toNat (v : Code) : (quant v).2.toNat = 2 ^ (v.toNat / 127) - 1 := by
  have hp : v.toNat / 127 ≤ 8 := quantPower_le v
  have hpat : 2 ^ (v.toNat / 127) ≤ 2 ^ 8 := Nat.pow_le_pow_right (by decide) hp
  rw [quant_eq, BitVec.toNat_ofNat, Nat.mod_eq_of_lt (by omega)]

/-- The pattern is a thermometer code (R135). -/
theorem quant_pattern_bit (v : Code) (k : Nat) : (quant v).2.getLsbD k = decide (k < (quant v).1.toNat) := by
  rw [← BitVec.testBit_toNat, quant_pattern_toNat, quant_power_toNat, Nat.testBit_two_pow_sub_one]

/-- A pattern that is not zero is one of a power that is not zero, and so has bit 0. -/
theorem quant_pattern_bit_zero {v : Code} (h : (quant v).2 ≠ 0#8) : (quant v).2.getLsbD 0 = true := by
  rw [quant_pattern_bit, decide_eq_true_iff, Nat.pos_iff_ne_zero]
  intro hp
  refine h (BitVec.eq_of_getLsbD_eq fun k _ => ?_)
  simp [quant_pattern_bit, hp]

/-- Settles O1: the decoder evaluated at each word. -/
theorem decodeReadsTheSpecsWords : Obligations.DecodeReadsTheSpecsWords := by
  unfold Obligations.DecodeReadsTheSpecsWords; decide

/-- Settles O38: each row is one value of the quotient by 127. -/
theorem quantIsTheTable : Obligations.QuantIsTheTable := by
  intro v
  have hv := v.isLt
  rw [quant_eq]
  split_ifs with h1 h2 h3 h4 h5 h6 h7 h8
  · rw [show v.toNat / 127 = 0 by omega]; rfl
  · rw [show v.toNat / 127 = 1 by omega]; rfl
  · rw [show v.toNat / 127 = 2 by omega]; rfl
  · rw [show v.toNat / 127 = 3 by omega]; rfl
  · rw [show v.toNat / 127 = 4 by omega]; rfl
  · rw [show v.toNat / 127 = 5 by omega]; rfl
  · rw [show v.toNat / 127 = 6 by omega]; rfl
  · rw [show v.toNat / 127 = 7 by omega]; rfl
  · rw [show v.toNat / 127 = 8 by omega]; rfl

/-- Settles O39: the two results of Quant as numbers; bit 0 of the thermometer code. -/
theorem quantDividesBy127 : Obligations.QuantDividesBy127 := by
  intro v
  have hp : v.toNat / 127 ≤ 8 := quantPower_le v
  have hpat : 2 ^ (v.toNat / 127) ≤ 2 ^ 8 := Nat.pow_le_pow_right (by decide) hp
  refine ⟨quant_power_toNat v, by rwa [quant_power_toNat], ?_, fun h => ?_⟩
  · rw [quant_pattern_toNat, Nat.mod_eq_of_lt (by omega)]
  · refine BitVec.eq_of_getLsbD_eq fun k _ => ?_
    cases k with
    | zero => simp [quant_pattern_bit_zero h]
    | succ k => simp

/-- Settles O40: bit by bit, by the thermometer code and the monotone quotient. -/
theorem quantIsAMonotoneThermometer : Obligations.QuantIsAMonotoneThermometer := by
  intro v w
  refine ⟨fun k _ => quant_pattern_bit v k, quant_pattern_bit_zero, fun h => ?_⟩
  have hle : (quant v).1.toNat ≤ (quant w).1.toNat := by
    rw [quant_power_toNat, quant_power_toNat]; exact Nat.div_le_div_right h
  refine ⟨hle, BitVec.eq_of_getLsbD_eq fun k hk => ?_⟩
  simp only [BitVec.getLsbD_and, BitVec.getLsbD_not, quant_pattern_bit, BitVec.getLsbD_zero, hk]
  simp only [decide_true, Bool.true_and, Bool.and_eq_false_iff, decide_eq_false_iff_not, Bool.not_eq_false',
    decide_eq_true_eq]
  omega

end Sys2Proof.Machine
end

section
/-! PROOFS. How a command ends that starts or goes on from a state of the invariant, and the invariant of the step
(10_state R20 to R36). -/

namespace Sys2Proof.Machine

/-! ### How a command ends -/

/-- The ways one call of a command ends from a state of the invariant: at a reset that the schedule holds; at its check;
RUN at the end of its iteration; any other command at its completion; SAMPLE, STEP and RUN at their hold. -/
inductive Ended (i : Instr) (s : State) : State → Prop
  | reset {k : ResetKind} (u : State) :
      (∀ p : Turn → Prop, p .controller → s.turns.all p → p (.reset k)) → Ended i s (resetStep k u)
  | raised {a : State} {f : FaultName} : s.cur = none → ConverterMoved s a → check i a = some f →
      Ended i s (raise f (encode i) a)
  | iterated {t : State} : i = .run → Underway i s (placeOf i s.ms) (bodyOf i).length t → Ended i s t
  | completed {u : State} : i ≠ .run → Underway i s (placeOf i s.ms) (bodyOf i).length u → Ended i s (finish i u)
  | held {t : State} : (i = .sample ∨ i = .step ∨ i = .run) → Underway i s (placeOf i s.ms) 1 t → t.adcState = .busy →
      Ended i s t

/-- A wait that a reset ends, in a command under way or at its fetch. -/
theorem Ended.of_aborted {i : Instr} {s u t : State} (hall : ∀ p : Turn → Prop, p .controller → s.turns.all p → u.turns.all p)
    (h : awaitTurn u.turns u = .aborted t) : Ended i s t := by
  obtain ⟨k, w, -, rfl, hk⟩ := awaitTurn_aborted h
  exact .reset w fun p hp hs => (hk p hp (hall p hp hs)).1

/-- From a state of the invariant a command that may be fetched or stands in progress goes on to one of its ends. -/
theorem exec_ends {i : Instr} {s : State} (v : Invariant s) (hf : s.faulted = false)
    (hcur : s.cur = none ∨ s.cur = some i) : ∃ t, exec i s = .next t ∧ Ended i s t := by
  rcases exec_cases v hf hcur with ⟨t, -, ha, h⟩ | ⟨t, f, hc, ha, hk, h⟩ | ⟨a, start, h, hl, hstart, ha, w⟩
  · exact ⟨t, h, .of_aborted (fun _ _ hs => hs) ha⟩
  · exact ⟨_, h, .raised hc (awaitTurn_go ha) hk⟩
  · have hms : a.ms = s.ms := Nat.add_right_cancel w.ms
    have hle : start ≤ (bodyOf i).length := by
      rcases ha with ⟨-, h0⟩ | ⟨hc, -⟩
      · omega
      · obtain ⟨-, hi, -, -, hin⟩ := v.running i hc
        obtain ⟨-, -, hi3, hp⟩ := inProgress_place hi hin
        rw [hms] at hstart
        have : start ≤ 1 := by rw [hstart, hp]; split_ifs <;> omega
        rcases hi3 with rfl | rfl | rfl <;> exact this.trans (by decide)
    have hlen : start + (restOf i a.ms).length = (bodyOf i).length := by rw [← hl, List.length_drop]; omega
    have hend := body_cases hl w
    rw [hlen] at hend
    rw [hms] at hstart
    subst hstart
    rcases hend with ⟨t, hr, wt⟩ | ⟨k, u, t, wu, hab, hr⟩ | ⟨t, wt, hi, hb, hr⟩ <;> rw [h, hr]
    · simp only [afterBody, doneOf]
      split_ifs with hi
      · exact ⟨t, rfl, .iterated hi wt⟩
      · unfold complete
        cases hab : awaitTurn t.turns t with
        | aborted u => exact ⟨u, rfl, .of_aborted wt.turns hab⟩
        | go u => exact ⟨_, rfl, .completed hi (wt.go hab)⟩
    · exact ⟨t, rfl, .of_aborted wu.turns hab⟩
    · exact ⟨t, rfl, .held hi wt hb⟩

/-! ### The invariant -/

/-- With no command in progress the invariant is the domains, the micro-step index 0 and no response waiting. -/
theorem Invariant.of_idle {s : State} (d : Domains s) (hc : s.cur = none) (hms : s.ms = 0) (hp : s.pending = none) :
    Invariant s :=
  ⟨d, fun _ => ⟨hms, hp⟩, fun i hi => by rw [hc] at hi; cases hi⟩

theorem Invariant.reset (k : ResetKind) (a : State) : Invariant (resetStep k a) :=
  .of_idle (Domains.reset k a) (by simp [State.reset]) (by simp [State.reset]) (by simp [State.reset])

theorem Invariant.raise {f : FaultName} {cw : Word} {a : State} (d : Domains a) : Invariant (raise f cw a) :=
  .of_idle d.raise rfl rfl rfl

/-- A completion of the converter between two commands keeps the invariant. -/
theorem Invariant.converter {s t : State} (v : Invariant s) (m : ConverterMoved s t) (hc : s.cur = none) :
    Invariant t := by
  obtain ⟨hms, hp⟩ := v.between hc
  exact .of_idle (v.toDomains.converter m) (m.cur.trans hc) (m.ms.trans hms) (m.pending.trans hp)

/-- A block in the faulted state has no command in progress. -/
theorem Invariant.cur_of_faulted {s : State} (v : Invariant s) (hf : s.faulted = true) : s.cur = none := by
  cases hc : s.cur with
  | none => rfl
  | some i =>
    have h0 := (v.running i hc).1
    simp [State.faulted, h0] at hf

theorem Invariant.idle {s : State} (v : Invariant s) (hc : s.cur = none) : Invariant (idle s) := by
  rcases idle_cases s with ⟨m, -⟩ | ⟨k, rest, -, hr⟩
  · exact v.converter m hc
  · rw [hr]; exact .reset k _

theorem Invariant.fetchIllegal {s : State} (v : Invariant s) (cw : Word) : Invariant (fetchIllegal cw s) := by
  unfold Machine.fetchIllegal
  split
  · rename_i t hab
    obtain ⟨k, u, -, rfl, -⟩ := awaitTurn_aborted hab
    exact .reset k u
  · rename_i t hgo
    exact .raise (v.toDomains.converter (awaitTurn_go hgo))

/-- What stands in progress after a call of a command meets the invariant, where it stands at its hold or between two
iterations. -/
theorem Underway.invariant {i : Instr} {s t : State} {start k : Nat} (w : Underway i s start k t)
    (hw : ∃ cw, s.prog[s.cpc]? = some cw ∧ decode cw = .cmd i) (hn : needsInit i = true) (hp : t.pending = none)
    (hin : inProgress i t) : Invariant t := by
  refine ⟨w.domains, fun h => (by rw [w.cur] at h; cases h), fun j hj => ?_⟩
  obtain rfl : i = j := by rw [w.cur] at hj; exact Option.some.inj hj
  exact ⟨w.unfaulted, w.needs.inited hn, hp, by rw [w.prog, w.cpc]; exact hw, hin⟩

theorem length_stepBody : stepBody.length = 47 := rfl

/-- Every end of a command meets the invariant. -/
theorem Ended.invariant {i : Instr} {s t : State} (v : Invariant s)
    (hw : ∃ cw, s.prog[s.cpc]? = some cw ∧ decode cw = .cmd i) (h : Ended i s t) : Invariant t := by
  cases h with
  | reset u _ => exact .reset _ u
  | raised _ m _ => exact .raise (v.toDomains.converter m)
  | iterated hi w =>
    subst hi
    have hms : t.ms % stepBody.length = 0 := by
      have := w.ms
      simp only [placeOf, if_true, bodyOf, length_stepBody] at this ⊢
      omega
    exact w.invariant hw rfl (w.pending (.inl rfl)) (.inr (.inr ⟨rfl, hms, w.needs.2.2.2.1 (by decide)⟩))
  | completed _ w =>
    obtain ⟨cw, hcw, -⟩ := hw
    have hlt := (List.getElem?_eq_some_iff.1 hcw).1
    exact .of_idle (w.domains.finish (by rwa [w.prog, w.cpc])) rfl rfl rfl
  | held hi w hb =>
    have hms := w.ms
    rcases hi with rfl | rfl | rfl
    · exact w.invariant hw rfl (w.pending (.inr ⟨rfl, by omega⟩))
        (.inl ⟨.inl rfl, by simp [placeOf] at hms; omega, hb⟩)
    · exact w.invariant hw rfl (w.pending (.inl rfl)) (.inl ⟨.inr rfl, by simp [placeOf] at hms; omega, hb⟩)
    · refine w.invariant hw rfl (w.pending (.inl rfl)) (.inr (.inl ⟨rfl, ?_, hb⟩))
      simp only [placeOf, if_true, length_stepBody] at hms ⊢
      omega

/-- From every state of the invariant a step answers a next state of the invariant. -/
theorem step_invariant {s : State} (v : Invariant s) : ∃ t, step s = .next t ∧ Invariant t := by
  rcases step_cases s with ⟨h, hc⟩ | ⟨hf, hc, cw, r, -, -, h⟩ | ⟨hf, i, h, hc⟩
  · exact ⟨_, h, v.idle (hc.elim v.cur_of_faulted And.left)⟩
  · exact ⟨_, h, v.fetchIllegal cw⟩
  · obtain ⟨hcur, hw⟩ : (s.cur = none ∨ s.cur = some i) ∧ ∃ cw, s.prog[s.cpc]? = some cw ∧ decode cw = .cmd i := by
      rcases hc with hc | ⟨hc, hw⟩
      · obtain ⟨-, -, -, hw, -⟩ := v.running i hc
        exact ⟨.inr hc, hw⟩
      · exact ⟨.inl hc, hw⟩
    obtain ⟨t, ht, hend⟩ := exec_ends v hf hcur
    exact ⟨t, h.trans ht, hend.invariant v hw⟩

/-- Settles O15: power-on's reset state is the model's State.reset. -/
theorem resetMeetsTheInvariant : Obligations.ResetMeetsTheInvariant := Invariant.reset .powerOn State.reset

/-- Settles O16: by the ends of a command, each of which meets the invariant. -/
theorem stepKeepsTheInvariant : Obligations.StepKeepsTheInvariant := by
  intro s t v h
  obtain ⟨u, hu, vu⟩ := step_invariant v
  rw [hu] at h
  cases h
  exact vu

/-- Settles O17: a step goes on to one of the ends of its command, and none of them is a stop. -/
theorem stepNeverStops : Obligations.StepNeverStops := fun _ v => (step_invariant v).imp fun _ h => h.1

/-! ### Commands that do not hold, and RUN -/

/-- A schedule with no reset ends no command by one. -/
theorem not_reset_of_noReset {ts : Schedule} {k : ResetKind} (hn : noReset ts)
    (h : ∀ p : Turn → Prop, p .controller → ts.all p → p (.reset k)) : False :=
  h _ (by simp) hn k rfl

theorem raise_faulted (f : FaultName) (cw : Word) (s : State) : (raise f cw s).faulted = true := by
  cases f <;> rfl

/-- Settles O21: of the ends of a command, a hold and an iteration are SAMPLE's, STEP's and RUN's alone. -/
theorem holdFreeCommandsCompleteOrFault : Obligations.HoldFreeCommandsCompleteOrFault := by
  intro i s v hr hn hsample hstep hrun
  obtain ⟨hf, hc⟩ := State.ready_iff.1 hr
  obtain ⟨t, ht, hend⟩ := exec_ends v hf (.inl hc)
  refine ⟨t, ht, ?_⟩
  cases hend with
  | reset u h => exact (not_reset_of_noReset hn h).elim
  | raised _ m _ => exact ⟨rfl, rfl, .inl ⟨raise_faulted _ _ _, m.cpc⟩⟩
  | iterated hi _ => exact absurd hi hrun
  | completed _ w => exact ⟨rfl, rfl, .inr ⟨by simp [State.faulted, w.unfaulted], by simp [w.cpc]⟩⟩
  | held hi _ _ => exact absurd hi (by simp [hsample, hstep, hrun])

/-- A RUN in progress, under a schedule with no reset, ends its step at the end of its iteration or at its hold. -/
theorem run_ends {s : State} (v : Invariant s) (hc : s.cur = some .run) (hn : noReset s.turns) :
    ∃ t, step s = .next t ∧
      (Underway .run s (placeOf .run s.ms) 47 t ∨
        (Underway .run s (placeOf .run s.ms) 1 t ∧ t.adcState = .busy)) := by
  have hf : s.faulted = false := by simp [State.faulted, (v.running _ hc).1]
  obtain ⟨t, ht, hend⟩ := exec_ends v hf (.inr hc)
  refine ⟨t, by simpa [step, hc] using ht, ?_⟩
  cases hend with
  | reset u h => exact (not_reset_of_noReset hn h).elim
  | raised h _ _ => rw [hc] at h; cases h
  | iterated _ w => exact .inl w
  | completed h _ => exact absurd rfl h
  | held _ w hb => exact .inr ⟨w, hb⟩

/-- Settles O57: at both ends of its step RUN is still under way. -/
theorem onlyResetLeavesRun : Obligations.OnlyResetLeavesRun := by
  intro s t v hc hn h
  obtain ⟨u, hu, hend⟩ := run_ends v hc hn
  rw [hu] at h
  cases h
  rcases hend with w | ⟨w, -⟩ <;> exact ⟨w.cur, w.cpc, w.responses, w.unfaulted⟩

end Sys2Proof.Machine
end

section
/-! PROOFS. The invariant of the micro-step machine (10_state R27, 00_scope R8), and the converter's transitions (R30). -/

namespace Sys2Proof.Machine

/-! ### The micro-step invariant -/

theorem Invariant.micro {s : State} (v : Invariant s) : MicroInvariant s := by
  refine ⟨v.toDomains, fun i hc => ?_⟩
  obtain ⟨hf, hi, -, hw, hin⟩ := v.running i hc
  exact ⟨hf, hw, (inProgress_place hi hin).1⟩

/-- With no command in progress the micro-step invariant is the domains. -/
theorem MicroInvariant.of_idle {s : State} (d : Domains s) (hc : s.cur = none) : MicroInvariant s :=
  ⟨d, fun i hi => by rw [hc] at hi; cases hi⟩

theorem MicroInvariant.setTurns {s : State} (v : MicroInvariant s) (ts : Schedule) : MicroInvariant (s.setTurns ts) := by
  refine ⟨v.toDomains.setTurns, fun i hc => ?_⟩
  obtain ⟨hf, hw, hn⟩ := v.within i hc
  exact ⟨hf, hw, hn.congr rfl rfl rfl rfl⟩

theorem MicroInvariant.converter {s t : State} (v : MicroInvariant s) (m : ConverterMoved s t) : MicroInvariant t := by
  refine ⟨v.toDomains.converter m, fun i hc => ?_⟩
  obtain ⟨hf, hw, hn⟩ := v.within i (m.cur.symm.trans hc)
  exact ⟨m.faultCode.trans hf, by rwa [m.prog, m.cpc], by rw [m.ms]; exact hn.converter m⟩

theorem microAt_eq_bodyOf (i : Instr) (ms : Nat) : microAt i ms = (bodyOf i)[placeOf i ms]? := by
  unfold microAt placeOf
  split_ifs with hi
  · subst hi; rfl
  · rfl

/-- What the next micro-step needs after the last one of RUN's iteration is what the first one needs (R181). -/
theorem Needs.next {i : Instr} {ms : Nat} {a : State} (h : Needs i (placeOf i ms + 1) a) :
    Needs i (placeOf i (ms + 1)) a := by
  by_cases hi : i = .run
  · subst hi
    simp only [placeOf, if_true, length_stepBody] at h ⊢
    by_cases hend : ms % 47 = 46
    · obtain ⟨hin, -, -, hdone, -, -⟩ := h
      rw [show (ms + 1) % 47 = 0 by omega]
      simp [Needs, hin, hdone (by omega)]
    · rwa [show (ms + 1) % 47 = ms % 47 + 1 by omega]
  · simpa [placeOf, hi] using h

/-- A micro-step of the command in progress goes on, in one of the ways of `Moved`, or completes, or holds. -/
theorem commandMicro_cases {i : Instr} {s : State} (v : MicroInvariant s) (hc : s.cur = some i) :
    (microAt i s.ms = none ∧ commandMicro i s = .next (finish i s)) ∨
    (∃ m u, microAt i s.ms = some m ∧ m s = .moved u ∧ commandMicro i s = .next u.nextMicro ∧ Moved i s u
      ∧ Needs i (placeOf i s.ms + 1) u.nextMicro) ∨
    commandMicro i s = .next s := by
  obtain ⟨-, -, hn⟩ := v.within i hc
  unfold commandMicro
  cases hm : microAt i s.ms with
  | none => exact .inl ⟨rfl, rfl⟩
  | some m =>
    have hk := hm
    rw [microAt_eq_bodyOf] at hk
    rcases bodyOf_micro hk hn v.toDomains.readable with ⟨u, hu, hM, hN⟩ | ⟨hh, -⟩
    · exact .inr (.inl ⟨m, u, rfl, hu, by simp only [hu], hM, hN⟩)
    · exact .inr (.inr (by simp only [hh]))

theorem commandMicro_keeps {i : Instr} {s : State} (v : MicroInvariant s) (hc : s.cur = some i) :
    ∃ t, commandMicro i s = .next t ∧ MicroInvariant t := by
  obtain ⟨hf, ⟨cw, hw, hd⟩, hn⟩ := v.within i hc
  rcases commandMicro_cases v hc with ⟨-, h⟩ | ⟨m, u, -, -, h, hM, hN⟩ | h
  · exact ⟨_, h, .of_idle (v.toDomains.finish (List.getElem?_eq_some_iff.1 hw).1) rfl⟩
  · refine ⟨_, h, v.toDomains.moved hM hn.inited, fun j hj => ?_⟩
    obtain rfl : i = j := by simpa [hM.cur, hc] using hj
    refine ⟨by simp [hM.faultCode, hf], ⟨cw, by simpa [hM.prog, hM.cpc] using hw, hd⟩, ?_⟩
    rw [State.nextMicro_ms, hM.ms]
    exact hN.next
  · exact ⟨s, h, v⟩

/-- The fetch leaves the block as it is, or in a fault, or with the command at CPC in progress (R27 (a), R203). -/
theorem fetchMicro_cases (s : State) :
    fetchMicro s = s ∨ (∃ f cw, fetchMicro s = raise f cw s) ∨
    (∃ cw i, fetchWord s = some cw ∧ decode cw = .cmd i ∧ check i s = none ∧ fetchMicro s = begin i s) := by
  unfold fetchMicro
  cases hw : fetchWord s with
  | none => exact .inl rfl
  | some cw =>
    simp only
    cases hd : decode cw with
    | illegal r => exact .inr (.inl ⟨_, _, rfl⟩)
    | cmd i =>
      simp only
      cases hk : check i s with
      | some f => exact .inr (.inl ⟨_, _, rfl⟩)
      | none => exact .inr (.inr ⟨cw, i, rfl, hd, hk, rfl⟩)

theorem fetchWord_eq_some {s : State} {cw : Word} (h : fetchWord s = some cw) :
    s.faulted = false ∧ s.prog[s.cpc]? = some cw := by
  unfold fetchWord at h
  split_ifs at h with hf
  exact ⟨Bool.eq_false_of_not_eq_true hf, h⟩

theorem fetchMicro_keeps {s : State} (v : MicroInvariant s) : MicroInvariant (fetchMicro s) := by
  rcases fetchMicro_cases s with h | ⟨f, cw, h⟩ | ⟨cw, i, hw, hd, hk, h⟩ <;> rw [h]
  · exact v
  · exact .of_idle v.toDomains.raise rfl
  · obtain ⟨hf, hp⟩ := fetchWord_eq_some hw
    refine ⟨v.toDomains.begin, fun j hj => ?_⟩
    obtain rfl : i = j := by simpa using hj
    have hplace : placeOf i 0 = 0 := by simp [placeOf]
    refine ⟨by simpa [State.faulted] using hf, ⟨cw, hp, hd⟩, ?_⟩
    rw [begin_ms, hplace]
    exact (check_needs hk).congr rfl rfl rfl rfl

theorem controllerMicro_keeps {s : State} (v : MicroInvariant s) :
    ∃ t, controllerMicro s = .next t ∧ MicroInvariant t := by
  unfold controllerMicro
  split_ifs
  · exact ⟨s, rfl, v⟩
  · cases hc : s.cur with
    | none => exact ⟨_, rfl, fetchMicro_keeps v⟩
    | some i => exact commandMicro_keeps v hc

theorem converterMoved_converterStep (v : Code) (s : State) : ConverterMoved s (converterStep v s) := by
  rcases converterStep_cases v s with h | ⟨hb, h⟩ <;> rw [h]
  · exact .refl s
  · exact .inr ⟨hb, v, rfl⟩

/-- Settles O18: whichever agent's turn it is, its micro-step goes on and keeps the invariant. -/
theorem tickKeepsTheMicroInvariant : Obligations.TickKeepsTheMicroInvariant := by
  refine ⟨fun s v => v.micro, fun s v => ?_⟩
  unfold tick
  rcases s.turns.next with ⟨a, rest⟩
  cases a with
  | controller => exact controllerMicro_keeps (v.setTurns rest)
  | converter c => exact ⟨_, rfl, (v.setTurns rest).converter (converterMoved_converterStep c _)⟩
  | reset k => exact ⟨_, rfl, .of_idle (Domains.reset k _) (by simp [State.reset])⟩

/-! ### The converter's transitions -/

/-- Of the body micro-steps INIT's and the start of a conversion alone touch the converter. -/
theorem Moved.adc {i : Instr} {a u : State} (h : Moved i a u) (hi : i ≠ .init) (hs : startsConversion i = false) :
    u.adcState = a.adcState ∧ u.adcRes = a.adcRes := by
  cases h <;> simp_all

theorem eq_of_awaitAdc_moved {a u : State} (h : awaitAdc a = .moved u) : u = a := by
  unfold awaitAdc at h
  split_ifs at h
  cases h; rfl

theorem adcTake_adc {a u : State} (h : adcTake a = .moved u) : u.adcState = a.adcState ∧ u.adcRes = a.adcRes := by
  unfold adcTake at h
  split at h <;> cases h
  simp

theorem mapRaw_adc {a u : State} (h : mapRaw a = .moved u) : u.adcState = a.adcState ∧ u.adcRes = a.adcRes := by
  unfold mapRaw at h
  split at h <;> cases h
  simp

/-- Past its first micro-step no body touches the converter (R118, R180). -/
theorem bodyOf_adc_of_succ {i : Instr} {k : Nat} {m : MicroStep} {a u : State} (hk : (bodyOf i)[k + 1]? = some m)
    (hu : m a = .moved u) : u.adcState = a.adcState ∧ u.adcRes = a.adcRes := by
  have await : awaitAdc a = .moved u → u.adcState = a.adcState ∧ u.adcRes = a.adcRes := fun h => by
    rw [eq_of_awaitAdc_moved h]; exact ⟨rfl, rfl⟩
  have loop : stepBody[k + 1]? = some m → u.adcState = a.adcState ∧ u.adcRes = a.adcRes := fun h => by
    match k, h with
    | 0, h => cases h; exact await hu
    | 1, h => cases h; exact adcTake_adc hu
    | 2, h => cases h; exact mapRaw_adc hu
    | k + 3, h =>
      have hm : m ∈ shiftoutBody := List.mem_of_getElem? (i := k) (by simpa [stepBody] using h)
      exact (shiftoutBody_moved (i := .shiftout) (.inl rfl) hm hu).adc (by simp) rfl
  cases i with
  | init => cases hk
  | adstart => cases hk
  | sample =>
    match k, hk with
    | 0, hk => cases hk; exact await hu
    | 1, hk =>
      cases hk
      exact (bodyOf_moved (i := .adread) (List.mem_singleton.2 rfl) hu).adc (by simp) rfl
  | step => exact loop hk
  | run => exact loop hk
  | _ => exact (bodyOf_moved (List.mem_of_getElem? hk) hu).adc (by simp) rfl

/-- What a body micro-step does to the converter (R30): nothing, or it is the first one of INIT or of a command that starts a
conversion. -/
theorem bodyOf_adc {i : Instr} {k : Nat} {m : MicroStep} {a u : State} (hk : (bodyOf i)[k]? = some m)
    (hu : m a = .moved u) :
    (u.adcState = a.adcState ∧ u.adcRes = a.adcRes) ∨
    (i = .init ∧ k = 0 ∧ u.adcState = .idle ∧ u.adcRes = none) ∨
    (startsConversion i = true ∧ k = 0 ∧ u.adcState = .busy ∧ u.adcRes = none) := by
  cases k with
  | succ k => exact .inl (bodyOf_adc_of_succ hk hu)
  | zero =>
    have hM := bodyOf_moved (List.mem_of_getElem? hk) hu
    cases hM with
    | init => exact .inr (.inl ⟨rfl, rfl, rfl, rfl⟩)
    | start _ h => exact .inr (.inr ⟨h, rfl, rfl, rfl⟩)
    | _ => exact .inl (by simp)

/-- A command that starts a conversion is initialised and finds none in flight at its first micro-step (R203). -/
theorem Needs.start {i : Instr} {a : State} (h : Needs i 0 a) (hs : startsConversion i = true) :
    a.inited = true ∧ a.adcState ≠ .busy := by
  cases i <;> simp_all [Needs, startsConversion]

theorem fetchMicro_adc (s : State) : (fetchMicro s).adcState = s.adcState ∧ (fetchMicro s).adcRes = s.adcRes := by
  rcases fetchMicro_cases s with h | ⟨f, cw, h⟩ | ⟨cw, i, -, -, -, h⟩ <;> rw [h] <;> simp

/-- Settles O23: the controller moves the converter by INIT's or a start's first micro-step alone, whose needs name the
source state. -/
theorem tickMovesTheConverter : Obligations.TickMovesTheConverter := by
  intro s t v h
  unfold tick at h
  rcases hn : s.turns.next with ⟨a, rest⟩
  rw [hn] at h
  cases a with
  | converter c =>
    cases h
    rcases converterStep_cases c (s.setTurns rest) with hs | ⟨hb, hs⟩ <;> rw [hs]
    · exact .inl ⟨rfl, rfl⟩
    · exact .inr (.inr (.inr (.inl ⟨c, rfl, hb, rfl, rfl⟩)))
  | reset k => cases h; exact .inr (.inr (.inr (.inr ⟨k, rfl, by simp [State.reset], by simp [State.reset]⟩)))
  | controller =>
    have v' := v.setTurns rest
    simp only [controllerMicro] at h
    split_ifs at h
    · cases h; exact .inl ⟨rfl, rfl⟩
    · cases hc : s.cur with
      | none =>
        simp only [State.setTurns_cur, hc] at h
        cases h
        exact .inl (fetchMicro_adc _)
      | some i =>
        simp only [State.setTurns_cur, hc] at h
        obtain ⟨-, -, need⟩ := v.within i hc
        rcases commandMicro_cases v' hc with ⟨-, hu⟩ | ⟨m, u, hm, hmu, hu, -, -⟩ | hu <;> rw [hu] at h <;> cases h
        · exact .inl (by simp)
        · rw [microAt_eq_bodyOf] at hm
          rcases bodyOf_adc hm hmu with hsame | ⟨rfl, hk, hi, hr⟩ | ⟨hs, hk, hb, hr⟩
          · exact .inl hsame
          · have hoff : s.adcState = .off := v.off_iff_uninitialised.2 (need hk)
            exact .inr (.inl ⟨rfl, rfl, hoff, hi, hr⟩)
          · rw [State.setTurns_ms] at hk
            rw [hk] at need
            obtain ⟨hin, hfree⟩ := need.start hs
            have hon : s.adcState ≠ .off := fun h => by simp [v.off_iff_uninitialised.1 h] at hin
            refine .inr (.inr (.inl ⟨rfl, ?_, ?_, hb, hr⟩))
            · simpa [hc] using startsConversion_iff.1 hs
            · cases hA : s.adcState <;> simp_all
        · exact .inl ⟨rfl, rfl⟩

end Sys2Proof.Machine
end

section
/-! PROOFS. The step: what it runs, what a finished or faulted block does (44_loop R185, 60_exceptions R200), and the step as
a run of micro-steps (00_scope R8). -/

namespace Sys2Proof.Machine

/-! ### What a step runs -/

theorem fetchWord_of_unfaulted {s : State} (hf : s.faulted = false) : fetchWord s = s.prog[s.cpc]? := by
  simp [fetchWord, hf]

theorem fetchWord_of_end {s : State} (hp : s.prog[s.cpc]? = none) : fetchWord s = none := by
  simp [fetchWord, hp]

/-- Settles O8: the branches of the step. -/
theorem stepRunsTheDecodedCommand : Obligations.StepRunsTheDecodedCommand := by
  refine ⟨fun s cw i hf hc hp hd => ?_, fun s i hc => ?_, fun s hc hp => ?_⟩
  · simp [step, hc, fetchWord_of_unfaulted hf, hp, hd]
  · simp [step, hc]
  · simp [step, hc, fetchWord_of_end hp]

/-- A turn of the converter outside BUSY passes (41_sampler R110). -/
theorem converterStep_of_not_busy {s : State} (h : s.adcState ≠ .busy) (v : Code) : converterStep v s = s := by
  rcases converterStep_cases v s with hs | ⟨hb, -⟩
  · exact hs
  · exact absurd hb h

theorem idle_eq (s : State) :
    idle s = match s.turns.next with
      | (.controller, rest) => s.setTurns rest
      | (.converter v, rest) => converterStep v (s.setTurns rest)
      | (.reset kind, rest) => resetStep kind (s.setTurns rest) := rfl

/-- A converter's turn, as a change of fields: a completion in BUSY, nothing in any other state. -/
theorem converterStep_setTurns_eq (s : State) (v : Code) (rest : Schedule) :
    converterStep v (s.setTurns rest) =
      if s.adcState = .busy then
        { s with adcState := .done, adcRes := some v, history := s.history ++ [.adcDone v], turns := rest }
      else { s with turns := rest } := by
  split_ifs with hb
  · exact converterStep_busy (s := s.setTurns rest) hb v
  · exact converterStep_of_not_busy (s := s.setTurns rest) hb v

/-- Settles O33: the converter's turn is its own step. -/
theorem converterCompletesOnlyFromBusy : Obligations.ConverterCompletesOnlyFromBusy := by
  intro s v rest h
  have ht : tick s = .next (converterStep v (s.setTurns rest)) := by simp [tick, h]
  rw [ht, converterStep_setTurns_eq]
  split_ifs <;> rfl

theorem State.finished_iff {s : State} :
    s.finished = true ↔ s.faulted = false ∧ s.cur = none ∧ s.cpc = s.prog.length ∧ s.adcState ≠ .busy := by
  simp [State.finished, and_assoc]

/-- Settles O10: with no word at CPC the step is the environment's move, which is a turn of the controller or of a converter
that has no conversion in flight. -/
theorem finishedRunStays : Obligations.FinishedRunStays := by
  intro s h hn
  obtain ⟨-, hc, hend, hb⟩ := State.finished_iff.1 h
  have hp : s.prog[s.cpc]? = none := by simp [hend]
  rw [stepRunsTheDecodedCommand.2.2 s hc hp, Schedule.drop_succ, Schedule.drop_zero]
  rcases idle_cases s with ⟨m, hturns⟩ | ⟨k, rest, hreset, -⟩
  · have hidle : idle s = s.setTurns (idle s).turns := m.of_not_busy hb
    rw [hidle, hturns]; rfl
  · exact absurd (by rw [hreset]) ((noReset_next hn).1 k)

/-- Settles O11: a faulted block is not finished, and its step is the environment's move. -/
theorem faultedBlockIsHalted : Obligations.FaultedBlockIsHalted := by
  intro s hf
  have hstep : step s = .next (idle s) := step_faulted hf
  refine ⟨by simp [State.finished, hf], fun hs => ?_, ?_⟩
  · rw [hstep, idle_eq, hs, Schedule.next_silent, ← hs]; rfl
  · rw [hstep, idle_eq]
    rcases s.turns.next with ⟨a, rest⟩
    cases a with
    | controller => rfl
    | converter v =>
      simp only [converterStep_setTurns_eq]
      split_ifs <;> rfl
    | reset k =>
      exact ⟨_, rfl, by simp [State.reset], by simp [State.reset], by simp [State.reset], by simp [State.reset]⟩

/-! ### The step as a run of micro-steps -/

/-- A run of ticks leads from `s` to `t`. -/
def Ticked (s t : State) : Prop := ∃ n, ticks n s = .next t

theorem Ticked.trans {s t u : State} (h : Ticked s t) (h' : Ticked t u) : Ticked s u := by
  obtain ⟨n, hn⟩ := h
  obtain ⟨m, hm⟩ := h'
  exact ⟨n + m, by rw [ticks_add hn, hm]⟩

theorem Ticked.of_tick {s t : State} (h : tick s = .next t) : Ticked s t := ⟨1, by simp [ticks, h]⟩

/-- A wait for the controller's turn and its micro-step are ticks. -/
theorem Ticked.of_go {s u t : State} (h : awaitTurn s.turns s = .go u) (ht : controllerMicro u = .next t) :
    Ticked s t := by
  obtain ⟨n, w, hn, hw⟩ := ticks_awaitTurn_go h
  exact ⟨n + 1, ticks_snoc hn (hw.trans ht)⟩

/-- A wait that a reset ends is ticks. -/
theorem Ticked.of_aborted {s t : State} (h : awaitTurn s.turns s = .aborted t) : Ticked s t := ticks_awaitTurn_aborted h

theorem controllerMicro_command {i : Instr} {s : State} (hf : s.faultCode = 0#3) (hc : s.cur = some i) :
    controllerMicro s = commandMicro i s := by
  simp [controllerMicro, State.faulted, hf, hc]

theorem controllerMicro_fetch {s : State} (hf : s.faultCode = 0#3) (hc : s.cur = none) :
    controllerMicro s = .next (fetchMicro s) := by
  simp [controllerMicro, State.faulted, hf, hc]

/-- Where nothing is enabled for the controller, the environment's move is a tick. -/
theorem tick_idle {s : State} (h : s.faulted = true ∨ (s.cur = none ∧ s.prog[s.cpc]? = none)) :
    tick s = .next (idle s) := by
  have hquiet : ∀ rest, controllerMicro (s.setTurns rest) = .next (s.setTurns rest) := fun rest => by
    have hf' : (s.setTurns rest).faulted = s.faulted := rfl
    rcases h with hf | ⟨hc, hp⟩
    · simp [controllerMicro, hf', hf]
    · have hw : fetchWord (s.setTurns rest) = none := fetchWord_of_end hp
      simp [controllerMicro, hc, fetchMicro, hw]
  rw [tick, idle]
  rcases s.turns.next with ⟨a, rest⟩
  cases a with
  | controller => exact hquiet rest
  | converter v => rfl
  | reset k => rfl

/-- The rest of the body, after a micro-step of it. -/
theorem microAt_of_restOf_cons {i : Instr} {m : MicroStep} {rest : List MicroStep} {k : Nat}
    (h : ∀ j < rest.length + 1, microAt i (k + j) = (m :: rest)[j]?) :
    microAt i k = some m ∧ ∀ j < rest.length, microAt i (k + 1 + j) = rest[j]? := by
  refine ⟨by simpa using h 0 (by omega), fun j hj => ?_⟩
  have := h (j + 1) (by omega)
  rwa [show k + (j + 1) = k + 1 + j by omega, List.getElem?_cons_succ] at this

/-- A run of body micro-steps is ticks, whether it ends done or early. -/
theorem ticked_runMicros {i : Instr} {l : List MicroStep} {s : State} (hb : ∀ m ∈ l, m ∈ bodyOf i)
    (hl : ∀ j < l.length, microAt i (s.ms + j) = l[j]?) (hf : s.faultCode = 0#3) (hc : s.cur = some i) :
    (∀ t, runMicros l s = .done t →
      Ticked s t ∧ t.faultCode = 0#3 ∧ t.cur = some i ∧ t.ms = s.ms + l.length) ∧
    (∀ t, runMicros l s = .over (.next t) → Ticked s t) := by
  induction l generalizing s with
  | nil => exact ⟨fun t h => (by cases h; exact ⟨⟨0, rfl⟩, hf, hc, rfl⟩), fun t h => (by cases h)⟩
  | cons m rest ih =>
    obtain ⟨hm, hrest⟩ := microAt_of_restOf_cons hl
    rw [runMicros]
    cases hgo : awaitTurn s.turns s with
    | aborted u => exact ⟨fun t h => (by cases h), fun t h => (by cases h; exact .of_aborted hgo)⟩
    | go a =>
      have mv := awaitTurn_go hgo
      have hmicro : controllerMicro a = commandMicro i a :=
        controllerMicro_command (mv.faultCode.trans hf) (mv.cur.trans hc)
      have hat : microAt i a.ms = some m := by rw [mv.ms]; exact hm
      simp only
      cases hu : m a with
      | held =>
        refine ⟨fun t h => (by cases h), fun t h => ?_⟩
        cases h
        exact .of_go hgo (by rw [hmicro, commandMicro, hat]; simp only [hu])
      | stopped r => exact ⟨fun t h => (by cases h), fun t h => (by cases h)⟩
      | moved u =>
        have hM := bodyOf_moved (hb m (by simp)) hu
        have hstep : Ticked s u.nextMicro := .of_go hgo (by rw [hmicro, commandMicro, hat]; simp only [hu])
        have hms : u.nextMicro.ms = s.ms + 1 := by simp [hM.ms, mv.ms]
        obtain ⟨hdone, hover⟩ := ih (s := u.nextMicro) (fun m' h => hb m' (by simp [h])) (by rwa [hms])
          (by simp [hM.faultCode, mv.faultCode, hf]) (by simp [hM.cur, mv.cur, hc])
        refine ⟨fun t h => ?_, fun t h => hstep.trans (hover t h)⟩
        obtain ⟨ht, htf, htc, htm⟩ := hdone t h
        exact ⟨hstep.trans ht, htf, htc, by rw [htm, hms, List.length_cons]; omega⟩

/-- The body micro-steps that are left are the ones `microAt` gives. -/
theorem microAt_add (i : Instr) (ms j : Nat) (hj : j < (restOf i ms).length) : microAt i (ms + j) = (restOf i ms)[j]? := by
  unfold microAt restOf at *
  split_ifs with hi
  · simp only [hi, if_true, List.length_drop, length_stepBody] at hj
    rw [List.getElem?_drop, length_stepBody, show (ms + j) % 47 = ms % 47 + j by omega]
  · rw [List.getElem?_drop]

/-- A command other than RUN has no micro-step past its body. -/
theorem microAt_end {i : Instr} (hi : i ≠ .run) (ms : Nat) : microAt i (ms + (restOf i ms).length) = none := by
  simp only [microAt, restOf, hi, if_false, List.length_drop, List.getElem?_eq_none_iff]
  omega

/-- The rest of a command, to its end, is ticks. -/
theorem ticked_afterBody {i : Instr} {s t : State} (hf : s.faultCode = 0#3) (hc : s.cur = some i)
    (h : afterBody (doneOf i) (runMicros (restOf i s.ms) s) = .next t) : Ticked s t := by
  obtain ⟨hdone, hover⟩ := ticked_runMicros (fun m => restOf_subset) (microAt_add i s.ms) hf hc
  rcases hr : runMicros (restOf i s.ms) s with u | o
  · obtain ⟨hu, huf, huc, hum⟩ := hdone u hr
    rw [hr] at h
    simp only [afterBody, doneOf] at h
    split_ifs at h with hi
    · cases h; exact hu
    · unfold complete at h
      cases hw : awaitTurn u.turns u with
      | aborted a => rw [hw] at h; cases h; exact hu.trans (.of_aborted hw)
      | go a =>
        rw [hw] at h
        cases h
        have mv := awaitTurn_go hw
        refine hu.trans (.of_go hw ?_)
        rw [controllerMicro_command (mv.faultCode.trans huf) (mv.cur.trans huc), commandMicro, mv.ms, hum,
          microAt_end hi]
  · rw [hr] at h; cases h; exact hover t hr

/-- The fetch of a command is a tick. -/
theorem controllerMicro_fetch_cmd {s : State} {cw : Word} {i : Instr} (hf : s.faultCode = 0#3) (hc : s.cur = none)
    (hp : s.prog[s.cpc]? = some cw) (hd : decode cw = .cmd i) :
    controllerMicro s = .next ((check i s).elim (begin i s) fun f => raise f (encode i) s) := by
  have hw : fetchWord s = some cw := by rw [fetchWord_of_unfaulted (by simp [State.faulted, hf]), hp]
  rw [controllerMicro_fetch hf hc, fetchMicro, hw]
  simp only [hd]
  cases check i s <;> rfl

theorem ticked_exec {s t : State} {i : Instr} (hf : s.faulted = false)
    (hw : s.cur = some i ∨ (s.cur = none ∧ ∃ cw, s.prog[s.cpc]? = some cw ∧ decode cw = .cmd i))
    (h : exec i s = .next t) : Ticked s t := by
  have hf0 : s.faultCode = 0#3 := by simpa [State.faulted] using hf
  rw [exec_eq] at h
  rcases runCommand_cases i (restOf i) (doneOf i) s with
    ⟨hf', -⟩ | ⟨-, hc, h1⟩ | ⟨-, hc, h1⟩ | ⟨-, ⟨j, hj, hji⟩, h1⟩
  · rw [hf] at hf'; cases hf'
  · obtain ⟨cw, hp, hd⟩ : ∃ cw, s.prog[s.cpc]? = some cw ∧ decode cw = .cmd i := by
      rcases hw with hw | ⟨-, hw⟩
      · rw [hc] at hw; cases hw
      · exact hw
    have fetch : ∀ {u}, awaitTurn s.turns s = .go u →
        Ticked s ((check i u).elim (begin i u) fun f => raise f (encode i) u) := fun hgo => by
      have mv := awaitTurn_go hgo
      exact .of_go hgo (controllerMicro_fetch_cmd (mv.faultCode.trans hf0) (mv.cur.trans hc) (by rwa [mv.prog, mv.cpc]) hd)
    rcases h1 with ⟨u, ha, h1⟩ | ⟨u, f, ha, hk, h1⟩ | ⟨u, ha, hk, h1⟩ <;> rw [h1] at h
    · cases h; exact .of_aborted ha
    · cases h; simpa [hk] using fetch ha
    · have hb : Ticked s (begin i u) := by simpa [hk] using fetch ha
      exact hb.trans (ticked_afterBody (by simp [(awaitTurn_go ha).faultCode, hf0]) rfl h)
  · rw [h1] at h; exact ticked_afterBody hf0 hc h
  · rw [h1] at h; cases h

/-- The fetch of an illegal word is ticks. -/
theorem ticked_fetchIllegal {s : State} {cw : Word} {r : Reject} (hf : s.faulted = false) (hc : s.cur = none)
    (hp : s.prog[s.cpc]? = some cw) (hd : decode cw = .illegal r) : Ticked s (fetchIllegal cw s) := by
  unfold fetchIllegal
  cases hw : awaitTurn s.turns s with
  | aborted u => exact .of_aborted hw
  | go u =>
    have mv := awaitTurn_go hw
    have hf0 : u.faultCode = 0#3 := by simpa [State.faulted, mv.faultCode] using hf
    refine .of_go hw ?_
    have hfw : fetchWord u = some cw := by
      rw [fetchWord_of_unfaulted (by simp [State.faulted, hf0]), mv.prog, mv.cpc, hp]
    rw [controllerMicro_fetch hf0 (mv.cur.trans hc), fetchMicro, hfw]
    simp only [hd]

/-- Settles O9: each of the ways a step goes is a run of ticks. -/
theorem stepIsARunOfTicks : Obligations.StepIsARunOfTicks := by
  intro s t h
  rcases step_cases s with ⟨h1, hc⟩ | ⟨hf, hc, cw, r, hp, hd, h1⟩ | ⟨hf, i, h1, hw⟩ <;> rw [h1] at h
  · cases h; exact Ticked.of_tick (tick_idle hc)
  · cases h; exact ticked_fetchIllegal hf hc hp hd
  · exact ticked_exec hf hw h

end Sys2Proof.Machine
end

section
/-! PROOFS. What a command leaves alone, and how its faults and its record go (10_state R20, R24, R33, R34, 60_exceptions
R200, R202). -/

namespace Sys2Proof.Machine

/-! ### The fetch of a command -/

/-- A command fetched at the controller's turn in the state `a` is checked there, and runs its body (R27). -/
theorem exec_of_go {i : Instr} {s a : State} (hr : s.ready = true) (hgo : awaitTurn s.turns s = .go a) :
    exec i s = match check i a with
      | some f => .next (raise f (encode i) a)
      | none => afterBody (doneOf i) (runMicros (bodyOf i) (begin i a)) := by
  obtain ⟨hf, hc⟩ := State.ready_iff.1 hr
  have hrest : restOf i 0 = bodyOf i := by cases i <;> rfl
  rw [exec_eq, runCommand, hf, hc, hgo, hrest]
  rfl

/-! ### Which faults a command raises -/

/-- The faults the check of a well-formed command can answer (R202). -/
theorem check_some_cases {i : Instr} {s : State} {f : FaultName} (hw : i.wf = true) (h : check i s = some f) :
    (f = .notInitialised ∧ needsInit i = true) ∨ (f = .reinitialise ∧ i = .init) ∨
    (f = .adcBusy ∧ startsConversion i = true) ∨ (f = .adcNotReady ∧ i = .adread) ∨
    (f = .unwritten ∧ (i = .map ∨ i = .shiftout)) := by
  rw [check_of_wf hw] at h
  split_ifs at h with h1 h2 h3 h4 h5 h6 <;> cases h
  · exact .inl ⟨rfl, h1.1⟩
  · exact .inr (.inl ⟨rfl, h2.1⟩)
  · exact .inr (.inr (.inl ⟨rfl, h3.1⟩))
  · exact .inr (.inr (.inr (.inl ⟨rfl, h4.1⟩)))
  · exact .inr (.inr (.inr (.inr ⟨rfl, .inl h5.1⟩)))
  · exact .inr (.inr (.inr (.inr ⟨rfl, .inr h6.1⟩)))

/-- Settles O13: the fault is the check's at the fetch, and the check answers only what the table lists. -/
theorem faultsEachCommandCanRaise : Obligations.FaultsEachCommandCanRaise := by
  intro i s t hw hr hn h
  obtain ⟨hf, -⟩ := State.ready_iff.1 hr
  obtain ⟨a, hgo, m, -⟩ := awaitTurn_of_noReset s hn
  have ha : a.faultCode = 0#3 := by simpa [State.faulted, m.faultCode] using hf
  rw [exec_of_go hr hgo] at h
  cases hk : check i a with
  | none =>
    rw [hk] at h
    exact .inl (afterBody_unfaulted (fun _ hm => hm) (by simpa using ha) h)
  | some f =>
    rw [hk] at h
    cases h
    simp only [raise_faultCode]
    rcases check_some_cases hw hk with ⟨rfl, h⟩ | ⟨rfl, rfl⟩ | ⟨rfl, h⟩ | ⟨rfl, rfl⟩ | ⟨rfl, h⟩
    · refine .inr (.inl ⟨rfl, ?_⟩)
      cases i <;> simp_all [needsInit]
    · exact .inr (.inr (.inl ⟨rfl, rfl⟩))
    · exact .inr (.inr (.inr (.inl ⟨rfl, startsConversion_iff.1 h⟩)))
    · exact .inr (.inr (.inr (.inr (.inl ⟨rfl, rfl⟩))))
    · exact .inr (.inr (.inr (.inr (.inr ⟨rfl, h⟩))))

/-! ### A fault is precise -/

/-- From an unfaulted state to a faulted one, a step is a wait for the controller's turn and a fault with the word at
CPC. -/
theorem step_faults {s t : State} (hf : s.faulted = false) (h : step s = .next t) (ht : t.faulted = true) :
    s.cur = none ∧ ∃ a f cw, s.prog[s.cpc]? = some cw ∧ ConverterMoved s a ∧ t = raise f cw a := by
  have hf0 : s.faultCode = 0#3 := by simpa [State.faulted] using hf
  have unfaulted : t.faultCode = 0#3 → False := fun h0 => by simp [State.faulted, h0] at ht
  have reset : ∀ {k u}, t = resetStep k u → False := fun h => unfaulted (by rw [h, resetStep_faultCode]; rfl)
  have aborted : ∀ {b}, awaitTurn b.turns b = .aborted t → False := fun hab => by
    obtain ⟨k, u, -, hu, -⟩ := awaitTurn_aborted hab
    exact reset hu
  rcases step_cases s with ⟨h1, -⟩ | ⟨-, hc, cw, r, hp, -, h1⟩ | ⟨-, i, h1, hw⟩ <;> rw [h1] at h
  · cases h
    rcases idle_cases s with ⟨m, -⟩ | ⟨k, rest, -, hr⟩
    · exact (unfaulted (m.faultCode.trans hf0)).elim
    · exact (reset hr).elim
  · cases h
    unfold fetchIllegal at *
    cases hw : awaitTurn s.turns s with
    | aborted u => simp only [hw] at aborted; exact (aborted hw).elim
    | go a => exact ⟨hc, a, _, cw, hp, awaitTurn_go hw, rfl⟩
  · rw [exec_eq] at h
    rcases runCommand_cases i (restOf i) (doneOf i) s with
      ⟨hf', -⟩ | ⟨-, hc, ⟨u, ha, h1⟩ | ⟨u, f, ha, hk, h1⟩ | ⟨u, ha, hk, h1⟩⟩ | ⟨-, hc, h1⟩ | ⟨-, -, h1⟩
    · rw [hf] at hf'; cases hf'
    · rw [h1] at h; cases h; exact (aborted ha).elim
    · rw [h1] at h
      cases h
      obtain ⟨cw, hp, hd⟩ : ∃ cw, s.prog[s.cpc]? = some cw ∧ decode cw = .cmd i := by
        rcases hw with hw | ⟨-, hw⟩
        · rw [hc] at hw; cases hw
        · exact hw
      exact ⟨hc, u, f, cw, hp, awaitTurn_go ha, by rw [(encodeOfDecode cw i hd).2]⟩
    · rw [h1] at h
      exact (unfaulted (afterBody_unfaulted (fun m => restOf_subset)
        (by simp [(awaitTurn_go ha).faultCode, hf0]) h)).elim
    · rw [h1] at h
      exact (unfaulted (afterBody_unfaulted (fun m => restOf_subset) hf0 h)).elim
    · rw [h1] at h; cases h

/-- Settles O14: only the converter moves before the fault, and the fault writes its record and ends the fetch. -/
theorem faultHasNoOtherEffect : Obligations.FaultHasNoOtherEffect := by
  intro s t hf h ht
  obtain ⟨hc, a, f, cw, hp, m, rfl⟩ := step_faults hf h ht
  refine ⟨hc, hp, ?_, ?_⟩
  · rw [m.frame]; rfl
  · rcases m with m | ⟨hb, v, m⟩ <;> generalize a.turns = ts at m <;> subst m
    · exact .inl ⟨rfl, rfl, rfl⟩
    · exact .inr ⟨hb, rfl, v, rfl, by simp⟩

/-! ### What a command leaves alone -/

/-- A part of the state that the converter, a fault, the start and the end of a command and its body micro-steps leave alone
is left alone by the command, under any schedule with no reset. -/
theorem exec_frame {α : Type} {part : State → α} {i : Instr} {s t : State} (hn : noReset s.turns)
    (h : exec i s = .next t)
    (hmicro : ∀ a u, Moved i a u → part u.nextMicro = part a)
    (hconverter : ∀ a b, ConverterMoved a b → part b = part a)
    (hraise : ∀ f a, part (raise f (encode i) a) = part a)
    (hbegin : ∀ a, part (begin i a) = part a)
    (hfinish : ∀ a, part (finish i a) = part a) : part t = part s := by
  rcases exec_keeps_noReset (P := fun a => part a = part s) hn (fun a b m ha => (hconverter a b m).trans ha)
      (fun f a ha => (hraise f a).trans ha) (fun a ha => (hbegin a).trans ha)
      (fun a u hM ha => (hmicro a u hM).trans ha) rfl h with hp | ⟨a, ha, -, rfl⟩
  · exact hp
  · exact (hfinish a).trans ha

/-- DIR, INITED and the converter's control fields: what INIT alone writes (R25, R29). -/
def State.configuration (s : State) :
    (Line → Dir) × Bool × Bool × Option AdcChannel × Option AdcRef × Option AdcMode × Option AdcPrescaler :=
  (s.dir, s.inited, s.adcEn, s.adcCh, s.adcRef, s.adcMode, s.adcPresc)

theorem State.configuration_congr {a b : State} (h1 : b.dirSer = a.dirSer) (h2 : b.dirSrclk = a.dirSrclk)
    (h3 : b.dirRclk = a.dirRclk) (h4 : b.inited = a.inited) (h5 : b.adcEn = a.adcEn) (h6 : b.adcCh = a.adcCh)
    (h7 : b.adcRef = a.adcRef) (h8 : b.adcMode = a.adcMode) (h9 : b.adcPresc = a.adcPresc) :
    b.configuration = a.configuration := by
  simp only [State.configuration, funext (State.dir_eq h1 h2 h3), h4, h5, h6, h7, h8, h9]

theorem ConverterMoved.configuration {a b : State} (h : ConverterMoved a b) : b.configuration = a.configuration := by
  rw [h.frame]; rfl

theorem Moved.configuration {i : Instr} {a u : State} (h : Moved i a u) (hi : i ≠ .init) :
    u.nextMicro.configuration = a.configuration := by
  cases h with
  | init => exact absurd rfl hi
  | _ => apply State.configuration_congr <;> simp

theorem Moved.lvl {i : Instr} {a u : State} (h : Moved i a u) (hinit : i ≠ .init) (hsetl : ∀ l v, i ≠ .setl l v)
    (hs : ¬ shiftsOut i) : u.nextMicro.lvl = a.lvl := by
  cases h with
  | init => exact absurd rfl hinit
  | setl => exact absurd rfl (hsetl _ _)
  | drive _ _ _ h => exact absurd h hs
  | _ => exact funext (State.lvl_eq (by simp) (by simp) (by simp))

theorem respond_silent {i : Instr} {s : State} (h : responds i = false) : respond i s = s := by
  simp [respond, h]

/-- Settles O22: part by part, by what the body micro-steps of each command can do. -/
theorem fieldsAreWrittenOnlyByTheirCommands : Obligations.FieldsAreWrittenOnlyByTheirCommands := by
  intro i s t hn h
  refine ⟨fun h1 h2 h3 h4 h5 => ?_, fun h1 h2 h3 => ?_, fun h1 h2 h3 h4 => ?_, fun h1 => ?_, fun h1 h2 h3 h4 h5 => ?_,
    fun h1 h2 h3 h4 => ?_, fun h1 h2 h3 h4 h5 => ?_, ?_, ?_⟩
  · refine exec_frame hn h (fun a u hM => ?_) (fun a b m => m.raw) (by simp) (by simp) (by simp)
    cases hM <;> simp_all
  · refine exec_frame hn h (fun a u hM => ?_) (fun a b m => m.power) (by simp) (by simp) (by simp)
    cases hM <;> simp_all
  · refine exec_frame hn h (fun a u hM => ?_) (fun a b m => m.pattern) (by simp) (by simp) (by simp)
    cases hM <;> simp_all
  · have hconf := exec_frame hn h (fun a u hM => hM.configuration h1) (fun a b m => m.configuration) (fun _ _ => rfl)
      (fun _ => rfl) (fun a => by apply State.configuration_congr <;> simp)
    simp only [State.configuration, Prod.mk.injEq] at hconf
    exact ⟨congrFun hconf.1, hconf.2⟩
  · refine congrFun (exec_frame hn h (fun a u hM => hM.lvl h1 h2 (by simp [shiftsOut, h3, h4, h5]))
      (fun a b m => funext m.lvl) (fun f a => rfl) (fun a => rfl) fun a => ?_)
    exact funext (State.lvl_eq (by simp) (by simp) (by simp))
  · have hs : ¬ shiftsOut i := by simp [shiftsOut, h2, h3, h4]
    have hreg := exec_frame (part := fun a => (a.shift, a.latch)) hn h
      (fun a u hM => by
        cases hM with
        | setl => exact absurd rfl (h1 _ _)
        | drive _ _ _ h => exact absurd h hs
        | _ => simp)
      (fun a b m => by rw [m.shift, m.latch]) (by simp) (by simp) (by simp)
    exact Prod.mk.inj hreg
  · have hi : responds i = false := by cases i <;> simp_all [responds]
    exact exec_frame hn h (fun a u hM => hM.responses) (fun a b m => m.responses) (by simp) (by simp)
      (fun a => by simp [respond_silent hi])
  · rcases exec_keeps_noReset (P := fun a => a.cpc = s.cpc) hn (fun a b m ha => m.cpc.trans ha) (fun f a ha => ha)
        (fun a ha => ha) (fun a u hM ha => hM.cpc.trans ha) rfl h with hp | ⟨a, ha, -, rfl⟩
    · exact .inl hp
    · exact .inr (by simp [ha])
  · exact exec_frame hn h (fun a u hM => hM.prog) (fun a b m => m.prog) (by simp) (by simp) (by simp)

/-! ### The record grows -/

theorem ConverterMoved.history_prefix {s t : State} (h : ConverterMoved s t) : s.history <+: t.history := by
  rcases h with h | ⟨-, v, h⟩ <;> rw [h] <;> simp

theorem Moved.history_prefix {i : Instr} {a u : State} (h : Moved i a u) : a.history <+: u.history := by
  cases h <;> simp

theorem respond_responses_prefix (i : Instr) (s : State) : s.responses <+: (respond i s).responses := by
  unfold respond
  split
  · exact List.prefix_append _ _
  · exact List.prefix_rfl

/-- What a move leaves of PROG and, where no power-on is to come, of the record (R33, R34). -/
def Grown (s a : State) : Prop :=
  a.prog = s.prog ∧ (noPowerOn s.turns → noPowerOn a.turns ∧ s.history <+: a.history ∧ s.responses <+: a.responses)

theorem Grown.refl (s : State) : Grown s s := ⟨rfl, fun h => ⟨h, List.prefix_rfl, List.prefix_rfl⟩⟩

theorem Grown.trans {s a b : State} (h : Grown s a) (h' : Grown a b) : Grown s b := by
  refine ⟨h'.1.trans h.1, fun hn => ?_⟩
  obtain ⟨ha, h1, h2⟩ := h.2 hn
  obtain ⟨hb, h3, h4⟩ := h'.2 ha
  exact ⟨hb, h1.trans h3, h2.trans h4⟩

theorem Grown.reset {k : ResetKind} {s a : State} (h : Grown s a) (hk : noPowerOn s.turns → k ≠ .powerOn) :
    Grown s (resetStep k a) := by
  refine ⟨by simpa using h.1, fun hn => ?_⟩
  obtain ⟨ha, h1, h2⟩ := h.2 hn
  cases k with
  | powerOn => exact absurd rfl (hk hn)
  | input => exact ⟨by simpa using ha, h1.trans (List.prefix_append _ _), h2⟩

theorem Grown.of_converter {s a : State} (m : ConverterMoved s a) (ha : noPowerOn s.turns → noPowerOn a.turns) :
    Grown s a :=
  ⟨m.prog, fun hn => ⟨ha hn, m.history_prefix, by rw [m.responses]⟩⟩

theorem Grown.of_go {s a : State} (h : awaitTurn s.turns s = .go a) : Grown s a :=
  .of_converter (awaitTurn_go h) fun hn => awaitTurn_go_all (by simp) hn h

theorem Grown.of_aborted {s a : State} (h : awaitTurn s.turns s = .aborted a) : Grown s a := by
  obtain ⟨k, u, m, rfl, hall⟩ := awaitTurn_aborted h
  exact (Grown.of_converter m fun hn => (hall _ (by simp) hn).2).reset fun hn hk => (hall _ (by simp) hn).1 (by rw [hk])

theorem Grown.idle (s : State) : Grown s (idle s) := by
  have hnext : noPowerOn s.turns → s.turns.next.1 ≠ .reset .powerOn ∧ noPowerOn s.turns.next.2 :=
    Schedule.all_next (by simp)
  rcases idle_cases s with ⟨m, ht⟩ | ⟨k, rest, hn, hr⟩
  · exact .of_converter m fun h => by rw [ht]; exact (hnext h).2
  · rw [hn] at hnext
    have hset : Grown s (s.setTurns rest) := .of_converter (.inl rfl) fun h => (hnext h).2
    rw [hr]
    exact hset.reset fun h hk => (hnext h).1 (by rw [hk])

theorem Grown.raise (f : FaultName) (cw : Word) (a : State) : Grown a (raise f cw a) :=
  ⟨rfl, fun h => ⟨h, by simp, by simp⟩⟩

theorem Grown.finish (i : Instr) (a : State) : Grown a (finish i a) :=
  ⟨by simp, fun h => ⟨by simpa using h, by simp, respond_responses_prefix i a⟩⟩

theorem Grown.moved {i : Instr} {a u : State} (h : Moved i a u) : Grown a u.nextMicro :=
  ⟨h.prog, fun hn => ⟨by simpa [h.turns] using hn, h.history_prefix, by simp [h.responses]⟩⟩

theorem Grown.fetchIllegal (cw : Word) (s : State) : Grown s (fetchIllegal cw s) := by
  unfold Machine.fetchIllegal
  cases h : awaitTurn s.turns s with
  | aborted t => exact .of_aborted h
  | go t => exact (Grown.of_go h).trans (.raise _ _ _)

theorem Grown.exec {i : Instr} {s t : State} (h : exec i s = .next t) : Grown s t := by
  rcases exec_keeps (P := Grown s) (fun _ _ hgo ha => ha.trans (.of_go hgo)) (fun _ _ hab ha => ha.trans (.of_aborted hab))
      (fun _ => .idle s) (fun f a ha => ha.trans (.raise f _ a)) (fun _ ha => ha)
      (fun _ _ hM ha => ha.trans (.moved hM)) (.refl s) h with ht | ⟨a, ha, -, rfl⟩
  · exact ht
  · exact ha.trans (.finish i a)

/-- Settles O24: every move of every agent but a power-on only appends to the record. -/
theorem recordOnlyGrows : Obligations.RecordOnlyGrows := by
  intro s t h
  have grown : Grown s t := by
    rcases step_cases s with ⟨h1, -⟩ | ⟨-, -, cw, r, -, -, h1⟩ | ⟨-, i, h1, -⟩ <;> rw [h1] at h
    · cases h; exact .idle s
    · cases h; exact .fetchIllegal cw s
    · exact .exec h
  exact ⟨grown.1, fun hn => (grown.2 hn).2⟩

end Sys2Proof.Machine
end

section
/-! PROOFS. A reset aborts every command (70_reset R231): the moves before it, counted along the command's micro-steps. -/

namespace Sys2Proof.Machine

/-! ### The moves before a reset -/

/-- The state `u` comes after `s` with no word of the record lost, no response sent, and the moves `pre`, none of them a
reset, left before the reset `k`; `rest` is what comes after it. -/
structure Before (k : ResetKind) (rest : Schedule) (s u : State) (pre : List Turn) : Prop where
  begins : u.turns.begins (pre ++ [.reset k]) rest
  noReset : ∀ r, Turn.reset r ∉ pre
  prog : u.prog = s.prog
  history : s.history <+: u.history
  responses : u.responses = s.responses

/-- Of these moves a completion comes once the controller has had exactly `n` of its turns, or it has no more than `n`: a
command whose AdcStart takes the last of the `n` turns is not found holding (41_sampler R114). -/
def Lifts : Nat → List Turn → Prop
  | _, [] => True
  | 0, .controller :: _ => False
  | n + 1, .controller :: ts => Lifts n ts
  | 0, .converter _ :: _ => True
  | n + 1, .converter _ :: ts => Lifts (n + 1) ts
  | _, .reset _ :: _ => True

theorem lifts_of_count_le {n : Nat} {pre : List Turn} (h : pre.count .controller ≤ n) : Lifts n pre := by
  induction pre generalizing n with
  | nil => cases n <;> trivial
  | cons t pre ih =>
    cases t with
    | controller =>
      rw [List.count_cons_self] at h
      cases n with
      | zero => omega
      | succ n => exact ih (Nat.le_of_succ_le_succ h)
    | converter v =>
      cases n with
      | zero => trivial
      | succ n => exact ih (by simpa using h)
    | reset k => cases n <;> trivial

theorem lifts_of_converter {n : Nat} {p q : List Turn} {v : Code} (h : p.count .controller = n) :
    Lifts n (p ++ .converter v :: q) := by
  induction p generalizing n with
  | nil => subst h; trivial
  | cons t p ih =>
    cases t with
    | controller =>
      rw [List.count_cons_self] at h
      subst h
      exact ih rfl
    | converter w =>
      cases n with
      | zero => trivial
      | succ n => exact ih (by simpa using h)
    | reset k => cases n <;> trivial

theorem abortedBy_of_reset {k : ResetKind} {rest : Schedule} {s u : State} (hturns : u.turns = rest)
    (hprog : u.prog = s.prog) (hhistory : s.history <+: u.history) (hresponses : u.responses = s.responses) :
    abortedBy k s (resetStep k u) rest := by
  obtain ⟨h, hh⟩ := hhistory
  subst hturns
  cases k with
  | powerOn => exact ⟨by rw [← hprog]; rfl, rfl, rfl⟩
  | input => exact ⟨by rw [← hprog]; rfl, ⟨h, by simp [resetStep, State.record, clearForReset, hh]⟩, hresponses⟩

/-- The next wait, with the moves `pre` before a reset: the reset ends it where the controller has none of them; else the
controller's turn comes. A completion among the moves passed finds a conversion in flight done. -/
theorem Before.wait {k : ResetKind} {rest : Schedule} {s u : State} {pre : List Turn} (b : Before k rest s u pre) :
    (pre.count .controller = 0 ∧ ∃ t, awaitTurn u.turns u = .aborted t ∧ abortedBy k s t rest) ∨
    ∃ t q, awaitTurn u.turns u = .go t ∧ Before k rest s t q ∧ q.count .controller + 1 = pre.count .controller
      ∧ (∀ n, Lifts (n + 1) pre → Lifts n q) ∧ (Lifts 0 pre → u.adcState = .busy → t.adcState = .done) := by
  induction pre generalizing u with
  | nil =>
    obtain ⟨mid, hn, rfl⟩ := Schedule.begins_cons.1 b.begins
    refine .inl ⟨rfl, resetStep k (u.setTurns mid), ?_, abortedBy_of_reset rfl b.prog b.history b.responses⟩
    rw [awaitTurn_next, hn]
  | cons a pre ih =>
    obtain ⟨mid, hn, hmid⟩ := Schedule.begins_cons.1 b.begins
    have hnr : ∀ r, Turn.reset r ∉ pre := fun r h => b.noReset r (List.mem_cons_of_mem _ h)
    cases a with
    | reset r => exact absurd (by simp) (b.noReset r)
    | controller =>
      exact .inr ⟨_, pre, awaitTurn_controller hn u, ⟨hmid, hnr, b.prog, b.history, b.responses⟩,
        by simp, fun _ h => h, fun h => h.elim⟩
    | converter v =>
      have m := converterMoved_converterStep v u
      have hwait : awaitTurn u.turns u = awaitTurn mid ((converterStep v u).setTurns mid) := by
        rw [awaitTurn_converter hn, awaitTurn_setTurns]
      have b' : Before k rest s ((converterStep v u).setTurns mid) pre :=
        ⟨hmid, hnr, m.prog.trans b.prog, b.history.trans m.history_prefix, m.responses.trans b.responses⟩
      rw [hwait]
      rcases ih b' with ⟨hc, t, ht, hab⟩ | ⟨t, q, ht, bq, hc, hl, hd⟩
      · exact .inl ⟨by simpa using hc, t, ht, hab⟩
      · refine .inr ⟨t, q, ht, bq, by simpa using hc, fun n h => hl n h, fun _ hb => ?_⟩
        have mt := awaitTurn_go ht
        rw [mt.of_not_busy (by simp [converterStep_busy hb])]
        simp [converterStep_busy hb]

/-! ### The moves before a reset, along a command -/

/-- SAMPLE, STEP and RUN are not found holding: with their AdcStart or their AwaitAdc to come, a completion comes in between,
or the reset. -/
def PassesHold (i : Instr) (j : Nat) (u : State) (pre : List Turn) : Prop :=
  (i = .sample ∨ i = .step ∨ i = .run) → (j = 0 → Lifts 1 pre) ∧ (j = 1 → u.adcState = .busy → Lifts 0 pre)

/-- The body of a command, with the moves `pre` before a reset: the reset ends it, or the body is done and has used up one
turn of the controller for each of its micro-steps. -/
theorem runMicros_before {i : Instr} {k : ResetKind} {rest : Schedule} {s : State} {start : Nat} {l : List MicroStep}
    {j : Nat} {u : State} {pre : List Turn} (hl : (bodyOf i).drop j = l) (w : Underway i s start j u)
    (b : Before k rest s u pre) (hp : PassesHold i j u pre) :
    (pre.count .controller < l.length ∧ ∃ t, runMicros l u = .over (.next t) ∧ abortedBy k s t rest) ∨
    ∃ t q, runMicros l u = .done t ∧ Before k rest s t q
      ∧ q.count .controller + l.length = pre.count .controller := by
  induction l generalizing j u pre with
  | nil => exact .inr ⟨u, pre, rfl, b, rfl⟩
  | cons m l ih =>
    have hm : (bodyOf i)[j]? = some m := by rw [← List.head?_drop, hl]; rfl
    have hl' : (bodyOf i).drop (j + 1) = l := by rw [← List.tail_drop, hl]; rfl
    rw [runMicros]
    rcases b.wait with ⟨hc, t, ht, hab⟩ | ⟨t, q, ht, bq, hc, hlift, hdone⟩
    · exact .inl ⟨by simp [hc], t, by rw [ht], hab⟩
    · have wt := w.go ht
      rw [ht]
      simp only
      rcases bodyOf_micro hm wt.needs wt.domains.readable with ⟨v, hv, hM, -⟩ | ⟨-, hj, hi, hb⟩
      · have bv : Before k rest s v.nextMicro q :=
          ⟨by rw [State.nextMicro_turns, hM.turns]; exact bq.begins, bq.noReset, hM.prog.trans bq.prog,
            bq.history.trans hM.history_prefix, hM.responses.trans bq.responses⟩
        have hpv : PassesHold i (j + 1) v.nextMicro q := fun hi =>
          ⟨fun h => by omega, fun h _ => hlift 0 ((hp hi).1 (by omega))⟩
        simp only [hv]
        rcases ih hl' (wt.moved hm hv) bv hpv with ⟨hlt, h⟩ | ⟨x, y, hx, by', hy⟩
        · exact .inl ⟨by rw [List.length_cons]; omega, h⟩
        · exact .inr ⟨x, y, hx, by', by rw [List.length_cons]; omega⟩
      · have hu : u.adcState = .busy := by
          by_contra hne
          rw [(awaitTurn_go ht).of_not_busy hne] at hb
          exact hne hb
        rw [hdone ((hp hi).2 hj hu) hu] at hb
        cases hb

/-- A command under way at place `j` whose reset comes before its last controller turn is aborted by it. -/
theorem afterBody_before {i : Instr} {k : ResetKind} {rest : Schedule} {s : State} {start j : Nat} {u : State}
    {pre : List Turn} (w : Underway i s start j u) (b : Before k rest s u pre) (hp : PassesHold i j u pre)
    (hc : pre.count .controller + j + (if i = .run then 1 else 0) ≤ (bodyOf i).length) :
    ∃ t, afterBody (doneOf i) (runMicros ((bodyOf i).drop j) u) = .next t ∧ abortedBy k s t rest := by
  rcases runMicros_before rfl w b hp with ⟨-, t, ht, hab⟩ | ⟨t, q, ht, bq, hq⟩ <;> rw [ht]
  · exact ⟨t, rfl, hab⟩
  · rw [List.length_drop] at hq
    have hi : i ≠ .run := fun hi => by rw [if_pos hi] at hc; omega
    rw [if_neg hi] at hc
    simp only [afterBody, doneOf, hi, if_false, complete]
    rcases bq.wait with ⟨-, x, hx, hab⟩ | ⟨x, y, -, -, hy, -⟩
    · exact ⟨x, by rw [hx], hab⟩
    · omega

/-! ### The start -/

/-- A completion takes no condition from the check that it let through (R203). -/
theorem check_converter {i : Instr} {s a : State} (m : ConverterMoved s a) (h : check i s = none) : check i a = none := by
  rcases m with m | ⟨hb, v, m⟩ <;> generalize a.turns = ts at m <;> subst m
  · exact h
  · have hstart : startsConversion i = false := Bool.eq_false_of_not_eq_true fun hs => ((check_needs h).start hs).2 hb
    have hadread : i ≠ .adread := by
      rintro rfl
      have hd : s.adcState = .done := (check_needs h).2
      rw [hb] at hd; cases hd
    unfold check at h ⊢
    simp_all

/-- A command let through at its fetch is under way at place 0. -/
theorem Underway.of_fetch {i : Instr} {s a : State} (v : Invariant s) (hf : s.faulted = false) (hc : s.cur = none)
    (hgo : awaitTurn s.turns s = .go a) (hk : check i a = none) : Underway i s 0 0 (begin i a) := by
  have m := awaitTurn_go hgo
  have hf0 : s.faultCode = 0#3 := by simpa [State.faulted] using hf
  exact ⟨(v.toDomains.converter m).begin, rfl, by simp [m.faultCode, hf0], (check_needs hk).congr rfl rfl rfl rfl,
    by simp [m.prog], by simp [m.cpc], by simp [m.responses], by simp [(v.between hc).1], fun _ => rfl,
    fun p hp hts => by simpa using awaitTurn_go_all hp hts hgo⟩

/-- A command in progress between two steps is under way where it stands. -/
theorem Underway.of_progress {i : Instr} {s : State} (v : Invariant s) (hc : s.cur = some i) :
    Underway i s (placeOf i s.ms) (placeOf i s.ms) s := by
  obtain ⟨hf, hi, hp, -, hin⟩ := v.running i hc
  exact ⟨v.toDomains, hc, hf, (inProgress_place hi hin).1, rfl, rfl, rfl, rfl, fun _ => hp, fun _ _ h => h⟩

/-- What the hypothesis on the moves before the reset says of a command that may hold: a completion comes once the controller
has had `start` turns, or the reset does before the next. -/
theorem lifts_of_hypothesis {pre : List Turn} {start : Nat} {P : Prop}
    (h : pre.count .controller ≤ start ∨ ((∃ p v q, pre = p ++ .converter v :: q ∧ p.count .controller = start) ∧ P)) :
    Lifts start pre := by
  rcases h with h | ⟨⟨p, v, q, rfl, h⟩, -⟩
  · exact lifts_of_count_le h
  · exact lifts_of_converter h

theorem exec_of_aborted {i : Instr} {s t : State} (hf : s.faulted = false) (hc : s.cur = none)
    (h : awaitTurn s.turns s = .aborted t) : exec i s = .next t := by
  rw [exec_eq, runCommand, hf, hc, h]
  rfl

theorem exec_of_progress {i : Instr} {s : State} (hf : s.faulted = false) (hc : s.cur = some i) :
    exec i s = afterBody (doneOf i) (runMicros (restOf i s.ms) s) := by
  rw [exec_eq, runCommand, hf, hc]
  simp

theorem length_bodyOf_of_holds {i : Instr} (h : i = .sample ∨ i = .step ∨ i = .run) : 3 ≤ (bodyOf i).length := by
  rcases h with rfl | rfl | rfl <;> decide

/-- Settles O20: from its fetch or from where it stands, the command's micro-steps up to the reset are counted off against the
controller's turns before it. -/
theorem resetAbortsTheCommand : Obligations.ResetAbortsTheCommand := by
  intro s i k pre rest start v hf hstart hnr hbegins hcount
  have b : Before k rest s s pre := ⟨hbegins, hnr, rfl, List.prefix_rfl, rfl⟩
  have hlifts : (i = .sample ∨ i = .step ∨ i = .run) → Lifts start pre := fun hi =>
    lifts_of_hypothesis (by rwa [if_pos hi] at hcount)
  rcases hstart with ⟨hc, hk, rfl⟩ | ⟨hc, hstart⟩
  · rcases b.wait with ⟨-, t, ht, hab⟩ | ⟨a, q, ht, bq, hq, hl, -⟩
    · exact ⟨t, exec_of_aborted hf hc ht, hab⟩
    · have hka := check_converter (awaitTurn_go ht) hk
      rw [exec_of_go (State.ready_iff.2 ⟨hf, hc⟩) ht, hka]
      refine afterBody_before (.of_fetch v hf hc ht hka) ⟨bq.begins, bq.noReset, bq.prog, bq.history, bq.responses⟩
        (fun hi => ⟨fun _ => hl 1 (hlifts hi), fun h => by omega⟩) ?_
      by_cases hi : i = .sample ∨ i = .step ∨ i = .run
      · have hlen := length_bodyOf_of_holds hi
        rw [if_pos hi] at hcount
        rcases hcount with hcount | ⟨-, hcount⟩ <;> split_ifs at hcount ⊢ <;> omega
      · rw [if_neg hi] at hcount
        rw [if_neg fun h => hi (.inr (.inr h))]
        omega
  · obtain ⟨-, hinit, -, -, hin⟩ := v.running i hc
    obtain ⟨-, hdrop, hi, hplace⟩ := inProgress_place hinit hin
    have hlen := length_bodyOf_of_holds hi
    rw [exec_of_progress hf hc, ← hdrop]
    have w := Underway.of_progress v hc
    rw [hplace] at w ⊢
    refine afterBody_before w b (fun _ => ⟨fun h => ?_, fun h hb => ?_⟩) ?_
    · have : start = 1 := by split_ifs at h hstart; exact hstart
      exact this ▸ hlifts hi
    · have : start = 0 := by rwa [if_pos hb] at hstart
      exact this ▸ hlifts hi
    · rw [if_pos hi] at hcount
      rcases hcount with hcount | ⟨-, hcount⟩ <;> split_ifs at hstart hcount ⊢ <;> omega

end Sys2Proof.Machine
end

section
/-! PROOFS. The receiver's gaps as MinGap values over HISTORY (40_port R91, 43_output_driver R156), and SETL (40_port R93). -/

namespace Sys2Proof.Machine

/-! ### Edges at the end of a history -/

/-- The event at position `a` writes `v` to line `l` from the other level: a rise or a fall. -/
def edgeAt (l : Line) (v : Bool) (h : List Event) (a : Nat) : Prop :=
  h[a]? = some (.line l v) ∧ lineLevel l (h.take a) = !v

/-- `g` is MinGap from the last such edge since the last Init to now. -/
def GapSince (l : Line) (v : Bool) (h : List Event) (g : Nat) : Prop :=
  ∃ a, lastSinceInit (edgeAt l v h) h a ∧ g = minGap h a h.length

/-- What one more event makes of the level HISTORY gives a line. -/
theorem lineLevel_snoc (l : Line) (h : List Event) (e : Event) :
    lineLevel l (h ++ [e]) = match e with
      | .init => false
      | .line m v => if m = l then v else lineLevel l h
      | _ => lineLevel l h := by
  unfold lineLevel
  rw [List.foldl_append]
  cases e <;> rfl

/-- An event before the last is an edge or not whatever the last is. -/
theorem edgeAt_snoc_of_lt {l : Line} {v : Bool} {h : List Event} {e : Event} {a : Nat} (ha : a < h.length) :
    edgeAt l v (h ++ [e]) a ↔ edgeAt l v h a := by
  rw [edgeAt, edgeAt, List.getElem?_append_left ha, List.take_append_of_le_length (Nat.le_of_lt ha)]

theorem edgeAt_snoc_length {l : Line} {v : Bool} {h : List Event} {e : Event} :
    edgeAt l v (h ++ [e]) h.length ↔ e = .line l v ∧ lineLevel l h = !v := by
  simp [edgeAt]

theorem edgeAt_lt {l : Line} {v : Bool} {h : List Event} {a : Nat} (ha : edgeAt l v h a) : a < h.length :=
  (List.getElem?_eq_some_iff.1 ha.1).1

/-- The last edge since the last Init, with one more event: that event, or the last one before it. -/
theorem lastSinceInit_snoc {l : Line} {v : Bool} {h : List Event} {e : Event} {a : Nat} :
    lastSinceInit (edgeAt l v (h ++ [e])) (h ++ [e]) a ↔
      (a = h.length ∧ e = .line l v ∧ lineLevel l h = !v) ∨
      (lastSinceInit (edgeAt l v h) h a ∧ e ≠ .init ∧ ¬ (e = .line l v ∧ lineLevel l h = !v)) := by
  have hinit : ∀ {b}, b < h.length → ((h ++ [e])[b]? ≠ some Event.init ↔ h[b]? ≠ some Event.init) := fun hb => by
    rw [List.getElem?_append_left hb]
  have hlen : (h ++ [e]).length = h.length + 1 := by simp
  unfold lastSinceInit
  constructor
  · rintro ⟨hedge, hlast⟩
    have ha := edgeAt_lt hedge
    rw [hlen] at ha hlast
    rcases Nat.lt_succ_iff_lt_or_eq.1 ha with ha | rfl
    · obtain ⟨hno, hni⟩ := hlast h.length ha (by omega)
      refine .inr ⟨⟨(edgeAt_snoc_of_lt ha).1 hedge, fun b hab hb => ?_⟩, by simpa using hni,
        fun h' => hno (edgeAt_snoc_length.2 h')⟩
      obtain ⟨h1, h2⟩ := hlast b hab (by omega)
      exact ⟨fun h' => h1 ((edgeAt_snoc_of_lt hb).2 h'), (hinit hb).1 h2⟩
    · exact .inl ⟨rfl, edgeAt_snoc_length.1 hedge⟩
  · rintro (⟨rfl, hnew⟩ | ⟨⟨hedge, hlast⟩, hni, hno⟩)
    · exact ⟨edgeAt_snoc_length.2 hnew, fun b hab hb => by omega⟩
    · have ha := edgeAt_lt hedge
      refine ⟨(edgeAt_snoc_of_lt ha).2 hedge, fun b hab hb => ?_⟩
      rw [hlen] at hb
      rcases Nat.lt_succ_iff_lt_or_eq.1 hb with hb | rfl
      · obtain ⟨h1, h2⟩ := hlast b hab hb
        exact ⟨fun h' => h1 ((edgeAt_snoc_of_lt hb).1 h'), (hinit hb).2 h2⟩
      · exact ⟨fun h' => hno (edgeAt_snoc_length.1 h'), by simpa using hni⟩

theorem minGap_snoc_of_lt {h : List Event} {e : Event} {a : Nat} (ha : a < h.length) :
    minGap (h ++ [e]) a (h ++ [e]).length = minGap h a h.length + delaySum [e] := by
  rw [minGap, minGap, List.take_length, List.take_length, List.drop_append_of_le_length ha, delaySum_append]

theorem minGap_snoc_length (h : List Event) (e : Event) : minGap (h ++ [e]) h.length (h ++ [e]).length = 0 := by
  simp [minGap, delaySum]

/-- MinGap from the last edge since the last Init, with one more event: 0 at a new edge, none after an Init, and else what it
was and that event's delay. -/
theorem gapSince_snoc {l : Line} {v : Bool} {h : List Event} {e : Event} {g : Nat} :
    GapSince l v (h ++ [e]) g ↔
      (g = 0 ∧ e = .line l v ∧ lineLevel l h = !v) ∨
      ((e ≠ .init ∧ ¬ (e = .line l v ∧ lineLevel l h = !v)) ∧ ∃ g', GapSince l v h g' ∧ g = g' + delaySum [e]) := by
  unfold GapSince
  simp only [lastSinceInit_snoc]
  constructor
  · rintro ⟨a, ⟨rfl, hnew⟩ | ⟨hlast, hold⟩, rfl⟩
    · exact .inl ⟨minGap_snoc_length h e, hnew⟩
    · exact .inr ⟨hold, _, ⟨a, hlast, rfl⟩, minGap_snoc_of_lt (edgeAt_lt hlast.1)⟩
  · rintro (⟨rfl, hnew⟩ | ⟨hold, g', ⟨a, hlast, rfl⟩, rfl⟩)
    · exact ⟨_, .inl ⟨rfl, hnew⟩, (minGap_snoc_length h e).symm⟩
    · exact ⟨a, .inr ⟨hlast, hold⟩, (minGap_snoc_of_lt (edgeAt_lt hlast.1)).symm⟩

theorem not_gapSince_nil (l : Line) (v : Bool) (g : Nat) : ¬ GapSince l v [] g := by
  rintro ⟨a, ⟨hedge, -⟩, -⟩
  exact absurd (edgeAt_lt hedge) (by simp)

/-! ### The gaps the receiver reads -/

/-- The receiver reads the clocks' levels off HISTORY as `lineLevel` does (log 8). -/
theorem timingOf_clocks (h : List Event) :
    (timingOf h).srclk = lineLevel .srclk h ∧ (timingOf h).rclk = lineLevel .rclk h := by
  induction h using List.reverseRecOn with
  | nil => exact ⟨rfl, rfl⟩
  | append_singleton h e ih =>
    obtain ⟨h1, h2⟩ := ih
    rw [timingOf_snoc, lineLevel_snoc, lineLevel_snoc]
    cases e with
    | line l v => cases l <;> cases v <;> simp only [timingAfter] <;> (try split_ifs) <;> simp_all
    | _ => simp_all [timingAfter, timingStart]

/-- The three gaps of the receiver are those of the last SRCLK fall, SRCLK rise and RCLK rise. -/
theorem timingOf_gaps (h : List Event) (g : Nat) :
    ((timingOf h).gF = some g ↔ GapSince .srclk false h g) ∧ ((timingOf h).gR = some g ↔ GapSince .srclk true h g)
      ∧ ((timingOf h).gL = some g ↔ GapSince .rclk true h g) := by
  induction h using List.reverseRecOn generalizing g with
  | nil => simp [not_gapSince_nil, timingOf, timingStart]
  | append_singleton h e ih =>
    obtain ⟨hs, hr⟩ := timingOf_clocks h
    rw [timingOf_snoc]
    simp only [gapSince_snoc, ← hs, ← hr, ← (ih _).1, ← (ih _).2.1, ← (ih _).2.2]
    cases e with
    | line l v =>
      cases l <;> cases v <;> simp only [timingAfter] <;> (try split_ifs) <;> simp_all [delaySum, eq_comm (a := g)]
    | delay d => simp [timingAfter, delaySum, eq_comm (a := g)]
    | _ => simp [timingAfter, timingStart, delaySum]

/-- Settles O27: a rise and a fall are the two edges. -/
theorem gapsAreMinGaps : Obligations.GapsAreMinGaps := fun h g => timingOf_gaps h g

/-! ### SETL -/

theorem bodyOf_setl {line : BitVec 2} {l : Line} (h : lineOfId line = some l) (v : Bool) :
    bodyOf (.setl line v) = [lineWrite l v] := by
  simp [bodyOf, setlBody, h]

theorem check_setl {line : BitVec 2} {s : State} (hl : line ≠ 3#2) (v : Bool) (hi : s.inited = true) :
    check (.setl line v) s = none := by
  simp [check, Instr.wf, startsConversion, hl, hi]

/-- A line write changes the levels, the receiver and HISTORY alone (R90). -/
theorem writeLine_frame (l : Line) (v : Bool) (s : State) :
    writeLine l v s = { s with
      lvlSer := (writeLine l v s).lvlSer, lvlSrclk := (writeLine l v s).lvlSrclk, lvlRclk := (writeLine l v s).lvlRclk,
      shift := (writeLine l v s).shift, latch := (writeLine l v s).latch, history := s.history ++ [.line l v] } := by
  ext <;> simp

@[simp] theorem levelOfBool_eq_high {v : Bool} : levelOfBool v = .high ↔ v = true := by cases v <;> simp [levelOfBool]

@[simp] theorem levelOfBool_eq_low {v : Bool} : levelOfBool v = .low ↔ v = false := by cases v <;> simp [levelOfBool]

/-- SHIFT after a line write, line by line (R151, R156). -/
theorem receiverReact_shift (l : Line) (v : Bool) (s : State) :
    (receiverReact l (s.lvl l) (levelOfBool v) s).shift = match l with
      | .ser =>
        if s.lvlSer ≠ levelOfBool v ∧ ((s.lvlSrclk = .high ∧ shorter s.timing.gR 10)
            ∨ (s.lvlSrclk = .low ∧ shorter s.timing.gF 2)) then .allUnknown
        else s.shift
      | .srclk =>
        if s.lvlSrclk = .low ∧ v = true then
          if shorter s.timing.gF 2 then .allUnknown else s.shift.shiftIn (triOfLevel s.lvlSer)
        else if s.lvlSrclk = .high ∧ v = false ∧ shorter s.timing.gR 10 then .allUnknown
        else s.shift
      | .rclk => s.shift := by
  cases l with
  | ser => exact reactSer_shift _ _ s
  | srclk =>
    have h := reactSrclk_shift s.lvlSrclk (levelOfBool v) s
    simp only [levelOfBool_eq_high, levelOfBool_eq_low] at h
    exact h
  | rclk => exact reactRclk_shift _ _ s

/-- LATCH after a line write, line by line (R152, R156). -/
theorem receiverReact_latch (l : Line) (v : Bool) (s : State) :
    (receiverReact l (s.lvl l) (levelOfBool v) s).latch = match l with
      | .ser => s.latch
      | .srclk => s.latch
      | .rclk =>
        if s.lvlRclk = .low ∧ v = true then
          if s.lvlSrclk = .high ∨ shorter s.timing.gF 2 then .allUnknown else s.shift
        else if s.lvlRclk = .high ∧ v = false ∧ shorter s.timing.gL 50 then .allUnknown
        else s.latch := by
  cases l with
  | ser => exact reactSer_latch _ _ s
  | srclk => exact reactSrclk_latch _ _ s
  | rclk =>
    have h := reactRclk_latch s.lvlRclk (levelOfBool v) s
    simp only [levelOfBool_eq_high, levelOfBool_eq_low] at h
    exact h

/-- Settles O26: SETL's one micro-step is the line write, with the receiver's reaction to that line. -/
theorem setlDrivesLineAndReceiver : Obligations.SetlDrivesLineAndReceiver := by
  intro line l v s hl hr hq hi
  have hk : check (.setl line v) s = none := check_setl (ne_three_of_lineOfId hl) v hi
  refine ⟨_, exec_single (bodyOf_setl hl v) hr hq hk rfl (writeLine_turns _ l v), fun m => ?_, ?_, ?_, ?_⟩
  · rw [State.lvl_eq (finish_lvlSer _ _) (finish_lvlSrclk _ _) (finish_lvlRclk _ _)]
    exact writeLine_lvl ((begin (.setl line v) s).setTurns (s.turns.drop 2)) l m v
  · rw [finish_shift, State.setTurns_shift, State.nextMicro_shift, writeLine_shift, receiverReact_shift]
    rfl
  · rw [finish_latch, State.setTurns_latch, State.nextMicro_latch, writeLine_latch, receiverReact_latch]
    rfl
  · rw [finish_silent rfl, writeLine_frame]
    rfl

end Sys2Proof.Machine
end

section
/-! PROOFS. SHIFTOUT's micro-steps as the events they record (43_output_driver R158, R159): what a run of them does to the
lines and the receiver. -/

namespace Sys2Proof.Machine

/-! ### The micro-step of an event -/

/-- What the micro-step does that records the event: a line write, or a delay. -/
def emit : Event → State → State
  | .line l v, s => writeLine l v s
  | e, s => s.record e

/-- The micro-steps of a list of events, with no other agent between them. Used through its equations alone, never
evaluated. -/
@[irreducible] def play (es : List Event) (s : State) : State := es.foldl (fun a e => emit e a) s

@[simp] theorem play_nil (s : State) : play [] s = s := by simp [play]

@[simp] theorem play_cons (e : Event) (es : List Event) (s : State) : play (e :: es) s = play es (emit e s) := by
  simp [play]

theorem play_append (es fs : List Event) (s : State) : play (es ++ fs) s = play fs (play es s) := by
  simp [play, List.foldl_append]

theorem emit_line (l : Line) (v : Bool) (s : State) : emit (.line l v) s = writeLine l v s := rfl

theorem emit_delay (d : Nat) (s : State) : emit (.delay d) s = s.record (.delay d) := rfl

/-- What an event's micro-step changes: the levels, the receiver and HISTORY. -/
theorem emit_frame (e : Event) (s : State) :
    emit e s = { s with
      lvlSer := (emit e s).lvlSer, lvlSrclk := (emit e s).lvlSrclk, lvlRclk := (emit e s).lvlRclk,
      shift := (emit e s).shift, latch := (emit e s).latch, history := s.history ++ [e] } := by
  cases e with
  | line l v => exact writeLine_frame l v s
  | _ => rfl

theorem play_frame (es : List Event) (s : State) :
    play es s = { s with
      lvlSer := (play es s).lvlSer, lvlSrclk := (play es s).lvlSrclk, lvlRclk := (play es s).lvlRclk,
      shift := (play es s).shift, latch := (play es s).latch, history := s.history ++ es } := by
  induction es generalizing s with
  | nil => simp
  | cons e es ih =>
    have hes := ih (emit e s)
    have he := emit_frame e s
    rw [play_cons]
    generalize play es (emit e s) = w at *
    generalize emit e s = a at *
    conv_lhs => rw [hes, he]
    simp

@[simp] theorem emit_pattern (e : Event) (s : State) : (emit e s).pattern = s.pattern := by rw [emit_frame]

@[simp] theorem emit_turns (e : Event) (s : State) : (emit e s).turns = s.turns := by rw [emit_frame]

@[simp] theorem emit_ms (e : Event) (s : State) : (emit e s).ms = s.ms := by rw [emit_frame]

@[simp] theorem emit_cur (e : Event) (s : State) : (emit e s).cur = s.cur := by rw [emit_frame]

@[simp] theorem emit_pending (e : Event) (s : State) : (emit e s).pending = s.pending := by rw [emit_frame]

@[simp] theorem emit_adcState (e : Event) (s : State) : (emit e s).adcState = s.adcState := by rw [emit_frame]

@[simp] theorem emit_adcRes (e : Event) (s : State) : (emit e s).adcRes = s.adcRes := by rw [emit_frame]

@[simp] theorem emit_history (e : Event) (s : State) : (emit e s).history = s.history ++ [e] := by rw [emit_frame]

theorem emit_timing (e : Event) (s : State) : (emit e s).timing = timingAfter s.timing e := by
  simp [State.timing]

/-! ### The fields an event's micro-step does not read -/

/-- The same state, but for what the converter, the schedule and the sequencer's CUR and MS are: the events the receiver
does not see may differ too. -/
structure Same (a u : State) : Prop where
  frame : u = { a with
    adcState := u.adcState, adcRes := u.adcRes, history := u.history, cur := u.cur, ms := u.ms, pending := u.pending,
    turns := u.turns }
  timing : u.timing = a.timing

theorem Same.refl (a : State) : Same a a := ⟨rfl, rfl⟩

theorem Same.trans {a b c : State} (h : Same a b) (h' : Same b c) : Same a c := by
  refine ⟨?_, h'.timing.trans h.timing⟩
  conv_lhs => rw [h'.frame, h.frame]

theorem Same.of_converter {a b : State} (m : ConverterMoved a b) : Same a b := by
  refine ⟨?_, m.timing⟩
  conv_lhs => rw [m.frame]
  rw [m.cur, m.ms, m.pending]

theorem Same.nextMicro (a : State) : Same a a.nextMicro := ⟨rfl, rfl⟩

theorem Same.begin (i : Instr) (a : State) : Same a (begin i a) := ⟨rfl, rfl⟩

theorem Same.raw {a u : State} (h : Same a u) : u.raw = a.raw := by rw [h.frame]
theorem Same.power {a u : State} (h : Same a u) : u.power = a.power := by rw [h.frame]
theorem Same.pattern {a u : State} (h : Same a u) : u.pattern = a.pattern := by rw [h.frame]
theorem Same.inited {a u : State} (h : Same a u) : u.inited = a.inited := by rw [h.frame]
theorem Same.lvlSer {a u : State} (h : Same a u) : u.lvlSer = a.lvlSer := by rw [h.frame]
theorem Same.lvlSrclk {a u : State} (h : Same a u) : u.lvlSrclk = a.lvlSrclk := by rw [h.frame]
theorem Same.lvlRclk {a u : State} (h : Same a u) : u.lvlRclk = a.lvlRclk := by rw [h.frame]
theorem Same.shift {a u : State} (h : Same a u) : u.shift = a.shift := by rw [h.frame]
theorem Same.latch {a u : State} (h : Same a u) : u.latch = a.latch := by rw [h.frame]
theorem Same.cpc {a u : State} (h : Same a u) : u.cpc = a.cpc := by rw [h.frame]
theorem Same.responses {a u : State} (h : Same a u) : u.responses = a.responses := by rw [h.frame]
theorem Same.faultCode {a u : State} (h : Same a u) : u.faultCode = a.faultCode := by rw [h.frame]

/-- The receiver's reaction reads the lines, the receiver and the gaps alone. -/
theorem receiverReact_congr {a u : State} (h : Same a u) (l : Line) (v : Bool) :
    (receiverReact l (u.lvl l) (levelOfBool v) u).shift = (receiverReact l (a.lvl l) (levelOfBool v) a).shift
      ∧ (receiverReact l (u.lvl l) (levelOfBool v) u).latch = (receiverReact l (a.lvl l) (levelOfBool v) a).latch := by
  simp only [receiverReact_shift, receiverReact_latch, h.lvlSer, h.lvlSrclk, h.lvlRclk, h.shift, h.latch, h.timing,
    and_self]

theorem Same.writeLine {a u : State} (h : Same a u) (l : Line) (v : Bool) : Same (writeLine l v a) (writeLine l v u) := by
  refine ⟨?_, by rw [State.timing_writeLine, State.timing_writeLine, h.timing]⟩
  obtain ⟨hshift, hlatch⟩ := receiverReact_congr h l v
  have hlvl : ∀ m, (Machine.writeLine l v u).lvl m = (Machine.writeLine l v a).lvl m := fun m => by
    rw [writeLine_lvl, writeLine_lvl, State.lvl_eq h.lvlSer h.lvlSrclk h.lvlRclk]
  have hser := hlvl .ser
  have hsrclk := hlvl .srclk
  have hrclk := hlvl .rclk
  simp only [State.lvl] at hser hsrclk hrclk
  have hu := h.frame
  generalize u.adcState = x1, u.adcRes = x2, u.history = x3, u.cur = x4, u.ms = x5, u.pending = x6, u.turns = x7 at hu
  subst hu
  ext <;> simp [hshift, hlatch, hser, hsrclk, hrclk]

theorem Same.play_nil (a : State) : Same (play [] a) a := by rw [Machine.play_nil]; exact .refl a

theorem Same.record {a u : State} (h : Same a u) (e : Event) : Same (a.record e) (u.record e) := by
  refine ⟨?_, by rw [State.timing_record, State.timing_record, h.timing]⟩
  conv_lhs => rw [h.frame]
  rfl

theorem Same.emit {a u : State} (h : Same a u) (e : Event) : Same (emit e a) (emit e u) := by
  cases e with
  | line l v => exact h.writeLine l v
  | _ => exact h.record _

theorem Same.play {a u : State} (h : Same a u) (es : List Event) : Same (play es a) (play es u) := by
  induction es generalizing a u with
  | nil => simpa using h
  | cons e es ih => simpa using ih (h.emit e)

/-! ### A run of such micro-steps -/

/-- Where PATTERN is `b` the micro-steps `l` are those of the events `es`, in order. -/
def Plays (b : Byte) (l : List MicroStep) (es : List Event) : Prop :=
  List.Forall₂ (fun m e => ∀ a : State, a.pattern = some b → m a = .moved (emit e a)) l es

/-- SHIFTOUT's 43 micro-steps are those of its 43 events (R158, R159). -/
theorem plays_shiftoutBody (b : Byte) : Plays b shiftoutBody (shiftoutEvents b) := by
  have hbit (i : Nat) : Plays b (bitSteps i) (bitEvents (b.getLsbD i)) :=
    .cons (fun a ha => writeBit_eq ha i) <| .cons (fun _ _ => rfl) <| .cons (fun _ _ => rfl) <|
      .cons (fun _ _ => rfl) <| .cons (fun _ _ => rfl) .nil
  have hlatch : Plays b latchSteps latchEvents :=
    .cons (fun _ _ => rfl) <| .cons (fun _ _ => rfl) <| .cons (fun _ _ => rfl) .nil
  have hbits (is : List Nat) :
      Plays b (is.flatMap bitSteps) (is.flatMap fun i => bitEvents (b.getLsbD i)) := by
    induction is with
    | nil => exact .nil
    | cons i is ih => exact List.rel_append (hbit i) ih
  exact List.rel_append (hbits _) hlatch

/-- The micro-steps of events, run on a quiet schedule: MS and the schedule go on with them (R27). -/
theorem runMicros_plays_quiet {b : Byte} {l : List MicroStep} {es : List Event} {s : State} (h : Plays b l es)
    (hp : s.pattern = some b) (hq : quiet l.length s.turns = true) :
    runMicros l s = .done { play es s with ms := s.ms + l.length, turns := s.turns.drop l.length } := by
  suffices key : ∃ u, runMicros l s = .done u ∧ Same (play es s) u ∧ u.adcState = s.adcState ∧ u.adcRes = s.adcRes
      ∧ u.history = s.history ++ es ∧ u.cur = s.cur ∧ u.pending = s.pending ∧ u.ms = s.ms + l.length
      ∧ u.turns = s.turns.drop l.length by
    obtain ⟨u, hu, hsame, h1, h2, h3, h4, h5, h6, h7⟩ := key
    rw [hu, hsame.frame, h1, h2, h3, h4, h5, h6, h7, play_frame es s]
  induction h generalizing s with
  | nil => exact ⟨s, rfl, .play_nil s, by simp⟩
  | @cons m e l es hm hrest ih =>
    rw [List.length_cons] at hq ⊢
    have hq1 := quiet_mono hq (Nat.succ_le_succ (Nat.zero_le _))
    obtain ⟨u, hu, hsame, h1, h2, h3, h4, h5, h6, h7⟩ := ih (s := (emit e (s.setTurns (s.turns.drop 1))).nextMicro)
      (by simpa using hp) (by simpa [Schedule.drop_succ] using (quiet_succ.1 hq).2)
    have hturns : Same s (s.setTurns (s.turns.drop 1)) := ⟨rfl, rfl⟩
    refine ⟨u, (runMicros_cons_quiet hq1 (hm _ hp)).trans hu, ?_, ?_⟩
    · rw [play_cons]
      exact (((hturns.emit e).trans (.nextMicro _)).play es).trans hsame
    · simp only [State.nextMicro_turns, emit_turns, State.setTurns_turns, Schedule.drop_drop] at h7
      simp [h1, h2, h3, h4, h5, h6, h7, Nat.add_comm 1, Nat.add_assoc]

/-- The same under any schedule with no reset: the converter may complete meanwhile, and does not where none is in flight. -/
theorem runMicros_plays {b : Byte} {l : List MicroStep} {es : List Event} {s : State} (h : Plays b l es)
    (hp : s.pattern = some b) (hn : noReset s.turns) :
    ∃ u, runMicros l s = .done u ∧ Same (play es s) u ∧ noReset u.turns
      ∧ (s.adcState ≠ .busy → u.adcState = s.adcState ∧ u.adcRes = s.adcRes ∧ u.history = s.history ++ es) := by
  induction h generalizing s with
  | nil => exact ⟨s, rfl, .play_nil s, hn, fun _ => by simp⟩
  | @cons m e l es hm hrest ih =>
    obtain ⟨t, mv, hnt, hrun, -, -⟩ := runMicros_cons_noReset m l hn
    have hpt : t.pattern = some b := mv.pattern.trans hp
    obtain ⟨u, hu, hsame, hnu, hadc⟩ := ih (s := (emit e t).nextMicro) (by simpa using hpt) (by simpa using hnt)
    refine ⟨u, (hrun _ (hm t hpt)).trans hu, ?_, hnu, fun hb => ?_⟩
    · rw [play_cons]
      exact ((((Same.of_converter mv).emit e).trans (.nextMicro _)).play es).trans hsame
    · obtain ⟨h1, h2, h3⟩ := mv.adc_of_not_busy hb
      obtain ⟨g1, g2, g3⟩ := hadc (by simpa [h1] using hb)
      simp [g1, g2, g3, h1, h2, h3]

end Sys2Proof.Machine
end

section
/-! PROOFS. What SHIFTOUT's events do to the lines and the receiver (43_output_driver R151 to R160, R164). -/

namespace Sys2Proof.Machine

/-! ### The lines and the receiver after one event -/

theorem writeLine_lvlSer (l : Line) (v : Bool) (s : State) :
    (writeLine l v s).lvlSer = if l = .ser then levelOfBool v else s.lvlSer := by
  simpa [State.lvl, eq_comm] using writeLine_lvl s l .ser v

theorem writeLine_lvlSrclk (l : Line) (v : Bool) (s : State) :
    (writeLine l v s).lvlSrclk = if l = .srclk then levelOfBool v else s.lvlSrclk := by
  simpa [State.lvl, eq_comm] using writeLine_lvl s l .srclk v

theorem writeLine_lvlRclk (l : Line) (v : Bool) (s : State) :
    (writeLine l v s).lvlRclk = if l = .rclk then levelOfBool v else s.lvlRclk := by
  simpa [State.lvl, eq_comm] using writeLine_lvl s l .rclk v

theorem triOfLevel_levelOfBool (v : Bool) : triOfLevel (levelOfBool v) = triOfBool v := by cases v <;> rfl

/-! ### One bit -/

/-- SRCLK is low and has settled (R156, R160): the next shift edge and the next latch edge count. -/
structure SrclkSettled (s : State) : Prop where
  low : s.lvlSrclk = .low
  settled : shorter s.timing.gF Config.tClkLow = false

/-- After the five events of a bit SRCLK is low and settled, whatever it was before (R158); SER holds the bit, and RCLK and
LATCH are untouched. -/
theorem play_bitEvents (v : Bool) (s : State) :
    SrclkSettled (play (bitEvents v) s) ∧ (play (bitEvents v) s).lvlSer = levelOfBool v
      ∧ (play (bitEvents v) s).lvlRclk = s.lvlRclk ∧ (play (bitEvents v) s).latch = s.latch := by
  refine ⟨⟨?_, ?_⟩, ?_, ?_, ?_⟩
  · simp [bitEvents, emit_line, emit_delay, writeLine_lvlSrclk]
  · simpa [bitEvents, emit_line, emit_delay, timingAfter] using shorter_map_add _ _ _ (Nat.le_refl _)
  · simp [bitEvents, emit_line, emit_delay, writeLine_lvlSer]
  · simp [bitEvents, emit_line, emit_delay, writeLine_lvlRclk]
  · simp [bitEvents, emit_line, emit_delay, receiverReact_latch]

/-- What the pulse of a bit leaves of SHIFT (R151, R153, R156), the data write having left `d`: the fall meets the high hold,
so that the rise alone counts. -/
theorem play_bitEvents_shift (v : Bool) (s : State) :
    (play (bitEvents v) s).shift =
      if s.lvlSrclk = .low then
        if shorter s.timing.gF Config.tClkLow then .allUnknown else s.shift.shiftIn (triOfBool v)
      else if s.lvlSer ≠ levelOfBool v ∧ s.lvlSrclk = .high ∧ shorter s.timing.gR Config.tClkHigh then .allUnknown
      else s.shift := by
  have hfall (g : Option Nat) : shorter (g.map (· + Config.tClkHigh)) 10 = false := shorter_map_add g _ _ (Nat.le_refl _)
  simp only [bitEvents, play_cons, play_nil, emit_line, emit_delay, State.record_shift, writeLine_shift,
    receiverReact_shift, State.record_lvlSrclk, State.record_lvlSer, writeLine_lvlSrclk, writeLine_lvlSer,
    State.timing_record, State.timing_writeLine, timingAfter, hfall]
  cases s.lvlSrclk <;> cases shorter s.timing.gF 2 <;> simp [triOfLevel_levelOfBool]

/-- SHIFT[0] after the first bit: the bit itself, unless SRCLK fell too short a time ago or was high (R156, R164). -/
theorem play_bitEvents_b0 (v : Bool) (s : State) (hz : s.lvlSrclk ≠ .z) :
    (play (bitEvents v) s).shift.b0 =
      if s.lvlSrclk = .high then
        if s.lvlSer ≠ levelOfBool v ∧ shorter s.timing.gR Config.tClkHigh then .unknown else s.shift.b0
      else if shorter s.timing.gF Config.tClkLow then .unknown else triOfBool v := by
  rw [play_bitEvents_shift]
  cases hl : s.lvlSrclk with
  | low => simp only [if_true, reduceCtorEq, if_false]; split_ifs <;> rfl
  | high => simp only [true_and, if_true, reduceCtorEq, if_false]; split_ifs <;> rfl
  | z => exact absurd hl hz

/-! ### The bits after the first, and the latch pulse -/

/-- From a settled SRCLK, bit after bit enters SHIFT. -/
theorem play_bits_settled (vs : List Bool) {s : State} (h : SrclkSettled s) :
    SrclkSettled (play (vs.flatMap bitEvents) s)
      ∧ (play (vs.flatMap bitEvents) s).shift = vs.foldl (fun r v => r.shiftIn (triOfBool v)) s.shift := by
  induction vs generalizing s with
  | nil => simpa using h
  | cons v vs ih =>
    obtain ⟨h1, h2⟩ := ih (play_bitEvents v s).1
    rw [List.flatMap_cons, play_append]
    refine ⟨h1, ?_⟩
    rw [h2, play_bitEvents_shift, if_pos h.low, h.settled]
    rfl

/-- Bits change SER and SRCLK alone of the lines, and leave LATCH as it is (R163). -/
theorem play_bits_frame (vs : List Bool) (s : State) :
    (play (vs.flatMap bitEvents) s).lvlRclk = s.lvlRclk ∧ (play (vs.flatMap bitEvents) s).latch = s.latch := by
  induction vs generalizing s with
  | nil => simp
  | cons v vs ih =>
    obtain ⟨-, -, h1, h2⟩ := play_bitEvents v s
    rw [List.flatMap_cons, play_append]
    exact ⟨(ih _).1.trans h1, (ih _).2.trans h2⟩

/-- The latch pulse from a settled SRCLK (R152, R158, R164): LATCH takes SHIFT where RCLK was low, and keeps its value where
there is no rise; the fall always meets the latch hold. -/
theorem play_latchEvents {s : State} (h : SrclkSettled s) :
    (play latchEvents s).latch = (if s.lvlRclk = .low then s.shift else s.latch)
      ∧ (play latchEvents s).shift = s.shift ∧ (play latchEvents s).lvlSer = s.lvlSer
      ∧ (play latchEvents s).lvlRclk = .low ∧ SrclkSettled (play latchEvents s) := by
  have hfall (g : Option Nat) : shorter (g.map (· + Config.tLatchHigh)) 50 = false :=
    shorter_map_add g _ _ (Nat.le_refl _)
  have hF : shorter s.timing.gF 2 = false := h.settled
  refine ⟨?_, ?_, ?_, ?_, ⟨?_, ?_⟩⟩
  · simp only [latchEvents, play_cons, play_nil, emit_line, emit_delay, State.record_latch, writeLine_latch,
      receiverReact_latch, State.timing_record, timingAfter, hfall, h.low, hF]
    simp
  · simp [latchEvents, emit_line, emit_delay, receiverReact_shift]
  · simp [latchEvents, emit_line, emit_delay, writeLine_lvlSer]
  · simp [latchEvents, emit_line, emit_delay, writeLine_lvlRclk]
  · simp [latchEvents, emit_line, emit_delay, writeLine_lvlSrclk, h.low]
  · have hg : (timingAfter s.timing (.line .rclk true)).gF = s.timing.gF := by
      simp only [timingAfter]; split_ifs <;> rfl
    have hrise : shorter (timingAfter s.timing (.line .rclk true)).gF Config.tClkLow = false := by
      rw [hg]; exact h.settled
    simpa [latchEvents, emit_line, emit_delay, timingAfter] using not_shorter_map_add hrise 50

/-! ### All of SHIFTOUT -/

/-- The events of SHIFTOUT: the first bit, the seven others, the latch pulse. -/
theorem shiftoutEvents_eq (b : Byte) :
    shiftoutEvents b = bitEvents (b.getLsbD 0)
      ++ (([1, 2, 3, 4, 5, 6, 7].map b.getLsbD).flatMap bitEvents ++ latchEvents) := by
  simp [shiftoutEvents]

/-- What SHIFTOUT leaves on the lines and in the receiver from any entry: bits 1 to 7 of the byte in SHIFT[6:0], and in
SHIFT[7] what the first pulse put in SHIFT[0]. -/
theorem play_shiftoutEvents (b : Byte) (s : State) :
    (play (shiftoutEvents b) s).shift
        = { Tri8.bitrev (Tri8.ofByte b) with b7 := (play (bitEvents (b.getLsbD 0)) s).shift.b0 }
      ∧ (play (shiftoutEvents b) s).latch
        = (if s.lvlRclk = .low then (play (shiftoutEvents b) s).shift else s.latch)
      ∧ (play (shiftoutEvents b) s).lvlSer = levelOfBool (b.getLsbD 7)
      ∧ (play (shiftoutEvents b) s).lvlRclk = .low ∧ SrclkSettled (play (shiftoutEvents b) s) := by
  rw [shiftoutEvents_eq, play_append, play_append]
  obtain ⟨hset, -, hrclk, hlatch⟩ := play_bitEvents (b.getLsbD 0) s
  generalize play (bitEvents (b.getLsbD 0)) s = u at *
  have hser : (play (([1, 2, 3, 4, 5, 6, 7].map b.getLsbD).flatMap bitEvents) u).lvlSer = levelOfBool (b.getLsbD 7) := by
    have hlast : ([1, 2, 3, 4, 5, 6, 7].map b.getLsbD).flatMap bitEvents
        = ([1, 2, 3, 4, 5, 6].map b.getLsbD).flatMap bitEvents ++ bitEvents (b.getLsbD 7) := by simp
    rw [hlast, play_append]
    exact (play_bitEvents _ _).2.1
  obtain ⟨hset', hshift'⟩ := play_bits_settled ([1, 2, 3, 4, 5, 6, 7].map b.getLsbD) hset
  obtain ⟨hrclk', hlatch'⟩ := play_bits_frame ([1, 2, 3, 4, 5, 6, 7].map b.getLsbD) u
  generalize play (([1, 2, 3, 4, 5, 6, 7].map b.getLsbD).flatMap bitEvents) u = w at *
  obtain ⟨h1, h2, h3, h4, h5⟩ := play_latchEvents hset'
  refine ⟨?_, ?_, h3.trans hser, h4, h5⟩
  · rw [h2, hshift']; rfl
  · rw [h1, h2, hrclk', hrclk, hlatch', hlatch]

/-- From every entry with SRCLK driven, SHIFTOUT leaves what `shiftedOut` and `latchedOut` say. -/
theorem play_shiftoutEvents_driven (b : Byte) {s : State} (hz : s.lvlSrclk ≠ .z) :
    (play (shiftoutEvents b) s).shift = shiftedOut s b ∧ (play (shiftoutEvents b) s).latch = latchedOut s b := by
  obtain ⟨hshift, hlatch, -⟩ := play_shiftoutEvents b s
  rw [play_bitEvents_b0 _ _ hz] at hshift
  have h : (play (shiftoutEvents b) s).shift = shiftedOut s b := hshift
  exact ⟨h, by rw [hlatch, h]; rfl⟩

/-- `shiftedOut` and `latchedOut` read the lines, the receiver and the gaps alone. -/
theorem shiftedOut_congr {s u : State} (h1 : u.lvlSer = s.lvlSer) (h2 : u.lvlSrclk = s.lvlSrclk) (h3 : u.shift = s.shift)
    (h4 : u.timing = s.timing) (b : Byte) : shiftedOut u b = shiftedOut s b := by
  simp only [shiftedOut, h1, h2, h3, h4]

theorem latchedOut_congr {s u : State} (h1 : u.lvlSer = s.lvlSer) (h2 : u.lvlSrclk = s.lvlSrclk)
    (h3 : u.lvlRclk = s.lvlRclk) (h4 : u.shift = s.shift) (h5 : u.latch = s.latch) (h6 : u.timing = s.timing) (b : Byte) :
    latchedOut u b = latchedOut s b := by
  simp only [latchedOut, shiftedOut_congr h1 h2 h4 h6, h3, h5]

theorem State.settled_iff {s : State} : s.settled = true ↔ SrclkSettled s ∧ s.lvlRclk = .low := by
  simp only [State.settled, Bool.and_eq_true, beq_iff_eq, Bool.not_eq_true']
  exact ⟨fun ⟨⟨h1, h2⟩, h3⟩ => ⟨⟨h1, h3⟩, h2⟩, fun ⟨⟨h1, h3⟩, h2⟩ => ⟨⟨h1, h2⟩, h3⟩⟩

/-- From a settled entry both are the bit reversal of the byte (R160). -/
theorem shiftedOut_settled {s : State} (h : s.settled = true) (b : Byte) :
    shiftedOut s b = (Tri8.ofByte b).bitrev ∧ latchedOut s b = (Tri8.ofByte b).bitrev := by
  obtain ⟨⟨hlow, hF⟩, hr⟩ := State.settled_iff.1 h
  have hs : shiftedOut s b = (Tri8.ofByte b).bitrev := by
    simp [shiftedOut, hlow, hF, Tri8.bitrev, Tri8.ofByte]
  exact ⟨hs, by rw [latchedOut, if_pos hr, hs]⟩

end Sys2Proof.Machine
end

section
/-! PROOFS. SHIFTOUT (43_output_driver R158 to R165). -/

namespace Sys2Proof.Machine

/-! ### The command -/

/-- SHIFTOUT completes under any schedule with no reset, and leaves what its events do, the converter's moves apart. -/
theorem exec_shiftout {s : State} {b : Byte} (hr : s.ready = true) (hi : s.inited = true) (hp : s.pattern = some b)
    (hn : noReset s.turns) :
    ∃ a, exec .shiftout s = .next (finish .shiftout a) ∧ Same (play (shiftoutEvents b) s) a := by
  obtain ⟨a, hgo, m, hna⟩ := awaitTurn_of_noReset s hn
  have hk : check .shiftout a = none := by simp [check_shiftout (m.inited.trans hi), m.pattern, hp]
  obtain ⟨u, hu, hsame, hnu, -⟩ := runMicros_plays (s := begin .shiftout a) (plays_shiftoutBody b)
    (m.pattern.trans hp) hna
  obtain ⟨w, hw, mw, -⟩ := awaitTurn_of_noReset u hnu
  refine ⟨w, ?_, ((((Same.of_converter m).trans (.begin _ _)).play _).trans hsame).trans (.of_converter mw)⟩
  rw [exec_of_go hr hgo, hk]
  simp [bodyOf, hu, afterBody, doneOf, complete, hw]

/-- On a quiet schedule SHIFTOUT leaves exactly what its events do (R158, R159). -/
theorem exec_shiftout_quiet {s : State} {b : Byte} (hr : s.ready = true) (hi : s.inited = true)
    (hp : s.pattern = some b) (hq : quiet 45 s.turns = true) :
    exec .shiftout s = .next { s with
      lvlSer := levelOfBool (b.getLsbD 7), lvlSrclk := .low, lvlRclk := .low,
      shift := (play (shiftoutEvents b) s).shift, latch := (play (shiftoutEvents b) s).latch,
      history := s.history ++ shiftoutEvents b, cpc := s.cpc + 1, cur := none, ms := 0, pending := none,
      turns := s.turns.drop 45 } := by
  have hk : check .shiftout (s.setTurns (s.turns.drop 1)) = none := by
    rw [check_turns, check_shiftout hi]; simp [hp]
  have hbegin : Same s (begin .shiftout (s.setTurns (s.turns.drop 1))) := ⟨rfl, rfl⟩
  have hrun := runMicros_plays_quiet (s := begin .shiftout (s.setTurns (s.turns.drop 1))) (plays_shiftoutBody b) hp
    (quiet_drop 1 (quiet_mono hq (by decide)))
  have hplay := hbegin.play (shiftoutEvents b)
  obtain ⟨-, -, hser, hrclk, hlow, -⟩ := play_shiftoutEvents b s
  rw [exec_of_go hr (awaitTurn_quiet (quiet_mono hq (by decide))), hk]
  simp only [bodyOf, hrun, afterBody, doneOf, reduceCtorEq, if_false]
  rw [complete_quiet (by simpa [shiftoutBody, bitSteps, latchSteps] using quiet_drop 44 hq), finish_silent rfl]
  rw [play_frame (shiftoutEvents b) (begin _ _), hplay.lvlSer, hplay.lvlSrclk, hplay.lvlRclk, hplay.shift, hplay.latch,
    hser, hlow, hrclk]
  simp [shiftoutBody, bitSteps, latchSteps]

/-- Settles O43: the lines, HISTORY and the sequencer's fields as SHIFTOUT's events leave them. -/
theorem shiftoutCompletes : Obligations.ShiftoutCompletes := fun _ _ hr hi hp hq =>
  ⟨_, exec_shiftout_quiet hr hi hp hq, rfl⟩

/-! ### What it leaves in the receiver -/

/-- Settles O50: the receiver as SHIFTOUT's events leave it from an entry with SRCLK driven, and the fields they do not
write. -/
theorem shiftoutFromEveryEntry : Obligations.ShiftoutFromEveryEntry := by
  intro s b hr hd hp hn
  simp only [State.driven, Bool.and_eq_true, bne_iff_ne] at hd
  obtain ⟨⟨⟨hi, -⟩, hz⟩, -⟩ := hd
  obtain ⟨a, ha, h⟩ := exec_shiftout hr hi hp hn
  obtain ⟨hshift, hlatch⟩ := play_shiftoutEvents_driven b hz
  obtain ⟨-, -, hser, hrclk, hlow, -⟩ := play_shiftoutEvents b s
  have hf : s.faultCode = 0#3 := by simpa [State.faulted] using (State.ready_iff.1 hr).1
  refine ⟨_, ha, ?_⟩
  simp only [finish_shift, finish_latch, finish_lvlSer, finish_lvlSrclk, finish_lvlRclk, finish_raw, finish_power,
    finish_pattern, finish_responses, finish_faultCode, finish_cpc, finish_cur, respond_silent (i := .shiftout) rfl,
    h.shift, h.latch, h.lvlSer, h.lvlSrclk, h.lvlRclk, h.raw, h.power, h.pattern, h.responses, h.faultCode, h.cpc]
  refine ⟨hshift, hlatch, hser, hlow, hrclk, ?_⟩
  rw [play_frame]
  exact ⟨rfl, rfl, hp, rfl, hf, rfl, trivial⟩

/-- Settles O44: from a settled entry the receiver shows the byte, and the entry condition holds again. -/
theorem settledShiftoutShowsThePattern : Obligations.SettledShiftoutShowsThePattern := by
  intro s b hr hi hp hs hn
  obtain ⟨a, ha, h⟩ := exec_shiftout hr hi hp hn
  obtain ⟨⟨hsrclk, -⟩, -⟩ := State.settled_iff.1 hs
  obtain ⟨hshift, hlatch⟩ := play_shiftoutEvents_driven b (s := s) (by simp [hsrclk])
  obtain ⟨hs1, hs2⟩ := shiftedOut_settled hs b
  rw [hs1] at hshift
  rw [hs2] at hlatch
  obtain ⟨-, -, hser, hrclk, hlow, hF⟩ := play_shiftoutEvents b s
  have hf : s.faultCode = 0#3 := by simpa [State.faulted] using (State.ready_iff.1 hr).1
  have hsettled : (finish .shiftout a).settled = true := by
    have ht : (finish .shiftout a).timing = a.timing := State.timing_congr (by simp)
    refine State.settled_iff.2 ⟨⟨?_, ?_⟩, ?_⟩
    · rw [finish_lvlSrclk, h.lvlSrclk, hlow]
    · rw [ht, h.timing, hF]
    · rw [finish_lvlRclk, h.lvlRclk, hrclk]
  refine ⟨_, ha, ?_⟩
  simp only [State.seg, finish_shift, finish_latch, finish_lvlSer, finish_lvlSrclk, finish_lvlRclk, finish_raw,
    finish_power, finish_pattern, finish_responses, finish_faultCode, finish_cpc, finish_cur,
    respond_silent (i := .shiftout) rfl, h.shift, h.latch, h.lvlSer, h.lvlSrclk, h.lvlRclk, h.raw, h.power, h.pattern,
    h.responses, h.faultCode, h.cpc]
  refine ⟨hshift, hlatch, by rw [hlatch]; rfl, hser, hlow, hrclk, hsettled, ?_⟩
  rw [play_frame]
  exact ⟨rfl, rfl, hp, rfl, trivial, rfl, hf⟩

/-- Settles O48: the case of `shiftedOut` with SRCLK high. -/
theorem shiftoutLosesAShiftEdge : Obligations.ShiftoutLosesAShiftEdge := by
  intro s b hr hi hp hn hsrclk hrclk
  obtain ⟨a, ha, h⟩ := exec_shiftout hr hi hp hn
  obtain ⟨hshift, hlatch⟩ := play_shiftoutEvents_driven b (s := s) (by simp [hsrclk])
  refine ⟨_, ha, ?_, ?_⟩
  · rw [finish_latch, finish_shift, h.latch, h.shift, hshift, hlatch, latchedOut, if_pos hrclk]
  · rw [finish_shift, h.shift, hshift, shiftedOut, if_pos hsrclk]
    rfl

/-- Settles O49: with RCLK high the latch pulse has no rise. -/
theorem shiftoutLosesTheLatchEdge : Obligations.ShiftoutLosesTheLatchEdge := by
  intro s b hr hi hp hn hrclk
  obtain ⟨a, ha, h⟩ := exec_shiftout hr hi hp hn
  obtain ⟨-, hlatch, -, hlow, -⟩ := play_shiftoutEvents b s
  rw [hrclk] at hlatch
  have hl : (finish .shiftout a).latch = s.latch := by rw [finish_latch, h.latch]; exact hlatch
  exact ⟨_, ha, hl, hl, by rw [finish_lvlRclk, h.lvlRclk, hlow]⟩

/-- On a quiet schedule and from a settled entry, SHIFTOUT puts the bit reversal of the byte in SHIFT and LATCH. -/
theorem exec_shiftout_settled {s : State} {b : Byte} (hr : s.ready = true) (hi : s.inited = true)
    (hp : s.pattern = some b) (hs : s.settled = true) (hq : quiet 45 s.turns = true) :
    exec .shiftout s = .next { s with
      lvlSer := levelOfBool (b.getLsbD 7), lvlSrclk := .low, lvlRclk := .low,
      shift := (Tri8.ofByte b).bitrev, latch := (Tri8.ofByte b).bitrev,
      history := s.history ++ shiftoutEvents b, cpc := s.cpc + 1, cur := none, ms := 0, pending := none,
      turns := s.turns.drop 45 } := by
  obtain ⟨⟨hsrclk, -⟩, -⟩ := State.settled_iff.1 hs
  obtain ⟨hshift, hlatch⟩ := play_shiftoutEvents_driven b (s := s) (by simp [hsrclk])
  obtain ⟨hs1, hs2⟩ := shiftedOut_settled hs b
  rw [exec_shiftout_quiet hr hi hp hq, hshift, hlatch, hs1, hs2]

/-- With both clocks low after SHIFTOUT's events the entry condition holds again. -/
theorem settled_of_history {s t : State} {b : Byte} (hsrclk : t.lvlSrclk = .low) (hrclk : t.lvlRclk = .low)
    (hh : t.history = s.history ++ shiftoutEvents b) : t.settled = true := by
  obtain ⟨-, -, -, -, -, hF⟩ := play_shiftoutEvents b s
  have ht : t.timing = (play (shiftoutEvents b) s).timing := State.timing_congr (by rw [play_frame, hh])
  exact State.settled_iff.2 ⟨⟨hsrclk, by rw [ht, hF]⟩, hrclk⟩

/-- Settles O51: both runs start from a settled entry, record SHIFTOUT's events and leave the byte's bit reversal. -/
theorem shiftoutCarriesNoHiddenState : Obligations.ShiftoutCarriesNoHiddenState := by
  intro s t b hr hi hp hs hq ht
  rw [exec_shiftout_settled hr hi hp hs (quiet_mono hq (by decide))] at ht
  cases ht
  refine ⟨_, exec_shiftout_settled (State.ready_iff.2 ⟨(State.ready_iff.1 hr).1, rfl⟩) hi hp
    (settled_of_history rfl rfl rfl) (quiet_drop 45 hq), ?_⟩
  simp

/-! ### Its events in HISTORY -/

/-- MinGap between events that are all in the last part of a history is that part's own (R91). -/
theorem minGap_append (h es : List Event) (x y : Nat) :
    minGap (h ++ es) (h.length + x) (h.length + y) = minGap es x y := by
  rw [minGap, minGap, List.take_length_add_append, Nat.add_assoc, List.drop_length_add_append]

/-- The delay an event stands for (R91). -/
def delayOf : Event → Nat
  | .delay t => t
  | _ => 0

theorem delaySum_eq_sum (h : List Event) : delaySum h = (h.map delayOf).sum := by
  induction h with
  | nil => rfl
  | cons e h ih => cases e <;> simp [delaySum, delayOf, ih]

/-- The delays of SHIFTOUT's 43 events: 10 and 2 for every bit and 50 for the latch pulse (R158). -/
def shiftoutDelays : List Nat := (List.replicate 8 [0, 0, 10, 0, 2]).flatten ++ [0, 50, 0]

/-- The delays do not depend on the byte. -/
theorem minGap_shiftoutEvents (b : Byte) (x y : Nat) :
    minGap (shiftoutEvents b) x y = ((shiftoutDelays.take y).drop (x + 1)).sum := by
  have hd : (shiftoutEvents b).map delayOf = shiftoutDelays := rfl
  rw [minGap, delaySum_eq_sum, List.map_drop, List.map_take, hd]

/-- Settles O46: MinGap is over SHIFTOUT's own events. -/
theorem shiftoutMeetsTheHoldTimes : Obligations.ShiftoutMeetsTheHoldTimes := by
  intro s b hr hi hp hq n
  refine ⟨_, exec_shiftout_quiet hr hi hp hq, ?_⟩
  have hgap (x y : Nat) : minGap (s.history ++ shiftoutEvents b) (n + x) (n + y)
      = ((shiftoutDelays.take y).drop (x + 1)).sum := by rw [minGap_append, minGap_shiftoutEvents]
  have hbits : ∀ k < 8, ((shiftoutDelays.take (5 * k + 3)).drop (5 * k + 1 + 1)).sum = 10
      ∧ ((shiftoutDelays.take (5 * k + 5)).drop (5 * k + 3 + 1)).sum = 2
      ∧ ((shiftoutDelays.take (5 * k + 5)).drop (5 * k + 1 + 1)).sum = 12
      ∧ ((shiftoutDelays.take (5 * k + 1)).drop (5 * k + 1)).sum = 0 := by decide
  exact ⟨fun k hk => by simpa only [hgap] using hbits k hk, (hgap 40 42).trans rfl, (hgap 0 42).trans rfl⟩

end Sys2Proof.Machine
end

section
/-! PROOFS. SHIFTOUT's edges in HISTORY, the outputs before its latch rise, and SHIFTOUTI (43_output_driver R161, R163,
30_encoding R77). -/

namespace Sys2Proof.Machine

/-! ### Edges -/

/-- Where a line stands low, what comes after gives its level. -/
theorem lineLevel_append {l : Line} {h : List Event} (hl : lineLevel l h = false) (es : List Event) :
    lineLevel l (h ++ es) = lineLevel l es := by
  induction es using List.reverseRecOn with
  | nil => rw [List.append_nil, hl]; rfl
  | append_singleton es e ih => rw [← List.append_assoc, lineLevel_snoc, lineLevel_snoc, ih]

/-- A rise after a history that leaves the line low is a rise of what comes after. -/
theorem riseAt_append {l : Line} {h : List Event} (hl : lineLevel l h = false) (es : List Event) (j : Nat) :
    riseAt l (h ++ es) (h.length + j) ↔ riseAt l es j := by
  rw [riseAt, riseAt, List.getElem?_append_right (by omega), Nat.add_sub_cancel_left, List.take_length_add_append,
    lineLevel_append hl]

/-- An event with the level of a write to SER forgotten. -/
def withoutSer : Event → Event
  | .line .ser _ => .line .ser false
  | e => e

/-- The rises of a clock do not depend on what is written to SER. -/
theorem riseAt_withoutSer {l : Line} (hl : l ≠ .ser) (es : List Event) (j : Nat) :
    riseAt l (es.map withoutSer) j ↔ riseAt l es j := by
  have hlevel (k : List Event) : lineLevel l (k.map withoutSer) = lineLevel l k := by
    induction k using List.reverseRecOn with
    | nil => rfl
    | append_singleton k e ih =>
      rw [List.map_append, List.map_singleton, lineLevel_snoc, lineLevel_snoc, ih]
      rcases e with _ | ⟨m, v⟩ | _ | _ | _ | _ | _ | _ <;> try rfl
      cases m <;> simp [withoutSer, hl.symm]
  have hevent (e : Event) : withoutSer e = .line l true ↔ e = .line l true := by
    rcases e with _ | ⟨m, v⟩ | _ | _ | _ | _ | _ | _ <;> try rfl
    cases m <;> simp [withoutSer, hl.symm]
  rw [riseAt, riseAt, ← List.map_take, hlevel, List.getElem?_map]
  simp [hevent]

/-- Where SHIFTOUT's events raise the two clocks (R161). -/
theorem riseAt_shiftoutEvents (b : Byte) (j : Nat) :
    (riseAt .srclk (shiftoutEvents b) j ↔ ∃ k < 8, j = 5 * k + 1) ∧ (riseAt .rclk (shiftoutEvents b) j ↔ j = 40) := by
  have hser : (shiftoutEvents b).map withoutSer = shiftoutEvents 0#8 := rfl
  rw [← riseAt_withoutSer (l := .srclk) (by simp), ← riseAt_withoutSer (l := .rclk) (by simp), hser]
  have hin : ∀ j < 43,
      (((shiftoutEvents 0#8)[j]? = some (.line .srclk true) ∧ lineLevel .srclk ((shiftoutEvents 0#8).take j) = false)
        ↔ ∃ k < 8, j = 5 * k + 1)
      ∧ (((shiftoutEvents 0#8)[j]? = some (.line .rclk true) ∧ lineLevel .rclk ((shiftoutEvents 0#8).take j) = false)
        ↔ j = 40) := by decide
  by_cases hj : j < 43
  · exact hin j hj
  · have hout (e : Event) : (shiftoutEvents 0#8)[j]? ≠ some e := by
      rw [List.getElem?_eq_none (Nat.le_of_not_lt hj)]
      exact fun h => by cases h
    exact ⟨⟨fun h => (hout _ h.1).elim, fun ⟨k, hk, h⟩ => by omega⟩, ⟨fun h => (hout _ h.1).elim, fun h => by omega⟩⟩

/-- The last of SHIFTOUT's events before the rise of bit `k` writes that bit to SER. -/
theorem take_shiftoutEvents (b : Byte) {k : Nat} (hk : k < 8) :
    (shiftoutEvents b).take (5 * k + 1) = (shiftoutEvents b).take (5 * k) ++ [.line .ser (b.getLsbD k)] := by
  interval_cases k <;> rfl

/-- Settles O45: the rises are those of SHIFTOUT's own events, since HISTORY leaves both clocks low before them. -/
theorem shiftoutMakesEightPulsesAndALatch : Obligations.ShiftoutMakesEightPulsesAndALatch := by
  intro s b hr hi hp hq hsrclk hrclk n
  refine ⟨_, exec_shiftout_quiet hr hi hp hq, List.prefix_append _ _, fun a ha => ?_, fun k hk => ?_, fun a ha => ?_⟩
  · obtain ⟨j, rfl⟩ := Nat.exists_eq_add_of_le ha
    simpa [n] using (riseAt_append hsrclk _ j).trans (riseAt_shiftoutEvents b j).1
  · simp only [n, List.take_length_add_append, take_shiftoutEvents b hk, ← List.append_assoc, lineLevel_snoc, if_true]
  · obtain ⟨j, rfl⟩ := Nat.exists_eq_add_of_le ha
    simpa [n] using (riseAt_append hrclk _ j).trans (riseAt_shiftoutEvents b j).2

/-! ### The outputs before the latch rise -/

/-- The micro-steps of a bit leave LATCH alone. -/
theorem bitSteps_latch {i : Nat} {m : MicroStep} {a u : State} (hm : m ∈ bitSteps i) (hu : m a = .moved u) :
    u.latch = a.latch := by
  simp only [bitSteps, List.mem_cons, List.not_mem_nil, or_false] at hm
  rcases hm with rfl | rfl | rfl | rfl | rfl
  · cases hp : a.pattern with
    | none => simp [writeBit, hp] at hu
    | some b => rw [writeBit_eq hp] at hu; cases hu; rw [writeLine_latch, receiverReact_latch]
  · cases hu; rw [writeLine_latch, receiverReact_latch]
  · cases hu; rfl
  · cases hu; rw [writeLine_latch, receiverReact_latch]
  · cases hu; rfl

/-- Settles O47: up to MS 39 the micro-steps are those of the bits. -/
theorem outputsHoldUntilTheLatchRise : Obligations.OutputsHoldUntilTheLatchRise := by
  intro n s t hn h
  have hbits : ∀ m ∈ shiftoutBody.take n, ∃ i, m ∈ bitSteps i := fun m hm => by
    have h40 : shiftoutBody.take 40 = [0, 1, 2, 3, 4, 5, 6, 7].flatMap bitSteps := rfl
    have hmem := (List.take_subset_take_left shiftoutBody hn) hm
    rw [h40, List.mem_flatMap] at hmem
    obtain ⟨i, -, hi⟩ := hmem
    exact ⟨i, hi⟩
  rcases runMicros_indexed (P := fun _ a => a.latch = s.latch) (k := 0) (ms := shiftoutBody.take n)
      (fun _ _ _ hgo ha => (awaitTurn_go hgo).latch.trans ha)
      (fun j m a u hj ha hu => by
        obtain ⟨i, hi⟩ := hbits m (List.mem_of_getElem? hj)
        exact (bitSteps_latch hi hu).trans ha) rfl with
    ⟨u, hu, hl⟩ | ⟨_, _, _, -, -, -, hu⟩ | ⟨_, _, _, -, -, -, hu⟩ | ⟨_, _, _, _, -, -, -, hu⟩ <;> rw [h] at hu <;>
    cases hu
  exact hl

/-! ### SHIFTOUTI -/

/-- The body micro-steps of SHIFTOUTI's 43 commands are those of SHIFTOUT's events, whatever PATTERN is. -/
theorem plays_pseudoShiftouti (x : Byte) :
    List.Forall₂ (fun m e => ∀ a : State, m a = .moved (emit e a)) ((pseudoShiftouti x).flatMap bodyOf)
      (shiftoutEvents x) := by
  have hbit (v : Bool) : List.Forall₂ (fun m e => ∀ a : State, m a = .moved (emit e a))
      ((pseudoShiftbit v).flatMap bodyOf) (bitEvents v) :=
    .cons (fun _ => rfl) <| .cons (fun _ => rfl) <| .cons (fun _ => rfl) <| .cons (fun _ => rfl) <|
      .cons (fun _ => rfl) .nil
  have hlatch : List.Forall₂ (fun m e => ∀ a : State, m a = .moved (emit e a))
      (pseudoLatchpulse.flatMap bodyOf) latchEvents :=
    .cons (fun _ => rfl) <| .cons (fun _ => rfl) <| .cons (fun _ => rfl) .nil
  have hbits (is : List Nat) : List.Forall₂ (fun m e => ∀ a : State, m a = .moved (emit e a))
      ((is.flatMap fun i => pseudoShiftbit (x.getLsbD i)).flatMap bodyOf)
      (is.flatMap fun i => bitEvents (x.getLsbD i)) := by
    induction is with
    | nil => exact .nil
    | cons i is ih =>
      rw [List.flatMap_cons, List.flatMap_append]
      exact List.rel_append (hbit _) ih
  rw [pseudoShiftouti, List.flatMap_append]
  exact List.rel_append (hbits _) hlatch

/-- The receiver does not read PATTERN. -/
theorem receiverReact_setPattern (l : Line) (old new : Level) (b : Byte) (s : State) :
    receiverReact l old new (s.setPattern b) = (receiverReact l old new s).setPattern b := by
  have ht : (s.setPattern b).timing = s.timing := rfl
  cases l <;>
    simp only [receiverReact, reactSer, reactSrclk, reactRclk, State.setPattern_lvlSrclk, ht] <;>
    split_ifs <;> rfl

theorem emit_setPattern (e : Event) (b : Byte) (s : State) : emit e (s.setPattern b) = (emit e s).setPattern b := by
  cases e with
  | line l v =>
    have hl : (s.setPattern b).lvl l = s.lvl l := by cases l <;> rfl
    simp only [emit_line, writeLine, receiverReact_setPattern, hl]
    cases l <;> rfl
  | _ => rfl

/-- The other agents do not read PATTERN. -/
theorem awaitTurn_go_of_setPattern {ts : Schedule} {b : Byte} {s t : State}
    (h : awaitTurn ts (s.setPattern b) = .go t) : ∃ u, awaitTurn ts s = .go u ∧ t = u.setPattern b := by
  induction ts using Schedule.wait_induction generalizing s with
  | h ts ih =>
    rw [awaitTurn_next] at h ⊢
    rcases hn : ts.next with ⟨a, rest⟩
    rw [hn] at h
    cases a with
    | controller => cases h; exact ⟨_, rfl, rfl⟩
    | reset k => cases h
    | converter v =>
      have hc : converterStep v (s.setPattern b) = (converterStep v s).setPattern b := by
        by_cases hb : s.adcState = .busy
        · rw [converterStep_busy hb, converterStep_busy (s := s.setPattern b) hb]; rfl
        · rw [converterStep_of_not_busy hb, converterStep_of_not_busy (s := s.setPattern b) hb]
      simp only [hc] at h
      exact ih v rest hn h

/-- Micro-steps that read the byte from PATTERN, and micro-steps of the same events that do not, run alike. -/
theorem runMicros_setPattern {b : Byte} {l l' : List MicroStep} {es : List Event} (h : Plays b l es)
    (h' : List.Forall₂ (fun m e => ∀ a : State, m a = .moved (emit e a)) l' es) {s t : State}
    (hrun : runMicros l (s.setPattern b) = .done t) :
    ∃ u, runMicros l' s = .done u ∧ t = u.setPattern b ∧ u.pattern = s.pattern := by
  induction h generalizing l' s with
  | nil => cases h'; cases hrun; exact ⟨s, rfl, rfl, rfl⟩
  | @cons m e l es hm hrest ih =>
    cases h' with
    | @cons m' _ l' _ hm' hrest' =>
      rw [runMicros] at hrun ⊢
      cases hgo : awaitTurn (s.setPattern b).turns (s.setPattern b) with
      | aborted t => rw [hgo] at hrun; cases hrun
      | go t =>
        obtain ⟨u, hu, rfl⟩ := awaitTurn_go_of_setPattern hgo
        rw [hgo] at hrun
        simp only [hm (u.setPattern b) rfl, emit_setPattern] at hrun
        obtain ⟨w, hw, hwt, hwp⟩ := ih hrest' (s := (emit e u).nextMicro) hrun
        rw [State.setPattern_turns] at hu
        refine ⟨w, by simpa only [hu, hm' u] using hw, hwt, ?_⟩
        rw [hwp, State.nextMicro_pattern, emit_pattern, (awaitTurn_go hu).pattern]

/-- Settles O7: the two runs are of the same events, and differ in PATTERN alone. -/
theorem shiftoutiRunsLikeShiftout : Obligations.ShiftoutiRunsLikeShiftout := by
  intro x s t _ h
  obtain ⟨u, hu, rfl, hp⟩ := runMicros_setPattern (plays_shiftoutBody x) (plays_pseudoShiftouti x) h
  exact ⟨rfl, u, hu, rfl, rfl, rfl, rfl, rfl, rfl, hp⟩

end Sys2Proof.Machine
end

section
/-! PROOFS. SAMPLE, STEP and RUN on schedules whose next moves are known (41_sampler R112 to R119, 44_loop R180 to R182). -/

namespace Sys2Proof.Machine

/-! ### Schedules -/

theorem begins_controller {ts rest : Schedule} {l : List Turn} :
    ts.begins (.controller :: l) rest ↔ quiet 1 ts = true ∧ (ts.drop 1).begins l rest := by
  rw [quiet_succ]
  exact ⟨fun ⟨h1, h2⟩ => ⟨⟨h1, rfl⟩, h2⟩, fun ⟨⟨h1, _⟩, h2⟩ => ⟨h1, h2⟩⟩

theorem quiet_add {m n : Nat} {ts : Schedule} : quiet (m + n) ts = true ↔ quiet m ts = true ∧ quiet n (ts.drop m) = true := by
  induction m generalizing ts with
  | zero => simp [quiet]
  | succ m ih => rw [Nat.succ_add, quiet_succ, quiet_succ, ih, and_assoc]; rfl

theorem quiet_of_begins {n : Nat} {ts rest : Schedule} (h : ts.begins (List.replicate n .controller) rest) :
    quiet n ts = true := by
  induction n generalizing ts with
  | zero => rfl
  | succ n ih => exact quiet_succ.2 ⟨h.1, ih h.2⟩

/-! ### The micro-steps of sampling -/

/-- AdcStart at the controller's turn (R112). -/
theorem runMicros_adcStart {s : State} (hq : quiet 1 s.turns = true) (l : List MicroStep) :
    runMicros (adcStart :: l) s = runMicros l { s with
      adcState := .busy, adcRes := none, history := s.history ++ [.adcStart], ms := s.ms + 1,
      turns := s.turns.drop 1 } :=
  runMicros_cons_quiet (m := adcStart) hq rfl

/-- AwaitAdc holds at a controller's turn in BUSY (R114). -/
theorem runMicros_awaitAdc_holds {s : State} (hb : s.adcState = .busy) (hq : quiet 1 s.turns = true) (l : List MicroStep) :
    runMicros (awaitAdc :: l) s = .over (.next (s.setTurns (s.turns.drop 1))) := by
  rw [runMicros, awaitTurn_quiet hq]
  simp [awaitAdc, hb]

/-- AwaitAdc goes on after a completion (R110, R114). -/
theorem runMicros_awaitAdc_completes {s : State} {v : Code} {rest : Schedule} (hb : s.adcState = .busy)
    (h : s.turns.begins [.converter v] rest) (hq : quiet 1 rest = true) (l : List MicroStep) :
    runMicros (awaitAdc :: l) s = runMicros l { s with
      adcState := .done, adcRes := some v, history := s.history ++ [.adcDone v], ms := s.ms + 1,
      turns := rest.drop 1 } := by
  obtain ⟨mid, hn, rfl⟩ := Schedule.begins_cons.1 h
  rw [runMicros, awaitTurn_converter hn, awaitTurn_quiet hq, converterStep_busy hb]
  rfl

/-- AdcTake, with the response kept (R113, R118). -/
theorem runMicros_takeAndRespond {s : State} {v : Code} (hv : s.adcRes = some v) (hq : quiet 1 s.turns = true)
    (l : List MicroStep) :
    runMicros (takeAndRespond :: l) s = runMicros l { s with
      raw := some v, history := s.history ++ [.adcRead v], pending := some (codeWord v), ms := s.ms + 1,
      turns := s.turns.drop 1 } :=
  runMicros_cons_quiet hq (takeAndRespond_of_result hv)

theorem adcTake_of_result {s : State} {v : Code} (h : s.adcRes = some v) :
    adcTake s = .moved ((s.setRaw v).record (.adcRead v)) := by
  simp [adcTake, h]

theorem mapRaw_of_raw {s : State} {v : Code} (h : s.raw = some v) : mapRaw s = .moved (s.setMapped v) := by
  simp [mapRaw, h]

theorem check_sampling {i : Instr} {s : State} (h : i = .sample ∨ i = .step ∨ i = .run) (hi : s.inited = true)
    (hb : s.adcState ≠ .busy) : check i s = none := by
  rcases h with rfl | rfl | rfl <;> simp [check, Instr.wf, startsConversion, hi, hb]

/-! ### SAMPLE -/

/-- SAMPLE at its hold, with the schedule `ts` to come. -/
def sampleHeld (s : State) (ts : Schedule) : State :=
  { s with
    adcState := .busy, adcRes := none, history := s.history ++ [.adcStart], cur := some .sample, ms := 1,
    pending := none, turns := ts }

/-- SAMPLE, from its fetch to its AwaitAdc (R118). -/
theorem exec_sample {s : State} (hr : s.ready = true) (hi : s.inited = true) (hb : s.adcState ≠ .busy)
    (hq : quiet 2 s.turns = true) :
    exec .sample s = afterBody (complete .sample)
      (runMicros [awaitAdc, takeAndRespond] (sampleHeld s (s.turns.drop 2))) := by
  have hk : check .sample (s.setTurns (s.turns.drop 1)) = none := check_sampling (.inl rfl) hi hb
  obtain ⟨h1, h2⟩ := (quiet_add (m := 1) (n := 1)).1 hq
  rw [exec_of_go hr (awaitTurn_quiet h1), hk]
  simp only [bodyOf, sampleBody]
  rw [runMicros_adcStart (by exact h2)]
  simp [sampleHeld, doneOf]

/-- A SAMPLE at its hold goes on from its AwaitAdc. -/
theorem step_sampleHeld {s : State} (hr : s.ready = true) (ts : Schedule) :
    step (sampleHeld s ts) = afterBody (complete .sample) (runMicros [awaitAdc, takeAndRespond] (sampleHeld s ts)) :=
  exec_of_progress (i := .sample) (s := sampleHeld s ts) (State.ready_iff.1 hr).1 rfl

/-- A completion lifts SAMPLE's hold: it takes the result, responds and completes (R118). -/
theorem sampleHeld_completes {s : State} {ts rest : Schedule} {v : Code} (h : ts.begins [.converter v] rest)
    (hq : quiet 3 rest = true) :
    afterBody (complete .sample) (runMicros [awaitAdc, takeAndRespond] (sampleHeld s ts)) = .next { s with
      raw := some v, adcState := .done, adcRes := some v,
      history := s.history ++ [.adcStart, .adcDone v, .adcRead v],
      responses := s.responses ++ [(s.cpc, BitVec.ofNat 16 v.toNat)],
      cpc := s.cpc + 1, cur := none, ms := 0, pending := none, turns := rest.drop 3 } := by
  obtain ⟨h1, h2⟩ := (quiet_add (m := 1) (n := 2)).1 hq
  obtain ⟨h2, h3⟩ := (quiet_add (m := 1) (n := 1)).1 h2
  rw [runMicros_awaitAdc_completes rfl (by exact h) h1, runMicros_takeAndRespond rfl (by exact h2), runMicros_nil]
  simp only [afterBody]
  rw [complete_quiet (by exact h3), finish_responds (w := codeWord v) rfl rfl, codeWord_eq]
  simp [sampleHeld]

/-- Settles O34: AdcStart, then the completion inside the hold. -/
theorem sampleTakesAFreshResult : Obligations.SampleTakesAFreshResult := by
  intro s v rest hr hi hb h hq
  obtain ⟨h1, h⟩ := begins_controller.1 h
  obtain ⟨h2, h⟩ := begins_controller.1 h
  rw [exec_sample hr hi hb ((quiet_add (m := 1) (n := 1)).2 ⟨h1, h2⟩)]
  exact sampleHeld_completes (by simpa using h) hq

/-- Settles O35: at a controller's turn AwaitAdc holds, and a completion lifts it. -/
theorem sampleHoldsUntilCompletion : Obligations.SampleHoldsUntilCompletion := by
  intro s hr hi hb held
  have stays {ts : Schedule} (hq : quiet 1 ts = true) :
      afterBody (complete .sample) (runMicros [awaitAdc, takeAndRespond] (sampleHeld s ts)) = .next (held (ts.drop 1)) := by
    rw [runMicros_awaitAdc_holds rfl (by exact hq)]
    rfl
  refine ⟨fun hq => ?_, fun ts hq => ?_, fun ts rest v h hq => ?_⟩
  · obtain ⟨h1, h2⟩ := (quiet_add (m := 2) (n := 1)).1 hq
    rw [exec_sample hr hi hb h1, stays h2, Schedule.drop_drop]
  · exact (step_sampleHeld hr ts).trans (stays hq)
  · exact (step_sampleHeld hr ts).trans (sampleHeld_completes h hq)

/-- Settles O36: the states the three commands of the port sequence leave, written out, beside SAMPLE's. -/
theorem sampleMatchesThePortSequence : Obligations.SampleMatchesThePortSequence := by
  intro s a b t v rest us hr hi hb hs hq ha hb' ht hus
  obtain ⟨hf, -⟩ := State.ready_iff.1 hr
  rw [show [Turn.controller, .controller, .controller, .converter v] = [.controller, .controller, .controller]
    ++ [.converter v] from rfl] at hs
  obtain ⟨mid, hs1, hs2⟩ := Schedule.begins_append.1 hs
  have hq3 : quiet 3 s.turns = true := quiet_of_begins hs1
  obtain rfl : s.turns.drop 3 = mid := Schedule.begins_drop hs1
  obtain ⟨-, -, hstart, -⟩ := adstartFollowsItsRule
  rw [hstart s hr hq3 hi hb] at ha
  cases ha
  obtain ⟨mid, hn, rfl⟩ := Schedule.begins_cons.1 hs2
  rw [converterCompletesOnlyFromBusy _ v _ hn, if_pos rfl] at hb'
  cases hb'
  obtain ⟨-, -, hread, -⟩ := adreadTakesTheResult
  cases ht.symm.trans (hread _ v (State.ready_iff.2 ⟨hf, rfl⟩) hq hi rfl rfl)
  rw [show [Turn.controller, .controller, .converter v, .controller, .controller, .controller]
    = [.controller, .controller, .converter v] ++ [.controller, .controller, .controller] from rfl] at hus
  obtain ⟨rest', h1, h2⟩ := Schedule.begins_append.1 hus
  have hq' : quiet 3 rest' = true := quiet_of_begins h2
  refine ⟨_, sampleTakesAFreshResult { s with turns := us } v rest' hr hi hb h1 hq', ?_⟩
  simp [← Schedule.begins_drop h2]

end Sys2Proof.Machine
end

section
/-! PROOFS. STEP and RUN: one iteration of the loop (44_loop R180 to R183). -/

namespace Sys2Proof.Machine

/-! ### Sampling and mapping -/

/-- What the loop's first four micro-steps leave, the conversion completing with `v` (R180): the reading, its quantized power
and pattern, and their events. -/
def State.sampled (s : State) (v : Code) : State :=
  { s with
    raw := some v, power := some (quant v).1, pattern := some (quant v).2, adcState := .done, adcRes := some v,
    history := s.history ++ [.adcStart, .adcDone v, .adcRead v] }

@[simp] theorem State.sampled_timing (s : State) (v : Code) : (s.sampled v).timing = s.timing :=
  timingOf_append_unseen _ _ (by simp [unseen])

/-- SHIFTOUT's events after the sampling, with SRCLK driven: the receiver as a SHIFTOUT of the new pattern entered the same
way leaves it. -/
theorem play_sampled {s : State} (v : Code) (hz : s.lvlSrclk ≠ .z) :
    play (shiftoutEvents (quant v).2) (s.sampled v) = { s with
      raw := some v, power := some (quant v).1, pattern := some (quant v).2, adcState := .done, adcRes := some v,
      shift := shiftedOut s (quant v).2, latch := latchedOut s (quant v).2,
      lvlSer := levelOfBool ((quant v).2.getLsbD 7), lvlSrclk := .low, lvlRclk := .low,
      history := s.history ++ [.adcStart, .adcDone v, .adcRead v] ++ shiftoutEvents (quant v).2 } := by
  obtain ⟨hshift, hlatch⟩ := play_shiftoutEvents_driven (quant v).2 (s := s.sampled v) hz
  obtain ⟨-, -, hser, hrclk, hlow, -⟩ := play_shiftoutEvents (quant v).2 (s.sampled v)
  rw [shiftedOut_congr (s := s) (u := s.sampled v) rfl rfl rfl (s.sampled_timing v)] at hshift
  rw [latchedOut_congr (s := s) (u := s.sampled v) rfl rfl rfl rfl rfl (s.sampled_timing v)] at hlatch
  rw [play_frame, hshift, hlatch, hser, hlow, hrclk]
  rfl

/-- SHIFTOUT's events do not see CUR, MS, the waiting response and the schedule. -/
theorem play_sequencer (es : List Event) (s : State) (c : Option Instr) (m : Nat) (p : Option Word) (ts : Schedule) :
    play es { s with cur := c, ms := m, pending := p, turns := ts }
      = { play es s with cur := c, ms := m, pending := p, turns := ts } := by
  have h : Same s { s with cur := c, ms := m, pending := p, turns := ts } := ⟨rfl, rfl⟩
  have hp := h.play es
  rw [play_frame es { s with cur := c, ms := m, pending := p, turns := ts }, hp.lvlSer, hp.lvlSrclk, hp.lvlRclk,
    hp.shift, hp.latch]
  conv_rhs => rw [play_frame es s]

/-! ### The 47 micro-steps with a completion at the hold -/

/-- One iteration's body with the completion inside the hold, and quiet otherwise (R180). -/
theorem runMicros_stepBody {s : State} {v : Code} {rest : Schedule} (h : s.turns.begins [.controller, .converter v] rest)
    (hq : quiet 46 rest = true) :
    runMicros stepBody s = .done { play (shiftoutEvents (quant v).2) (s.sampled v) with
      cur := s.cur, ms := s.ms + 47, pending := s.pending, turns := rest.drop 46 } := by
  obtain ⟨h1, h⟩ := begins_controller.1 h
  obtain ⟨q1, q2⟩ := (quiet_add (m := 1) (n := 45)).1 hq
  obtain ⟨q2, q3⟩ := (quiet_add (m := 1) (n := 44)).1 q2
  obtain ⟨q3, q4⟩ := (quiet_add (m := 1) (n := 43)).1 q3
  have hbody : stepBody = adcStart :: awaitAdc :: adcTake :: mapRaw :: shiftoutBody := rfl
  have hsampled : s.sampled v = { s with
      raw := some v, power := some (quant v).1, pattern := some (quant v).2, adcState := .done, adcRes := some v,
      history := s.history ++ [.adcStart] ++ [.adcDone v] ++ [.adcRead v] } := by simp [State.sampled]
  have hq4 : quiet shiftoutBody.length (rest.drop 3) = true := q4
  have hrun := runMicros_plays_quiet
    (s := { s.sampled v with cur := s.cur, ms := s.ms + 4, pending := s.pending, turns := rest.drop 3 })
    (plays_shiftoutBody (quant v).2) rfl hq4
  rw [play_sequencer, hsampled] at hrun
  rw [hbody, runMicros_adcStart h1, runMicros_awaitAdc_completes rfl (by exact h) q1,
    runMicros_cons_quiet (by exact q2) (adcTake_of_result rfl), runMicros_cons_quiet (by exact q3) (mapRaw_of_raw rfl),
    hsampled]
  exact hrun

/-- STEP with the completion inside its hold, and quiet otherwise: it completes with its events done (R180). -/
theorem exec_step_completes {s : State} {v : Code} {rest : Schedule} (hr : s.ready = true) (hi : s.inited = true)
    (hb : s.adcState ≠ .busy) (h : s.turns.begins [.controller, .controller, .converter v] rest)
    (hq : quiet 47 rest = true) :
    exec .step s = .next { play (shiftoutEvents (quant v).2) (s.sampled v) with
      cpc := s.cpc + 1, cur := none, ms := 0, pending := none, turns := rest.drop 47 } := by
  obtain ⟨h1, h⟩ := begins_controller.1 h
  obtain ⟨q1, q2⟩ := (quiet_add (m := 46) (n := 1)).1 hq
  have hk : check .step (s.setTurns (s.turns.drop 1)) = none := check_sampling (.inr (.inl rfl)) hi hb
  have hplay := play_sequencer (shiftoutEvents (quant v).2) (s.sampled v) (some .step) 0 none (s.turns.drop 1)
  have hrun := runMicros_stepBody (s := begin .step (s.setTurns (s.turns.drop 1))) h q1
  rw [exec_of_go hr (awaitTurn_quiet h1), hk]
  simp only [bodyOf, hrun, afterBody, doneOf, reduceCtorEq, if_false]
  rw [complete_quiet (by exact q2), finish_silent rfl]
  have hbegin : (begin .step (s.setTurns (s.turns.drop 1))).sampled v
    = { s.sampled v with cur := some .step, ms := 0, pending := none, turns := s.turns.drop 1 } := rfl
  rw [hbegin, hplay, play_frame]
  simp [State.sampled]

/-- Settles O53: with SRCLK driven, STEP's events leave the receiver as `shiftedOut` and `latchedOut` say. -/
theorem stepCommandFromEveryEntry : Obligations.StepCommandFromEveryEntry := by
  intro s v rest hr hd hb h hq
  simp only [State.driven, Bool.and_eq_true, bne_iff_ne] at hd
  obtain ⟨⟨⟨hi, -⟩, hz⟩, -⟩ := hd
  rw [exec_step_completes hr hi hb h hq, play_sampled v hz]

/-- Settles O52: from a settled entry both are the bit reversal of the pattern. -/
theorem stepCommandShowsItsSample : Obligations.StepCommandShowsItsSample := by
  intro s v rest hr hi hb hs h hq
  obtain ⟨⟨hlow, -⟩, -⟩ := State.settled_iff.1 hs
  obtain ⟨h1, h2⟩ := shiftedOut_settled hs (quant v).2
  rw [exec_step_completes hr hi hb h hq, play_sampled v (by simp [hlow]), h1, h2]

/-- One iteration of RUN, from its fetch or from between two iterations (R181). -/
theorem exec_run_iterates {s : State} {v : Code} {pre : List Turn} {rest : Schedule} (hf : s.faulted = false)
    (hi : s.inited = true) (hb : s.adcState ≠ .busy)
    (hpre : s.cur = none ∧ pre = [.controller, .controller] ∨
      s.cur = some .run ∧ s.ms % 47 = 0 ∧ pre = [.controller])
    (h : s.turns.begins (pre ++ [.converter v]) rest) (hq : quiet 46 rest = true) :
    ∃ p, exec .run s = .next { play (shiftoutEvents (quant v).2) (s.sampled v) with
      cur := some .run, ms := if s.cur = none then 47 else s.ms + 47, pending := p, turns := rest.drop 46 } := by
  rcases hpre with ⟨hc, rfl⟩ | ⟨hc, hms, rfl⟩
  · obtain ⟨h1, h⟩ := begins_controller.1 h
    have hk : check .run (s.setTurns (s.turns.drop 1)) = none := check_sampling (.inr (.inr rfl)) hi hb
    have hplay := play_sequencer (shiftoutEvents (quant v).2) (s.sampled v) (some .run) 0 none (s.turns.drop 1)
    have hrun := runMicros_stepBody (s := begin .run (s.setTurns (s.turns.drop 1))) h hq
    have hbegin : (begin .run (s.setTurns (s.turns.drop 1))).sampled v
      = { s.sampled v with cur := some .run, ms := 0, pending := none, turns := s.turns.drop 1 } := rfl
    refine ⟨none, ?_⟩
    rw [exec_of_go (State.ready_iff.2 ⟨hf, hc⟩) (awaitTurn_quiet h1), hk, hc]
    simp only [bodyOf, hrun, afterBody, doneOf, if_true]
    rw [hbegin, hplay]
    simp
  · have hrest : restOf .run s.ms = stepBody := by simp [restOf, length_stepBody, hms]
    refine ⟨s.pending, ?_⟩
    rw [exec_of_progress hf hc, hrest, runMicros_stepBody h hq, hc]
    simp [afterBody, doneOf]

/-- Settles O56: the iteration's events, with SRCLK driven. -/
theorem runIterationFromEveryEntry : Obligations.RunIterationFromEveryEntry := by
  intro s v pre rest hf hd hb hpre h hq
  simp only [State.driven, Bool.and_eq_true, bne_iff_ne] at hd
  obtain ⟨⟨⟨hi, -⟩, hz⟩, -⟩ := hd
  obtain ⟨p, hrun⟩ := exec_run_iterates hf hi hb hpre h hq
  rw [play_sampled v hz] at hrun
  exact ⟨_, hrun, rfl, rfl⟩

/-- Settles O55: the same from a settled entry. -/
theorem runGoesThroughOneIteration : Obligations.RunGoesThroughOneIteration := by
  intro s v pre rest hf hi hb hs hpre h hq
  obtain ⟨⟨hlow, -⟩, -⟩ := State.settled_iff.1 hs
  obtain ⟨h1, h2⟩ := shiftedOut_settled hs (quant v).2
  obtain ⟨p, hrun⟩ := exec_run_iterates hf hi hb hpre h hq
  rw [play_sampled v (by simp [hlow]), h1, h2] at hrun
  exact ⟨_, hrun, rfl, rfl⟩

/-! ### Any schedule with no reset -/

theorem Same.setRaw {a u : State} (h : Same a u) (v : Code) : Same (a.setRaw v) (u.setRaw v) :=
  ⟨by conv_lhs => rw [h.frame]
      rfl, h.timing⟩

theorem Same.setMapped {a u : State} (h : Same a u) (v : Code) : Same (a.setMapped v) (u.setMapped v) :=
  ⟨by conv_lhs => rw [h.frame]
      rfl, h.timing⟩

/-- What a loop's body does with its conversion's result, under a schedule with no reset (R180). -/
theorem runMicros_showsTheResult {s : State} {v : Code} (hd : s.adcState = .done) (hv : s.adcRes = some v)
    (hn : noReset s.turns) :
    ∃ u, runMicros (adcTake :: mapRaw :: shiftoutBody) s = .done u ∧ noReset u.turns
      ∧ Same (play (shiftoutEvents (quant v).2) (((s.setRaw v).record (.adcRead v)).setMapped v)) u
      ∧ u.adcState = .done ∧ u.adcRes = some v
      ∧ u.history = s.history ++ [.adcRead v] ++ shiftoutEvents (quant v).2 := by
  obtain ⟨a, ma, na, ra, -, -⟩ := runMicros_cons_noReset adcTake (mapRaw :: shiftoutBody) hn
  obtain ⟨a1, a2, a3⟩ := ma.adc_of_not_busy (by simp [hd])
  rw [ra _ (adcTake_of_result (a2.trans hv))]
  obtain ⟨b, mb, nb, rb, -, -⟩ := runMicros_cons_noReset (s := ((a.setRaw v).record (.adcRead v)).nextMicro)
    mapRaw shiftoutBody na
  obtain ⟨b1, b2, b3⟩ := mb.adc_of_not_busy (by simp [a1, hd])
  rw [rb _ (mapRaw_of_raw (by rw [mb.raw]; rfl))]
  obtain ⟨u, hu, hsu, hnu, hadc⟩ := runMicros_plays (s := (b.setMapped v).nextMicro) (plays_shiftoutBody (quant v).2) rfl nb
  obtain ⟨h1, h2, h3⟩ := hadc (by simp [b1, a1, hd])
  have hsame : Same (((s.setRaw v).record (.adcRead v)).setMapped v) (b.setMapped v).nextMicro :=
    (((((Same.of_converter ma).setRaw v).record _).trans (.nextMicro _)).trans (.of_converter mb)).setMapped v
      |>.trans (.nextMicro _)
  exact ⟨u, hu, hnu, (hsame.play _).trans hsu, by simp [h1, b1, a1, hd], by simp [h2, b2, a2, hv],
    by simp [h3, b3, a3]⟩

/-- One iteration's body with no conversion in flight, under a schedule with no reset: it holds at its AwaitAdc, or the
converter completes with a code before that, which the iteration then shows (R180, R183). -/
theorem runMicros_stepBody_noReset {s : State} (hb : s.adcState ≠ .busy) (hn : noReset s.turns) :
    (∃ ts, runMicros stepBody s = .over (.next { s with
      adcState := .busy, adcRes := none, history := s.history ++ [.adcStart], ms := s.ms + 1, turns := ts })) ∨
    ∃ v u, runMicros stepBody s = .done u ∧ noReset u.turns
      ∧ Same (play (shiftoutEvents (quant v).2) (s.sampled v)) u ∧ u.adcState = .done ∧ u.adcRes = some v
      ∧ u.history = s.history ++ [.adcStart, .adcDone v, .adcRead v] ++ shiftoutEvents (quant v).2 := by
  have hbody : stepBody = adcStart :: awaitAdc :: adcTake :: mapRaw :: shiftoutBody := rfl
  rw [hbody]
  obtain ⟨a, ma, na, ra, -, -⟩ := runMicros_cons_noReset adcStart (awaitAdc :: adcTake :: mapRaw :: shiftoutBody) hn
  rw [ra _ rfl]
  have ha := ma.of_not_busy hb
  generalize a.turns = ts at ha na
  subst ha
  obtain ⟨c, mc, nc, rc, hc, -⟩ := runMicros_cons_noReset (s := ((s.setTurns ts).adcToBusy.record .adcStart).nextMicro)
    awaitAdc (adcTake :: mapRaw :: shiftoutBody) na
  rcases mc with mc | ⟨-, v, mc⟩
  · left
    have hheld : awaitAdc c = .held := by rw [mc]; rfl
    rw [hc hheld]
    generalize c.turns = t1 at mc
    subst mc
    exact ⟨t1, by simp [State.nextMicro, State.record, State.setTurns, State.adcToBusy]⟩
  · right
    have hmoved : awaitAdc c = .moved c := by rw [mc]; rfl
    have hd : c.nextMicro.adcState = .done := by rw [mc]; rfl
    have hv : c.nextMicro.adcRes = some v := by rw [mc]; rfl
    have hhist : c.nextMicro.history = s.history ++ [.adcStart, .adcDone v] := by rw [mc]; simp
    rw [rc _ hmoved]
    obtain ⟨u, hu, hnu, hsame, h1, h2, h3⟩ := runMicros_showsTheResult hd hv nc
    -- the first two micro-steps leave what `sampled` says, but for the result taken and mapped
    have hsampled : ((c.nextMicro.setRaw v).record (.adcRead v)).setMapped v
        = { s.sampled v with ms := s.ms + 2, turns := c.turns } := by
      generalize c.turns = t1 at mc
      subst mc
      simp [State.sampled, State.setMapped, State.nextMicro, State.record, State.setRaw, State.setTurns,
        State.adcToDone, State.adcToBusy]
    have hsame' : Same (s.sampled v) (((c.nextMicro.setRaw v).record (.adcRead v)).setMapped v) := by
      rw [hsampled]
      exact ⟨rfl, rfl⟩
    exact ⟨v, u, hu, hnu, (hsame'.play _).trans hsame, h1, h2, by rw [h3, hhist]; simp⟩

/-- Settles O54: the hold, or the iteration's events on a settled receiver and a completion. -/
theorem stepCommandHoldsOrShowsItsSample : Obligations.StepCommandHoldsOrShowsItsSample := by
  intro s hr hi hidle hs hn
  have hb : s.adcState ≠ .busy := by rcases hidle with h | h <;> simp [h]
  obtain ⟨a, hgo, m, hna⟩ := awaitTurn_of_noReset s hn
  have ha := m.of_not_busy hb
  generalize a.turns = ts at ha hna
  subst ha
  have hk : check .step (s.setTurns ts) = none := check_sampling (.inr (.inl rfl)) hi hb
  rw [exec_of_go hr hgo, hk]
  rcases runMicros_stepBody_noReset (s := begin .step (s.setTurns ts)) hb hna with
    ⟨ts', hrun⟩ | ⟨v, u, hrun, hnu, hsame, hdone, hres, hhist⟩ <;>
    simp only [bodyOf, hrun, afterBody]
  · exact ⟨_, rfl, .inl ⟨rfl, rfl, rfl, rfl, rfl, rfl, rfl⟩⟩
  · obtain ⟨w, hw, mw, -⟩ := awaitTurn_of_noReset u hnu
    obtain ⟨g1, g2, g3⟩ := mw.adc_of_not_busy (by simp [hdone])
    have hS := hsame.trans (.of_converter mw)
    obtain ⟨⟨hlow, -⟩, -⟩ := State.settled_iff.1 hs
    obtain ⟨k1, k2⟩ := shiftedOut_settled (s := begin .step (s.setTurns ts)) hs (quant v).2
    rw [play_sampled v (by simp [hlow]), k1, k2] at hS
    have hhist' : (finish .step w).history
        = s.history ++ [.adcStart, .adcDone v, .adcRead v] ++ shiftoutEvents (quant v).2 := by
      rw [finish_history, g3, hhist]; rfl
    have hnext : complete .step u = .next (finish .step w) := by simp [complete, hw]
    have hsettled : (finish .step w).settled = true := by
      refine settled_of_history (s := s.sampled v) (b := (quant v).2) ?_ ?_ hhist'
      · rw [finish_lvlSrclk, hS.lvlSrclk]
      · rw [finish_lvlRclk, hS.lvlRclk]
    refine ⟨finish .step w, hnext, .inr ⟨v, ?_⟩⟩
    simp only [State.seg, finish_raw, finish_power, finish_pattern, finish_shift, finish_latch, finish_lvlSer,
      finish_lvlSrclk, finish_lvlRclk, finish_adcState, finish_adcRes, finish_cpc, finish_cur, hhist', hS.raw, hS.power,
      hS.pattern, hS.shift, hS.latch, hS.lvlSer, hS.lvlSrclk, hS.lvlRclk, hS.cpc, g1, g2, hdone, hres, hsettled,
      true_and, and_true]
    exact ⟨rfl, rfl⟩

end Sys2Proof.Machine
end

section
/-! PROOFS. Endless runs where completions keep coming (41_sampler R111, R114, 44_loop R181). -/

namespace Sys2Proof.Machine

/-! ### The converter's next turn -/

/-- The converter's turn comes after finitely many turns of the controller, and before any reset. -/
inductive ConverterComes : Schedule → Prop
  | now {ts : Schedule} {v : Code} : ts.next.1 = .converter v → ConverterComes ts
  | later {ts : Schedule} : ts.next.1 = .controller → ConverterComes ts.next.2 → ConverterComes ts

/-- Only the next move and what follows it count. -/
theorem ConverterComes.of_next_eq {ts us : Schedule} (h : ts.next = us.next) (c : ConverterComes us) : ConverterComes ts := by
  cases c with
  | now hv => exact .now (by rw [h]; exact hv)
  | later hc c => exact .later (by rw [h]; exact hc) (by rw [h]; exact c)

/-- Among listed moves with no reset, or after them. -/
theorem ConverterComes.of_listed {b : Beyond} {moves : List Turn} (hn : ∀ t ∈ moves, ∀ k, t ≠ .reset k)
    (h : (∃ v, .converter v ∈ moves) ∨ ConverterComes ⟨[], b⟩) : ConverterComes ⟨moves, b⟩ := by
  induction moves with
  | nil => simpa using h
  | cons t moves ih =>
    cases t with
    | converter v => exact .now rfl
    | reset k => exact absurd rfl (hn _ (by simp) k)
    | controller =>
      exact .later rfl (ih (fun t ht => hn t (by simp [ht])) (by simpa using h))

/-- With nothing listed the moves are those of the next pass, the controller's turn, and the passes after it. -/
theorem Schedule.next_nil (b : Beyond) : Schedule.next ⟨[], b⟩ = Schedule.next ⟨b.pass ++ [.controller], b.later⟩ := by
  cases h : b.pass <;> simp [Schedule.next, h]

/-- In the next pass, or in a later one. -/
theorem ConverterComes.of_pass {b : Beyond} (hn : ∀ t ∈ b.pass, ∀ k, t ≠ .reset k)
    (h : (∃ v, .converter v ∈ b.pass) ∨ ConverterComes ⟨[], b.later⟩) : ConverterComes ⟨[], b⟩ := by
  refine .of_next_eq (Schedule.next_nil b) (.of_listed (fun t ht => ?_) (by simpa using h))
  rcases List.mem_append.1 ht with ht | ht
  · exact hn t ht
  · simp [List.mem_singleton.1 ht]

/-- In the open schedule, where one of its passes has a turn of the converter. -/
theorem ConverterComes.of_free {n k : Nat} (hnk : n ≤ k) (hn : (Beyond.free n).all fun t => ∀ k, t ≠ .reset k)
    (h : ∃ v, .converter v ∈ Config.environment k) : ConverterComes ⟨[], .free n⟩ := by
  induction hnk using Nat.decreasingInduction with
  | self => exact .of_pass (Beyond.all_pass hn).1 (.inl h)
  | of_succ m _ ih => exact .of_pass (Beyond.all_pass hn).1 (.inr (ih (Beyond.all_pass hn).2))

/-- A schedule with no reset that keeps giving the converter its turn: the fairness under which ADC_COMPLETES holds
(41_sampler R111). -/
def Fair (ts : Schedule) : Prop := noReset ts ∧ keepsCompleting ts

theorem Fair.converterComes {ts : Schedule} (h : Fair ts) : ConverterComes ts := by
  obtain ⟨⟨hl, hb⟩, hk⟩ := h
  obtain ⟨moves, b⟩ := ts
  refine .of_listed hl (.inr ?_)
  cases b with
  | cycle pass => exact .of_pass (Beyond.all_pass hb).1 (.inl hk)
  | free n =>
    obtain ⟨k, hnk, hv⟩ := hk n (Nat.le_refl n)
    exact .of_free hnk hb hv

/-- A move on, the schedule is as fair. -/
theorem Fair.next {ts : Schedule} (h : Fair ts) : Fair ts.next.2 := by
  refine ⟨(noReset_next h.1).2, ?_⟩
  have hlater : ∀ l b, keepsCompleting ⟨l, b⟩ → ∀ l', keepsCompleting ⟨l', b.later⟩ := by
    intro l b hk l'
    cases b with
    | cycle pass => exact hk
    | free n => exact fun m hm => hk m (Nat.le_of_succ_le hm)
  obtain ⟨-, hk⟩ := h
  obtain ⟨moves, b⟩ := ts
  cases moves with
  | cons t moves => exact hk
  | nil => cases hp : b.pass <;> simpa [Schedule.next, hp] using hlater _ b hk _

theorem Fair.awaitTurn_go {ts : Schedule} {s t : State} (hts : Fair ts) (h : awaitTurn ts s = .go t) : Fair t.turns := by
  induction ts using Schedule.wait_induction generalizing s with
  | h ts ih =>
    have hnext := hts.next
    rw [awaitTurn_next] at h
    rcases hn : ts.next with ⟨a, rest⟩
    rw [hn] at h hnext
    cases a with
    | controller => cases h; exact hnext
    | converter v => exact ih v rest hn hnext h
    | reset k => cases h

/-- A command leaves a fair schedule fair. -/
theorem Fair.exec {i : Instr} {s t : State} (hts : Fair s.turns) (h : exec i s = .next t) : Fair t.turns := by
  have aborted : ∀ a b, awaitTurn a.turns a = .aborted b → Fair a.turns → Fair b.turns := fun a b hab ha => by
    obtain ⟨c, hc, -⟩ := awaitTurn_of_noReset a ha.1
    rw [hc] at hab
    cases hab
  have idle : Fair s.turns → Fair (idle s).turns := fun hs => by
    rcases idle_cases s with ⟨-, ht⟩ | ⟨k, rest, ht, -⟩
    · rw [ht]; exact hs.next
    · exact absurd (by rw [ht]) ((noReset_next hs.1).1 k)
  rcases exec_keeps (P := fun a => Fair a.turns) (fun a b hab ha => ha.awaitTurn_go hab) aborted idle
    (fun f a ha => by simpa using ha) (fun a ha => ha) (fun a u hM ha => by simpa [hM.turns] using ha) hts h with
    ht | ⟨a, ha, -, rfl⟩
  · exact ht
  · simpa using ha

/-! ### Endless runs -/

/-- The next state of a step; a stop, which no state of the invariant comes to, leaves the state. -/
def advance (s : State) : State :=
  match step s with
  | .next t => t
  | .fault _ => s
  | .refused _ => s

theorem advance_eq {s t : State} (h : step s = .next t) : advance s = t := by simp [advance, h]

theorem Invariant.step_advance {s : State} (v : Invariant s) : step s = .next (advance s) ∧ Invariant (advance s) := by
  obtain ⟨t, ht, vt⟩ := step_invariant v
  rw [advance_eq ht]
  exact ⟨ht, vt⟩

/-- From a state of the invariant the machine runs without end. -/
theorem Invariant.isRun {s : State} (v : Invariant s) : IsRun fun n => advance^[n] s := by
  have inv : ∀ n, Invariant (advance^[n] s) := fun n => by
    induction n with
    | zero => exact v
    | succ n ih => rw [Function.iterate_succ_apply']; exact ih.step_advance.2
  intro n
  simp only [Function.iterate_succ_apply']
  exact (inv n).step_advance.1

/-! ### At the hold -/

/-- SAMPLE, STEP or RUN at its hold (41_sampler R114). -/
structure AtHold (i : Instr) (s : State) : Prop where
  invariant : Invariant s
  cur : s.cur = some i
  busy : s.adcState = .busy
  noReset : noReset s.turns

namespace AtHold

variable {i : Instr} {s : State}

theorem unfaulted (h : AtHold i s) : s.faulted = false := by
  simp [State.faulted, (h.invariant.running _ h.cur).1]

theorem place (h : AtHold i s) : (i = .sample ∨ i = .step) ∧ s.ms = 1 ∨ i = .run ∧ s.ms % 47 = 1 := by
  obtain ⟨-, -, -, -, hin⟩ := h.invariant.running _ h.cur
  rcases hin with ⟨hi, hms, -⟩ | ⟨hi, hms, -⟩ | ⟨-, -, hd⟩
  · exact .inl ⟨hi, hms⟩
  · exact .inr ⟨hi, hms⟩
  · rw [h.busy] at hd; cases hd

theorem sampling (h : AtHold i s) : i = .sample ∨ i = .step ∨ i = .run := by
  rcases h.place with ⟨hi | hi, -⟩ | ⟨hi, -⟩ <;> simp [hi]

/-- What is left of the body is AwaitAdc and what follows it. -/
theorem step_eq (h : AtHold i s) :
    step s = afterBody (doneOf i) (runMicros (awaitAdc :: (bodyOf i).drop 2) s) := by
  have hrest : restOf i s.ms = awaitAdc :: (bodyOf i).drop 2 := by
    rcases h.place with ⟨rfl | rfl, hms⟩ | ⟨rfl, hms⟩
    · simp [restOf, hms, bodyOf, sampleBody]
    · simp [restOf, hms, bodyOf]; rfl
    · simp only [restOf, length_stepBody, hms, if_true]; rfl
  rw [← hrest, ← exec_of_progress h.unfaulted h.cur]
  simp [step, h.cur]

/-- At a controller's turn the hold stays (R114). -/
theorem waits (h : AtHold i s) (hc : s.turns.next.1 = .controller) :
    advance s = s.setTurns s.turns.next.2 ∧ AtHold i (s.setTurns s.turns.next.2) := by
  have hstep : step s = .next (s.setTurns s.turns.next.2) := by
    rw [h.step_eq, runMicros_awaitAdc_holds h.busy (quiet_succ.2 ⟨hc, rfl⟩)]
    rfl
  obtain ⟨-, v⟩ := h.invariant.step_advance
  rw [advance_eq hstep] at v
  exact ⟨advance_eq hstep, v, h.cur, h.busy, (noReset_next h.noReset).2⟩

end AtHold

/-- A turn of the converter in BUSY completes the conversion, and AwaitAdc goes on (R110, R114). -/
theorem runMicros_awaitAdc_lifted {s : State} {v : Code} (hb : s.adcState = .busy) (hn : noReset s.turns)
    (hv : s.turns.next.1 = .converter v) (l : List MicroStep) :
    ∃ c, runMicros (awaitAdc :: l) s = runMicros l c ∧ noReset c.turns ∧ c.adcState = .done ∧ c.adcRes = some v := by
  have hdone : (converterStep v s).adcState = .done := by rw [converterStep_busy hb]; rfl
  have hres : (converterStep v s).adcRes = some v := by rw [converterStep_busy hb]; rfl
  obtain ⟨c, hc, m, hnc⟩ := awaitTurn_of_noReset (converterStep v s) (noReset_next hn).2
  obtain ⟨h1, h2, -⟩ := m.adc_of_not_busy (by simp [hdone])
  refine ⟨c.nextMicro, ?_, hnc, h1.trans hdone, h2.trans hres⟩
  rw [runMicros, awaitTurn_converter (Prod.ext hv rfl), hc]
  simp [awaitAdc, h1, hdone]

/-- After AwaitAdc the rest of the body takes the result (R113). -/
theorem runMicros_afterAwait {i : Instr} {c : State} {v : Code} (hi : i = .sample ∨ i = .step ∨ i = .run)
    (hd : c.adcState = .done) (hv : c.adcRes = some v) (hn : noReset c.turns) :
    ∃ u, runMicros ((bodyOf i).drop 2) c = .done u ∧ noReset u.turns ∧ u.raw = some v ∧ u.adcState = .done := by
  have loop : ∃ u, runMicros (adcTake :: mapRaw :: shiftoutBody) c = .done u ∧ noReset u.turns ∧ u.raw = some v
      ∧ u.adcState = .done := by
    obtain ⟨u, hu, hnu, hsame, h1, -⟩ := runMicros_showsTheResult hd hv hn
    exact ⟨u, hu, hnu, by rw [hsame.raw, play_frame]; rfl, h1⟩
  rcases hi with rfl | rfl | rfl
  · obtain ⟨t, m, hnt, hrun, -, -⟩ := runMicros_cons_noReset takeAndRespond [] hn
    obtain ⟨h1, h2, -⟩ := m.adc_of_not_busy (by simp [hd])
    exact ⟨_, hrun _ (takeAndRespond_of_result (h2.trans hv)), by simpa using hnt, rfl, by simp [h1, hd]⟩
  · exact loop
  · exact loop

namespace AtHold

variable {i : Instr} {s : State}

/-- A turn of the converter lifts the hold, and the command goes on to the end of its body: RUN's iteration, or the
completion (R114, R118, R180, R181). -/
theorem lifts {v : Code} (h : AtHold i s) (hv : s.turns.next.1 = .converter v) :
    ∃ t, step s = .next t ∧ t.raw = some v ∧ t.adcState = .done
      ∧ (i = .run ∧ t.ms + 1 = s.ms + 47 ∨ i ≠ .run ∧ t.cur = none ∧ t.cpc = s.cpc + 1 ∧ t.faultCode = 0#3) := by
  obtain ⟨c, hc, hnc, hd, hres⟩ := runMicros_awaitAdc_lifted h.busy h.noReset hv ((bodyOf i).drop 2)
  obtain ⟨u, hu, hnu, hraw, hdu⟩ := runMicros_afterAwait h.sampling hd hres hnc
  obtain ⟨t, ht, hend⟩ := exec_ends h.invariant h.unfaulted (.inr h.cur)
  have hstep : step s = .next t := by simpa [step, h.cur] using ht
  have htu : t.raw = some v ∧ t.adcState = .done := by
    have hu' : step s = doneOf i u := by rw [h.step_eq, hc, hu]; rfl
    rw [hstep] at hu'
    unfold doneOf at hu'
    split_ifs at hu' with hi
    · cases hu'; exact ⟨hraw, hdu⟩
    · obtain ⟨w, hw, m, -⟩ := awaitTurn_of_noReset u hnu
      obtain ⟨h1, -⟩ := m.adc_of_not_busy (by simp [hdu])
      simp only [complete, hw, Host.Outcome.next.injEq] at hu'
      subst hu'
      simp [m.raw, hraw, h1, hdu]
  refine ⟨t, hstep, htu.1, htu.2, ?_⟩
  cases hend with
  | reset u hr => exact (not_reset_of_noReset h.noReset hr).elim
  | raised hcur _ _ => rw [h.cur] at hcur; cases hcur
  | iterated hi w =>
    obtain ⟨hns, -⟩ | ⟨-, hp⟩ := h.place
    · simp [hi] at hns
    · have hms := w.ms
      subst hi
      simp only [placeOf, if_true, length_stepBody, hp, bodyOf] at hms
      exact .inl ⟨rfl, hms⟩
  | completed hi w => exact .inr ⟨hi, rfl, by simp [w.cpc], by simp [w.unfaulted]⟩
  | held _ _ hb => rw [htu.2] at hb; cases hb

end AtHold

/-- The hold of SAMPLE or STEP ends with the command's completion, after finitely many steps at the hold. -/
theorem AtHold.completes {i : Instr} {s : State} (h : AtHold i s) (hi : i ≠ .run) (hc : ConverterComes s.turns) :
    ∃ n v, let t := advance^[n + 1] s
      t.cur = none ∧ t.cpc = s.cpc + 1 ∧ t.raw = some v ∧ t.adcState = .done ∧ t.faultCode = 0#3
        ∧ ∀ m ≤ n, (advance^[m] s).cur = some i ∧ (advance^[m] s).adcState = .busy ∧ (advance^[m] s).cpc = s.cpc := by
  generalize hts : s.turns = ts at hc
  induction hc generalizing s with
  | @now _ v hv =>
    subst hts
    obtain ⟨t, ht, hraw, hd, ⟨hr, -⟩ | ⟨-, hcur, hcpc, hfc⟩⟩ := h.lifts hv
    · exact absurd hr hi
    · refine ⟨0, v, ?_⟩
      rw [Function.iterate_one, advance_eq ht]
      refine ⟨hcur, hcpc, hraw, hd, hfc, fun m hm => ?_⟩
      rw [Nat.le_zero.1 hm]
      exact ⟨h.cur, h.busy, rfl⟩
  | later hc _ ih =>
    subst hts
    obtain ⟨hadv, h'⟩ := h.waits hc
    obtain ⟨n, v, hcur, hcpc, hraw, hd, hfc, hheld⟩ := ih h' rfl
    refine ⟨n + 1, v, ?_⟩
    rw [Function.iterate_succ_apply, hadv]
    refine ⟨hcur, hcpc, hraw, hd, hfc, fun m hm => ?_⟩
    cases m with
    | zero => exact ⟨h.cur, h.busy, rfl⟩
    | succ m =>
      rw [Function.iterate_succ_apply, hadv]
      exact hheld m (Nat.le_of_succ_le_succ hm)

/-- Settles O59: by induction on the controller's turns before the converter's. -/
theorem holdsEndWhereCompletionsKeepComing : Obligations.HoldsEndWhereCompletionsKeepComing := by
  intro s i v hc hi hn hk
  have hrun : i ≠ .run := by rcases hi with rfl | rfl <;> simp
  have hb : s.adcState = .busy := by
    obtain ⟨-, -, -, -, ⟨-, -, hb⟩ | ⟨-, -, hb⟩ | ⟨hr, -⟩⟩ := v.running i hc
    · exact hb
    · exact hb
    · exact absurd hr hrun
  exact ⟨fun n => advance^[n] s, rfl, v.isRun, AtHold.completes ⟨v, hc, hb, hn⟩ hrun (Fair.converterComes ⟨hn, hk⟩)⟩

/-! ### RUN -/

/-- RUN in progress under a fair schedule. -/
structure Running (s : State) : Prop where
  invariant : Invariant s
  cur : s.cur = some .run
  fair : Fair s.turns

theorem Running.advance {s : State} (h : Running s) : Running (advance s) := by
  obtain ⟨hstep, v⟩ := h.invariant.step_advance
  obtain ⟨hcur, -⟩ := onlyResetLeavesRun s _ h.invariant h.cur h.fair.1 hstep
  exact ⟨v, hcur, h.fair.exec (by simpa [step, h.cur] using hstep)⟩

theorem Running.iterate {s : State} (h : Running s) (n : Nat) : Running (Machine.advance^[n] s) := by
  induction n with
  | zero => exact h
  | succ n ih => rw [Function.iterate_succ_apply']; exact ih.advance

/-- At its hold RUN gets to the end of its iteration. -/
theorem AtHold.iterates {s : State} (h : AtHold .run s) (hc : ConverterComes s.turns) :
    ∃ n, (advance^[n] s).adcState ≠ .busy ∧ (advance^[n] s).ms + 1 = s.ms + 47 := by
  generalize hts : s.turns = ts at hc
  induction hc generalizing s with
  | now hv =>
    subst hts
    obtain ⟨t, ht, -, hd, ⟨-, hms⟩ | ⟨hr, -⟩⟩ := h.lifts hv
    · refine ⟨1, ?_⟩
      rw [Function.iterate_one, advance_eq ht]
      exact ⟨by simp [hd], hms⟩
    · exact absurd rfl hr
  | later hc _ ih =>
    subst hts
    obtain ⟨hadv, h'⟩ := h.waits hc
    obtain ⟨n, hn⟩ := ih h' rfl
    refine ⟨n + 1, ?_⟩
    rw [Function.iterate_succ_apply, hadv]
    exact hn

/-- From its hold or from between two iterations RUN gets to the end of the iteration. -/
theorem Running.iterates {s : State} (h : Running s) :
    ∃ n, (Machine.advance^[n] s).adcState ≠ .busy ∧ 47 * (s.ms / 47 + 1) ≤ (Machine.advance^[n] s).ms := by
  have hold {u : State} (hu : Running u) (hb : u.adcState = .busy) (hle : 47 * (s.ms / 47) < u.ms) :
      ∃ n, (Machine.advance^[n] u).adcState ≠ .busy ∧ 47 * (s.ms / 47 + 1) ≤ (Machine.advance^[n] u).ms := by
    obtain ⟨n, hn, hms⟩ := AtHold.iterates ⟨hu.invariant, hu.cur, hb, hu.fair.1⟩ hu.fair.converterComes
    exact ⟨n, hn, by omega⟩
  obtain ⟨-, -, -, -, ⟨hi, -⟩ | ⟨-, hms, hb⟩ | ⟨-, hms, -⟩⟩ := h.invariant.running _ h.cur
  · simp at hi
  · rw [length_stepBody] at hms
    exact hold h hb (by omega)
  · rw [length_stepBody] at hms
    obtain ⟨t, ht, hend⟩ := run_ends h.invariant h.cur h.fair.1
    have hrun := h.advance
    rw [advance_eq ht] at hrun
    rcases hend with w | ⟨w, hb⟩ <;> have hw := w.ms <;> simp only [placeOf, if_true, length_stepBody, hms] at hw
    · have hd : t.adcState = .done := w.needs.2.2.2.1 (by decide)
      refine ⟨1, ?_⟩
      rw [Function.iterate_one, advance_eq ht]
      exact ⟨by simp [hd], by omega⟩
    · obtain ⟨n, hn⟩ := hold hrun hb (by omega)
      refine ⟨n + 1, ?_⟩
      rw [Function.iterate_succ_apply, advance_eq ht]
      exact hn

/-- Settles O58: iteration after iteration, each with its hold behind it. -/
theorem runIteratesForEver : Obligations.RunIteratesForEver := by
  intro s v hc hn hk
  have h : Running s := ⟨v, hc, hn, hk⟩
  refine ⟨fun n => advance^[n] s, rfl, v.isRun, fun n _ => ?_, fun n => (h.iterate n).cur, fun k => ?_⟩
  · obtain ⟨m, hm, -⟩ := (h.iterate n).iterates
    exact ⟨m + n, Nat.le_add_left n m, by simpa only [Function.iterate_add_apply] using hm⟩
  · have rounds : ∀ k, ∃ n, 47 * (s.ms / 47 + k) ≤ (advance^[n] s).ms := fun k => by
      induction k with
      | zero => exact ⟨0, Nat.mul_div_le s.ms 47⟩
      | succ k ih =>
        obtain ⟨n, hle⟩ := ih
        obtain ⟨m, -, hm⟩ := (h.iterate n).iterates
        refine ⟨m + n, ?_⟩
        rw [Function.iterate_add_apply]
        omega
    obtain ⟨n, hle⟩ := rounds (k + 1)
    exact ⟨n, by dsimp only; omega⟩

end Sys2Proof.Machine
end
